-- ==== Sys2Proof/Word.lean ====
section
/-! DEFINITION. The plain data of the block: bit strings, symbols, counts, weights, trees (00_scope.md R7 to R12). -/

namespace Sys2Proof

/-- One byte of a stream (`BYTE_W`, 00_scope.md R7). -/
abbrev Byte := BitVec 8

/-- A bit string, the leftmost bit travels first (00_scope.md R10). -/
abbrev BitString := List Bool

/-- A symbol value, 0 to 256; no other value is ever a symbol (00_scope.md R18). -/
abbrev Sym := Fin 257

/-- A frequency counter of `CNT_W` = 32 bits (00_scope.md R8, 10_state.md R23). -/
abbrev Count := BitVec 32

/-- A node weight of `WGT_W` = 41 bits (00_scope.md R8, 41_tree_builder.md R126). -/
abbrev Weight := BitVec 41

/-- A counter of 10 bits: `SEQ` (`SEQ_W`, 00_scope.md R8) and `NNODE` (10_state.md R32). -/
abbrev Ctr10 := BitVec 10

/-- A tree value: `L(s)` or `N(l, r)` (00_scope.md R12, 10_state.md R24). Bit 0 leads left, bit 1 leads right. -/
inductive CodeTree where
  | leaf (sym : Sym)
  | node (left right : CodeTree)
  deriving DecidableEq, Repr

end Sys2Proof
end

