-- ==== Sys2Proof/Config.lean ====
section
/-! DEFINITION. The parameters of the hardware (00_scope.md R7, R8) and the free values the spec leaves open. -/

namespace Sys2Proof.Config

/-- `EOB`, the end-of-block symbol (00_scope.md R7). -/
def eob : Sym := 256

/-- `CNT_MAX`, the saturation value of a frequency counter (00_scope.md R8). -/
def cntMax : Count := BitVec.allOnes 32

/-- `NODE_CAP`, the most nodes one tree may have (00_scope.md R8, R9). -/
def nodeCap : Nat := 513

/-- `DEPTH_MAX`, the greatest code length (00_scope.md R8, R9). -/
def depthMax : Nat := 256

/-- `RW_MAX`, the widest stream transaction (00_scope.md R7). -/
def rwMax : Nat := 32

/-- `MAGIC`: a 32-bit parameter whose value the spec leaves open (00_scope.md R8, 93 U2). Log 5. -/
opaque magic : BitVec 32

/-- `PAD`: bit `i` of the free draw number `n`, one draw for each `OutClose` (00_scope.md R8, 20_memory.md R57, 93 U1).
Log 6. -/
opaque padBit (n i : Nat) : Bool

/-- Where a reset that cut a command short left `IN.pos`: a free draw (70_reset_and_hazards.md R262, 93 U9). Log 7. -/
opaque cutPos (n : Nat) : Nat

/-- What a command cut short by reset had appended to `OUT`: a free draw (70_reset_and_hazards.md R262, 93 U9). Log 7. -/
opaque cutBits (n : Nat) : BitString

/-- Whether a command cut short by reset had already closed the output: a free draw (93 U9). Log 7. -/
opaque cutClosed (n : Nat) : Bool

/-- Whether a command cut short by reset after it closed the output had released the input too: a free draw (93 U9).
Log 7. -/
opaque cutReleased (n : Nat) : Bool

end Sys2Proof.Config
end

