-- ==== Sys2Proof/Syntax.lean ====
section
/-! DEFINITION. The instructions: one constructor for each row of the opcode table. The sixteen command words carry no
operand (30_encoding.md R80, R81); the five wire tokens are the words the readers find in `IN` (30_encoding.md R84). -/

namespace Sys2Proof

/-- The fourteen commands of HUFF-CMD v1 (30_encoding.md R81). -/
inductive Cmd where
  | count | build | gencodes | wrmagic | wrtree | encbody | rdmagic | rdtree | decbody
  | rewind | close | compress | decompress | clear
  deriving DecidableEq, Repr

/-- One constructor for each row of spec/opcode_table.json. -/
inductive Instr where
  /-- `0x0`, reserved (R82). -/
  | reserved0
  /-- `0x1` (R110). -/
  | count
  /-- `0x2` (R120). -/
  | build
  /-- `0x3` (R140). -/
  | gencodes
  /-- `0x4` (R170). -/
  | wrmagic
  /-- `0x5` (R150). -/
  | wrtree
  /-- `0x6` (R173). -/
  | encbody
  /-- `0x7` (R190). -/
  | rdmagic
  /-- `0x8` (R154). -/
  | rdtree
  /-- `0x9` (R193). -/
  | decbody
  /-- `0xA` (R210). -/
  | rewind
  /-- `0xB` (R211). -/
  | close
  /-- `0xC` (R178). -/
  | compress
  /-- `0xD` (R198). -/
  | decompress
  /-- `0xE` (R213). -/
  | clear
  /-- `0xF`, reserved (R82). -/
  | reservedF
  /-- The 32-bit field at the start of a compressed stream (R85). -/
  | magic (m : BitVec 32)
  /-- The token `0`, an internal node (R86). -/
  | nodeInt
  /-- The token `1 sssssssss`, a leaf with its symbol field (R87). -/
  | nodeLeaf (sym : BitVec 9)
  /-- The code of one symbol in the body (R89). -/
  | code (path : BitString)
  /-- The bits that fill the last byte (R90). -/
  | pad (bits : BitString)
  deriving DecidableEq, Repr

end Sys2Proof
end

