-- ==== Sys2Proof/WellFormed.lean ====
section
/-! DEFINITION. Which instruction terms the encodings of the spec admit. -/

namespace Sys2Proof

/-- A leaf token holds a symbol of 0 to 256 (30_encoding.md R87, R93); a code has 1 to 256 bits (R89); a pad has 0 to 7
bits (R90). Every other term is well formed: a command has no operand (R80), and the magic field is any 32 bits (R85). -/
def Instr.wellFormed : Instr → Bool
  | .nodeLeaf f => decide (f.toNat ≤ 256)
  | .code p => decide (1 ≤ p.length) && decide (p.length ≤ Config.depthMax)
  | .pad b => decide (b.length ≤ 7)
  | .reserved0 | .count | .build | .gencodes | .wrmagic | .wrtree | .encbody | .rdmagic | .rdtree | .decbody
  | .rewind | .close | .compress | .decompress | .clear | .reservedF | .magic _ | .nodeInt => true

end Sys2Proof
end

