-- ==== Sys2Proof/Decode.lean ====
section
/-! DEFINITION. Bit strings as numbers, the decoder of both encodings (command words and wire tokens), and the encoder. -/

namespace Sys2Proof

/-- `bits(w, v)`: the low `w` bits of `v`, most significant first (00_scope.md R11, 20_memory.md R55). -/
def bitsOf : Nat → Nat → BitString
  | 0, _ => []
  | w + 1, v => v.testBit w :: bitsOf w v

/-- `val(s)` with the digits read so far in `acc`. -/
def valFrom : Nat → BitString → Nat
  | acc, [] => acc
  | acc, b :: bs => valFrom (2 * acc + b.toNat) bs

/-- `val(s)`: the number whose binary numeral, most significant digit first, is `s` (00_scope.md R11). -/
def valOf (s : BitString) : Nat := valFrom 0 s

/-- The bits of a byte sequence in the order they travel: bit 7 of byte 0 first (10_state.md R38, 20_memory.md R52). -/
def bitsOfBytes : List Byte → BitString
  | [] => []
  | b :: bs => bitsOf 8 b.toNat ++ bitsOfBytes bs

/-- The opcode of a command (30_encoding.md R81). -/
def Cmd.opcode : Cmd → BitVec 4
  | .count => 0x1#4
  | .build => 0x2#4
  | .gencodes => 0x3#4
  | .wrmagic => 0x4#4
  | .wrtree => 0x5#4
  | .encbody => 0x6#4
  | .rdmagic => 0x7#4
  | .rdtree => 0x8#4
  | .decbody => 0x9#4
  | .rewind => 0xA#4
  | .close => 0xB#4
  | .compress => 0xC#4
  | .decompress => 0xD#4
  | .clear => 0xE#4

/-- The opcode map read as a decoder: every 4-bit word is an instruction (30_encoding.md R81, R82). -/
def decodeCommand (w : BitVec 4) : Instr :=
  match w.toNat with
  | 0x0 => .reserved0
  | 0x1 => .count
  | 0x2 => .build
  | 0x3 => .gencodes
  | 0x4 => .wrmagic
  | 0x5 => .wrtree
  | 0x6 => .encbody
  | 0x7 => .rdmagic
  | 0x8 => .rdtree
  | 0x9 => .decbody
  | 0xA => .rewind
  | 0xB => .close
  | 0xC => .compress
  | 0xD => .decompress
  | 0xE => .clear
  | _ => .reservedF

/-- The command a word selects, none for the two reserved words (30_encoding.md R81, R82). -/
def Cmd.ofWord (w : BitVec 4) : Option Cmd :=
  match decodeCommand w with
  | .count => some .count
  | .build => some .build
  | .gencodes => some .gencodes
  | .wrmagic => some .wrmagic
  | .wrtree => some .wrtree
  | .encbody => some .encbody
  | .rdmagic => some .rdmagic
  | .rdtree => some .rdtree
  | .decbody => some .decbody
  | .rewind => some .rewind
  | .close => some .close
  | .compress => some .compress
  | .decompress => some .decompress
  | .clear => some .clear
  | .reserved0 | .reservedF | .magic _ | .nodeInt | .nodeLeaf _ | .code _ | .pad _ => none

/-- What a bit string is read as. The command port and each reader know which token comes next (30_encoding.md R96);
a code is read against the tree of the same stream (R89), a pad by the number of bits to the next byte boundary (R90). -/
inductive Context where
  | command
  | magic
  | node
  | code (t : CodeTree)
  | pad (k : Nat)
  deriving DecidableEq, Repr

/-- Why the decoder reads no instruction. -/
inductive Reject where
  /-- fewer than 4 bits for a command word -/
  | shortCommand
  /-- fewer than 32 bits for the magic -/
  | shortMagic
  /-- no bit for a node marker -/
  | shortMarker
  /-- fewer than 9 bits for a symbol field -/
  | shortSymbol
  /-- the bits end inside a code -/
  | shortCode
  /-- the tree is a lone leaf, whose code would be empty -/
  | emptyCode
  /-- fewer bits than the pad has -/
  | shortPad
  /-- a pad of more than 7 bits -/
  | longPad
  deriving DecidableEq, Repr

/-- The bits from the root of a tree to the first leaf met, and the bits after them (30_encoding.md R96). -/
def takeCode : CodeTree → BitString → Option (BitString × BitString)
  | .leaf _, bs => some ([], bs)
  | .node _ _, [] => none
  | .node l _, false :: bs => (takeCode l bs).map fun p => (false :: p.1, p.2)
  | .node _ r, true :: bs => (takeCode r bs).map fun p => (true :: p.1, p.2)

/-- The node token at the head of a bit string: `0`, or `1` and nine bits (30_encoding.md R86, R87, R96). -/
def decodeNode : BitString → Except Reject (Instr × BitString)
  | [] => .error .shortMarker
  | false :: rest => .ok (.nodeInt, rest)
  | true :: rest =>
    if 9 ≤ rest.length then .ok (.nodeLeaf (BitVec.ofNat 9 (valOf (rest.take 9))), rest.drop 9)
    else .error .shortSymbol

/-- The decoder: the instruction at the head of a bit string and the bits after it. Total; it rejects by name. -/
def decode : Context → BitString → Except Reject (Instr × BitString)
  | .command, bs =>
    if 4 ≤ bs.length then .ok (decodeCommand (BitVec.ofNat 4 (valOf (bs.take 4))), bs.drop 4)
    else .error .shortCommand
  | .magic, bs =>
    if 32 ≤ bs.length then .ok (.magic (BitVec.ofNat 32 (valOf (bs.take 32))), bs.drop 32)
    else .error .shortMagic
  | .node, bs => decodeNode bs
  | .code (.leaf _), _ => .error .emptyCode
  | .code (.node l r), bs =>
    match takeCode (.node l r) bs with
    | some p => .ok (.code p.1, p.2)
    | none => .error .shortCode
  | .pad k, bs =>
    if 7 < k then .error .longPad
    else if k ≤ bs.length then .ok (.pad (bs.take k), bs.drop k)
    else .error .shortPad

/-- The decoder on the bytes of a stream, from their first bit. -/
def decodeBytes (c : Context) (bytes : List Byte) : Except Reject (Instr × BitString) :=
  decode c (bitsOfBytes bytes)

/-- The encoder: the bits of an instruction in the order they travel (30_encoding.md R81, R85 to R90). -/
def encode : Instr → BitString
  | .reserved0 => bitsOf 4 0x0
  | .count => bitsOf 4 0x1
  | .build => bitsOf 4 0x2
  | .gencodes => bitsOf 4 0x3
  | .wrmagic => bitsOf 4 0x4
  | .wrtree => bitsOf 4 0x5
  | .encbody => bitsOf 4 0x6
  | .rdmagic => bitsOf 4 0x7
  | .rdtree => bitsOf 4 0x8
  | .decbody => bitsOf 4 0x9
  | .rewind => bitsOf 4 0xA
  | .close => bitsOf 4 0xB
  | .compress => bitsOf 4 0xC
  | .decompress => bitsOf 4 0xD
  | .clear => bitsOf 4 0xE
  | .reservedF => bitsOf 4 0xF
  | .magic m => bitsOf 32 m.toNat
  | .nodeInt => [false]
  | .nodeLeaf f => true :: bitsOf 9 f.toNat
  | .code p => p
  | .pad b => b

/-- The subtree a bit string leads to, left on 0 and right on 1 (00_scope.md R12, 10_state.md R28). -/
def CodeTree.follow : CodeTree → BitString → Option CodeTree
  | t, [] => some t
  | .leaf _, _ :: _ => none
  | .node l _, false :: bs => l.follow bs
  | .node _ r, true :: bs => r.follow bs

/-- The contexts an instruction is read in. -/
def Context.admits : Context → Instr → Prop
  | .command, i =>
    match i with
    | .reserved0 | .count | .build | .gencodes | .wrmagic | .wrtree | .encbody | .rdmagic | .rdtree | .decbody
    | .rewind | .close | .compress | .decompress | .clear | .reservedF => True
    | .magic _ | .nodeInt | .nodeLeaf _ | .code _ | .pad _ => False
  | .magic, i => ∃ m, i = .magic m
  | .node, i => i = .nodeInt ∨ ∃ f, i = .nodeLeaf f
  | .code t, i => ∃ p y, i = .code p ∧ t.follow p = some (.leaf y)
  | .pad k, i => ∃ b, i = .pad b ∧ b.length = k

/-- `enc(t)`: the preorder header of a tree (30_encoding.md R88). -/
def encTree : CodeTree → BitString
  | .leaf s => encode (.nodeLeaf (BitVec.ofNat 9 s.val))
  | .node l r => encode .nodeInt ++ encTree l ++ encTree r

/-- An instruction that took up all the bits it was read from. -/
def wholeWord : Except Reject (Instr × BitString) → Option Instr
  | .ok (i, []) => some i
  | .ok (_, _ :: _) => none
  | .error _ => none

/-- The instruction of an opcode-table word. A byte is a 4-bit command word in its low bits, 16 bits hold a 10-bit leaf
token, 32 bits hold the magic field. The 1-bit row NODE_INT has the same byte as RESERVED_0 and is read as the command
word (log 11). -/
def decodeTableWord (nbits w : Nat) : Option Instr :=
  if nbits = 8 ∧ w < 2 ^ 4 then wholeWord (decode .command (bitsOf 4 w))
  else if nbits = 16 ∧ w < 2 ^ 10 then wholeWord (decode .node (bitsOf 10 w))
  else if nbits = 32 ∧ w < 2 ^ 32 then wholeWord (decode .magic (bitsOf 32 w))
  else none

end Sys2Proof
end

