-- ==== Sys2Proof/Machine/State.lean ====
section
/-! DEFINITION. The state of the block and of its two streams, and its value after reset (10_state.md R20, R38, R40). -/

namespace Sys2Proof.Machine

/-- Nothing in the spec stops the machine with a fault: each of the nine faults of 60_exceptions.md R220 ends a command
and is recorded in `STATUS`, so it is a next state (R232). No constructor. -/
inductive Fault where
  deriving DecidableEq, Repr

/-- Why a step has no result. -/
inductive Refusal where
  /-- An instruction without a meaning: raised by no arm of this model. Safe. -/
  | notModelled (mnemonic : String)
  /-- `InRead` or `InRewind` on an input that is not bound or was closed, raised by the commands that read or rewind
  `IN` (20_memory.md R69, 70_reset_and_hazards.md R275, 93 U7). Safe: the spec gives no result. Log 8. -/
  | inputNotOpen
  /-- `OutWrite` or `OutClose` on an output that is not bound or was closed, raised by the commands that write or close
  `OUT` (20_memory.md R55, R69, 70_reset_and_hazards.md R275, 93 U7). Safe: the spec gives no result. Log 8. -/
  | outputNotOpen
  /-- The host binds a stream while a command runs, or changes the input while a command other than one between the two
  passes runs; raised by the step (70_reset_and_hazards.md R272, 93 U8: `refuse`). Safe: the spec gives no result. Log 9. -/
  | streamTouchedWhileBusy
  deriving DecidableEq, Repr

/-- The nine faults (60_exceptions.md R220). -/
inductive FaultKind where
  | badMagic | truncatedHeader | truncatedStream | invalidSymbol | treeOverflow | leafRoot | noCode | sequence
  | illegalCommand
  deriving DecidableEq, Repr

/-- An entry of the builder's queue (10_state.md R29). -/
structure Entry where
  weight : Weight
  seq : Ctr10
  tree : CodeTree
  deriving DecidableEq, Repr

/-- A pending internal node of the header reader: its left subtree is being read, or its left subtree is known and its
right subtree is being read (10_state.md R33). Log 17. -/
inductive Frame where
  | left
  | right (l : CodeTree)
  deriving DecidableEq, Repr

/-- `PHASE`: idle, or the running command and, inside a composite command, the primitive of its sequence that runs
(10_state.md R34). For a primitive command the two are the same. -/
inductive Phase where
  | idle
  | run (command step : Cmd)
  deriving DecidableEq, Repr

/-- The six one-bit fields of `STATUS` (10_state.md R35, R37). -/
structure Status where
  busy : Bool
  done : Bool
  err : Bool
  freqValid : Bool
  treeValid : Bool
  codeValid : Bool
  deriving DecidableEq, Repr

/-- `IN` (10_state.md R38); `isOpen`: the host has bound it and it has not been closed (20_memory.md R57, R69). -/
structure InStream where
  bits : BitString
  pos : Nat
  isOpen : Bool
  deriving DecidableEq, Repr

/-- `OUT` (10_state.md R38); `bound`: the host has bound it (20_memory.md R69). -/
structure OutStream where
  bits : BitString
  closed : Bool
  bound : Bool
  deriving DecidableEq, Repr

/-- What the host does next (log 2). -/
inductive HostEvent where
  /-- `IN = <bytes>`: bind a fresh input positioned at its start (30_encoding.md R97). -/
  | bindIn (bytes : List Byte)
  /-- `OUT = new`: bind a fresh, empty, open output (30_encoding.md R97). -/
  | bindOut
  /-- Change the contents of the input, as a host may between the two passes of a compression (20_memory.md R70,
  70_reset_and_hazards.md R271, 93 U8). -/
  | changeIn (bytes : List Byte)
  /-- Issue a command word and wait for its end (30_encoding.md R80, R97). -/
  | command (w : BitVec 4)
  /-- Issue a command word and watch the command run, one token or one primitive a step (log 1). -/
  | start (w : BitVec 4)
  /-- Let one step pass. -/
  | wait
  /-- Apply reset (70_reset_and_hazards.md R260, R262). -/
  | reset
  deriving DecidableEq, Repr

/-- The state of the machine. -/
structure State where
  /-- `FREQ[0..255]` (10_state.md R23) -/
  freq : Vector Count 256
  /-- `TREE` (10_state.md R24) -/
  tree : Option CodeTree
  /-- `CODE[0..256]` (10_state.md R27) -/
  code : Vector (Option BitString) 257
  /-- `PQ` (10_state.md R29) -/
  pq : List Entry
  /-- `SEQ` (10_state.md R29) -/
  seq : Ctr10
  /-- `CUR` (10_state.md R31) -/
  cur : CodeTree
  /-- `NNODE` (10_state.md R32) -/
  nnode : Ctr10
  /-- the traversal stack (10_state.md R33) -/
  stack : List Frame
  /-- `STATUS` (10_state.md R35) -/
  status : Status
  /-- `ERRCODE` (10_state.md R36) -/
  errcode : BitVec 4
  /-- `ERRCMD` (10_state.md R36) -/
  errcmd : BitVec 4
  /-- `PHASE` (10_state.md R34) -/
  phase : Phase
  /-- `IN` (10_state.md R38) -/
  inp : InStream
  /-- `OUT` (10_state.md R38) -/
  out : OutStream
  /-- the model's own field: what the host does next, first event first (log 2) -/
  port : List HostEvent
  /-- the model's own field: how many free draws were made (log 6) -/
  draws : Nat
  deriving DecidableEq, Repr

/-- The machine right after reset: the block as 10_state.md R40 says (`CUR`, which R40 leaves unspecified, holds the leaf
`L(0)`: log 4), with a fresh empty input, a fresh empty open output and no host event to come (log 2, log 3). -/
def State.reset : State where
  freq := Vector.replicate 256 0#32
  tree := none
  code := Vector.replicate 257 none
  pq := []
  seq := 0#10
  cur := .leaf 0
  nnode := 0#10
  stack := []
  status := { busy := false, done := false, err := false, freqValid := false, treeValid := false, codeValid := false }
  errcode := 0#4
  errcmd := 0#4
  phase := .idle
  inp := { bits := [], pos := 0, isOpen := true }
  out := { bits := [], closed := false, bound := true }
  port := []
  draws := 0

end Sys2Proof.Machine
end

