-- ==== Sys2Proof/Machine/Flags.lean ====
section
/-! DEFINITION. The flags: the six fields of `STATUS`, what sets and clears the valid flags, and the fault codes
(10_state.md R30, R35 to R37; 60_exceptions.md R220). -/

namespace Sys2Proof.Machine

/-- `STATUS` as the host reads it: bit 0 `BUSY`, 1 `DONE`, 2 `ERR`, 3 `FREQ_VALID`, 4 `TREE_VALID`, 5 `CODE_VALID`, bits
7:6 read as 0 (10_state.md R35). -/
def Status.word (f : Status) : BitVec 8 :=
  BitVec.ofNat 8 (f.busy.toNat + 2 * f.done.toNat + 4 * f.err.toNat + 8 * f.freqValid.toNat + 16 * f.treeValid.toNat
    + 32 * f.codeValid.toNat)

/-- The codes of the faults (60_exceptions.md R220). -/
def FaultKind.code : FaultKind → BitVec 4
  | .badMagic => 1#4
  | .truncatedHeader => 2#4
  | .truncatedStream => 3#4
  | .invalidSymbol => 4#4
  | .treeOverflow => 5#4
  | .leafRoot => 6#4
  | .noCode => 7#4
  | .sequence => 8#4
  | .illegalCommand => 9#4

/-- The three valid flags cleared (10_state.md R30, 46_stream_control.md R215). -/
def clearValid (s : State) : State :=
  { s with status := { s.status with freqValid := false, treeValid := false, codeValid := false } }

/-- `FREQ_VALID <- 1` (10_state.md R30). -/
def markFreq (s : State) : State := { s with status := { s.status with freqValid := true } }

/-- `TREE_VALID <- 0; CODE_VALID <- 0` (10_state.md R30). -/
def dropTree (s : State) : State := { s with status := { s.status with treeValid := false, codeValid := false } }

/-- `TREE <- t; TREE_VALID <- 1` (10_state.md R30). -/
def putTree (t : CodeTree) (s : State) : State :=
  { s with tree := some t, status := { s.status with treeValid := true } }

/-- `CODE_VALID <- 0` (10_state.md R30). -/
def dropCode (s : State) : State := { s with status := { s.status with codeValid := false } }

/-- `CODE_VALID <- 1` (10_state.md R30). -/
def markCode (s : State) : State := { s with status := { s.status with codeValid := true } }

end Sys2Proof.Machine
end

