-- ==== Sys2Proof/Machine/Operands.lean ====
section
/-! DEFINITION. The operands. A command names none (30_encoding.md R80); what it works on are entries of `FREQ` and `CODE`,
the tree held under `TREE_VALID`, and symbols (10_state.md R22 to R27). -/

namespace Sys2Proof

/-- The symbol of a byte value (00_scope.md R18). -/
def symOfByte (b : Byte) : Sym := ⟨b.toNat, Nat.lt_of_lt_of_le b.isLt (by decide)⟩

/-- The symbol of a 9-bit field, none for 257 to 511 (30_encoding.md R92, R93). -/
def symOfField (f : BitVec 9) : Option Sym :=
  if h : f.toNat < 257 then some ⟨f.toNat, h⟩ else none

/-- `isLeaf(t)` (00_scope.md R12). -/
def CodeTree.isLeaf : CodeTree → Bool
  | .leaf _ => true
  | .node _ _ => false

/-- The child a bit leads to, left on 0 and right on 1 (00_scope.md R12). A leaf has none; it stands for itself, a case
no rule reaches (log 14). -/
def CodeTree.child : CodeTree → Bool → CodeTree
  | .leaf s, _ => .leaf s
  | .node l _, false => l
  | .node _ r, true => r

/-- The number of nodes of a tree (00_scope.md R9). -/
def CodeTree.nodes : CodeTree → Nat
  | .leaf _ => 1
  | .node l r => l.nodes + r.nodes + 1

/-- The number of leaves of a tree (00_scope.md R9). -/
def CodeTree.leaves : CodeTree → Nat
  | .leaf _ => 1
  | .node l r => l.leaves + r.leaves

/-- The depth of the deepest leaf (00_scope.md R9). -/
def CodeTree.depth : CodeTree → Nat
  | .leaf _ => 0
  | .node l r => max l.depth r.depth + 1

/-- The leaf symbols from left to right (42_code_table_generator.md R141). -/
def CodeTree.symbols : CodeTree → List Sym
  | .leaf s => [s]
  | .node l r => l.symbols ++ r.symbols

/-- COMPRESS and DECOMPRESS are the composite commands (00_scope.md R19). -/
def Cmd.composite : Cmd → Bool
  | .compress | .decompress => true
  | .count | .build | .gencodes | .wrmagic | .wrtree | .encbody | .rdmagic | .rdtree | .decbody | .rewind | .close
  | .clear => false

/-- The commands that act while `ERR = 1` (30_encoding.md R83). -/
def Cmd.actsOnErr : Cmd → Bool
  | .close | .clear => true
  | .count | .build | .gencodes | .wrmagic | .wrtree | .encbody | .rdmagic | .rdtree | .decbody | .rewind | .compress
  | .decompress => false

/-- Commands that read, rewind or close `IN` (10_state.md R39). -/
def Cmd.touchesIn : Cmd → Bool
  | .count | .encbody | .rdmagic | .rdtree | .decbody | .rewind | .close | .compress | .decompress => true
  | .build | .gencodes | .wrmagic | .wrtree | .clear => false

/-- Commands that write or close `OUT` (10_state.md R39). -/
def Cmd.touchesOut : Cmd → Bool
  | .wrmagic | .wrtree | .encbody | .decbody | .close | .compress | .decompress => true
  | .count | .build | .gencodes | .rdmagic | .rdtree | .rewind | .clear => false

/-- Commands that close the streams (10_state.md R39). -/
def Cmd.closes : Cmd → Bool
  | .close | .compress | .decompress => true
  | .count | .build | .gencodes | .wrmagic | .wrtree | .encbody | .rdmagic | .rdtree | .decbody | .rewind
  | .clear => false

/-- The steps between the end of COUNT and the end of ENCBODY, in which a change of the input has a defined outcome
(20_memory.md R70, 70_reset_and_hazards.md R271, 93 U8). Log 23. -/
def Cmd.betweenPasses : Cmd → Bool
  | .build | .gencodes | .wrmagic | .wrtree | .rewind | .encbody => true
  | .count | .rdmagic | .rdtree | .decbody | .close | .compress | .decompress | .clear => false

namespace Machine

/-- `FREQ[b]` (00_scope.md R13). -/
def freqAt (s : State) (b : Byte) : Count := s.freq[b.toNat]'b.isLt

/-- `FREQ[b] <- v` (00_scope.md R13). -/
def setFreq (s : State) (b : Byte) (v : Count) : State := { s with freq := s.freq.set b.toNat v b.isLt }

/-- `CODE[y]` (00_scope.md R13). -/
def codeAt (s : State) (y : Sym) : Option BitString := s.code[y.val]'y.isLt

/-- The tree a command may use: what `TREE` holds while `TREE_VALID = 1` (10_state.md R30). -/
def validTree (s : State) : Option CodeTree := if s.status.treeValid then s.tree else none

end Machine

end Sys2Proof
end

