-- ==== Sys2Proof/Machine/Ops.lean ====
section
/-! DEFINITION. The shared operations: running an operation to a result, a fault or a refusal; the stream transactions
(20_memory.md R53 to R57); clearing the data (46_stream_control.md R215); accepting and ending a command (30_encoding.md
R80, R83); taking a fault (60_exceptions.md R232) and acknowledging it (46_stream_control.md R213); reset. -/

namespace Sys2Proof.Machine

/-- How a piece of a command ends: with a value, with a fault raised at that point (00_scope.md R15), or without a
result. -/
inductive Res (α : Type) where
  | ok (a : α) (s : State)
  | raised (e : FaultKind) (s : State)
  | refused (r : Refusal)
  deriving DecidableEq, Repr

/-- One piece after another: a fault or a refusal ends it (00_scope.md R15, R16). -/
def Res.bind {α β : Type} (r : Res α) (k : α → State → Res β) : Res β :=
  match r with
  | .ok a s => k a s
  | .raised e s => .raised e s
  | .refused r => .refused r

/-- `require c else raise e` (00_scope.md R15). -/
def require (c : Bool) (e : FaultKind) (s : State) : Res Unit := if c then .ok () s else .raised e s

/-! ### Stream transactions -/

/-- `InRead(w)` (20_memory.md R53, R54): `none` is `EOI`, which discards what is left. Only on an open input (R69). -/
def inRead (w : Nat) (s : State) : Res (Option (BitVec w)) :=
  if s.inp.isOpen then
    if s.inp.pos + w ≤ s.inp.bits.length then
      .ok (some (BitVec.ofNat w (valOf ((s.inp.bits.drop s.inp.pos).take w))))
        { s with inp := { s.inp with pos := s.inp.pos + w } }
    else .ok none { s with inp := { s.inp with pos := s.inp.bits.length } }
  else .refused .inputNotOpen

/-- `OutWrite(w, v)` (20_memory.md R55): appends the low `w` bits of `v`. Only on an open output (R69). -/
def outWrite (w v : Nat) (s : State) : Res Unit :=
  if s.out.bound && !s.out.closed then .ok () { s with out := { s.out with bits := s.out.bits ++ bitsOf w v } }
  else .refused .outputNotOpen

/-- `InRewind()` (20_memory.md R56). Only on an open input (R69). -/
def inRewind (s : State) : Res Unit :=
  if s.inp.isOpen then .ok () { s with inp := { s.inp with pos := 0 } } else .refused .inputNotOpen

/-- The number of pad bits: the fewest that make the length a multiple of 8 (20_memory.md R57). -/
def padLength (len : Nat) : Nat := (8 - len % 8) % 8

/-- The pad bits of the free draw `n` (20_memory.md R57, 93 U1). -/
def padBits (n k : Nat) : BitString := (List.range k).map (Config.padBit n)

/-- The output padded and closed with the free draw `n` (20_memory.md R57). -/
def OutStream.close (o : OutStream) (n : Nat) : OutStream :=
  { o with bits := o.bits ++ padBits n (padLength o.bits.length), closed := true }

/-- `OutClose()` (20_memory.md R57). Only on an open output (R69). -/
def outClose (s : State) : Res Unit :=
  if s.out.bound && !s.out.closed then .ok () { s with out := s.out.close s.draws, draws := s.draws + 1 }
  else .refused .outputNotOpen

/-- `InClose()` releases the input and touches nothing a rule reads (20_memory.md R57). -/
def inClose (s : State) : State := { s with inp := { s.inp with isOpen := false } }

/-- `OutClose(); InClose()` (46_stream_control.md R211). -/
def closeStreams (s : State) : Res Unit := (outClose s).bind fun _ s => .ok () (inClose s)

/-- A bound on the number of reads until `EOI`: every read before it takes a bit. -/
def readFuel (s : State) : Nat := s.inp.bits.length + 1

/-- The loop `v <- InRead(8); if v = EOI: exit loop` around a body (40_frequency_counter.md R110, 44_encoder.md R173).
The number bounds the reads; `readFuel` is never used up (log 20). -/
def eachByte (body : Byte → State → Res Unit) : Nat → State → Res Unit
  | 0, s => .ok () s
  | n + 1, s =>
    (inRead 8 s).bind fun v s =>
      match v with
      | none => .ok () s
      | some b => (body b s).bind fun _ s => eachByte body n s

/-! ### Data state -/

/-- `cleardata` (46_stream_control.md R215). -/
def cleardata (s : State) : State :=
  { clearValid s with
    freq := Vector.replicate 256 0#32, code := Vector.replicate 257 none, tree := none, pq := [], seq := 0#10,
    nnode := 0#10 }

/-! ### Accepting and ending a command -/

/-- The opcode `PHASE` names: that of the running primitive (10_state.md R36). -/
def Phase.opcode : Phase → BitVec 4
  | .idle => 0#4
  | .run _ p => p.opcode

/-- `PHASE` names step `p` of command `c` (10_state.md R34). -/
def atStep (c p : Cmd) (s : State) : State := { s with phase := .run c p }

/-- Acceptance: `BUSY <- 1`, `DONE <- 0` (30_encoding.md R80). -/
def accept (c : Cmd) (s : State) : State :=
  { s with status := { s.status with busy := true, done := false }, phase := .run c c }

/-- The end without a fault: `BUSY <- 0`, `DONE <- 1` (30_encoding.md R80); the traversal stack is empty after every
command (10_state.md R33). -/
def finish (s : State) : State :=
  { s with status := { s.status with busy := false, done := true }, phase := .idle, stack := [] }

/-- Taking a fault (60_exceptions.md R232): `ERRCODE`, `ERRCMD`, `ERR`, `DONE`, `BUSY` and `PHASE`; the traversal stack is
empty after every command (10_state.md R33). -/
def faultEntry (e : FaultKind) (op : BitVec 4) (s : State) : State :=
  { s with
    errcode := e.code, errcmd := op, phase := .idle, stack := [],
    status := { s.status with busy := false, done := true, err := true } }

/-- Acknowledging a fault: what CLEAR does (46_stream_control.md R213, 60_exceptions.md R236). -/
def clearAll (s : State) : State :=
  { cleardata s with
    errcode := 0#4, errcmd := 0#4, phase := .idle, stack := [],
    status := { (cleardata s).status with busy := false, done := false, err := false } }

/-- A command other than CLEAR and CLOSE while `ERR = 1`: it ends at once with `DONE = 1` and no other effect
(30_encoding.md R83). -/
def ignored (s : State) : State := { s with status := { s.status with done := true } }

/-- Whether an offered command runs: while `BUSY = 1` the offer waits (30_encoding.md R80), while `ERR = 1` only the
commands that act on it have an effect (R83). -/
def gate (actsOnErr : Bool) (s : State) (k : State → Host.Outcome State Fault Refusal) :
    Host.Outcome State Fault Refusal :=
  if s.status.busy then .next s
  else if s.status.err && !actsOnErr then .next (ignored s)
  else k s

/-- What follows the last piece of a command. A composite command clears the data at its end; when a step raises a fault
it closes the streams and clears the data first (44_encoder.md R178, R179; 45_decoder.md R198, R199). -/
def unwind (c : Cmd) (r : Res Unit) : Res Unit :=
  match r with
  | .ok _ s => .ok () (if c.composite then cleardata s else s)
  | .raised e s => if c.composite then (closeStreams s).bind fun _ s => .raised e (cleardata s) else .raised e s
  | .refused r => .refused r

/-- The end of a command: finished, or the fault taken with the opcode of the step that raised it (60_exceptions.md
R232). -/
def settle (r : Res Unit) : Host.Outcome State Fault Refusal :=
  match r with
  | .ok _ s => .next (finish s)
  | .raised e s => .next (faultEntry e s.phase.opcode s)
  | .refused r => .refused r

/-- A command from its acceptance to its end. -/
def runCommand (c : Cmd) (body : State → Res Unit) (s : State) : Host.Outcome State Fault Refusal :=
  gate c.actsOnErr s fun s => settle (unwind c (body (accept c s)))

/-- A reserved command word: IllegalCommandError with the word issued in `ERRCMD` (30_encoding.md R82, 60_exceptions.md
R229). -/
def illegalCommand (w : BitVec 4) (s : State) : Host.Outcome State Fault Refusal :=
  gate false s fun s => .next (faultEntry .illegalCommand w s)

/-! ### Reset -/

/-- The block state after reset, the streams untouched (10_state.md R40, 70_reset_and_hazards.md R260, R263). -/
def resetBlock (s : State) : State :=
  { State.reset with inp := s.inp, out := s.out, port := s.port, draws := s.draws }

/-- Where an abandoned command may have left the input: any position, and released or not once the output is closed, since
`InClose` follows `OutClose` (70_reset_and_hazards.md R262, 46_stream_control.md R211, 93 U9). The spec leaves the outcome
open and the draw is the model's: log 7. -/
def cutIn (c : Cmd) (n : Nat) (i : InStream) : InStream :=
  if c.touchesIn && i.isOpen then
    { i with pos := min (Config.cutPos n) i.bits.length, isOpen := !(c.closes && Config.cutClosed n && Config.cutReleased n) }
  else i

/-- What an abandoned command may have left in the output: any extension, closed or not (70_reset_and_hazards.md R262,
93 U9). The spec leaves the outcome open and the draw is the model's: log 7. -/
def cutOut (c : Cmd) (n : Nat) (o : OutStream) : OutStream :=
  if c.touchesOut && o.bound && !o.closed then
    let o := { o with bits := o.bits ++ Config.cutBits n }
    if c.closes && Config.cutClosed n then o.close n else o
  else o

/-- Reset at any time (70_reset_and_hazards.md R260, R262): while a command runs, the streams take a free draw. Log 7. -/
def applyReset (s : State) : State :=
  match s.phase with
  | .idle => resetBlock s
  | .run c _ => { resetBlock s with inp := cutIn c s.draws s.inp, out := cutOut c s.draws s.out, draws := s.draws + 1 }

end Sys2Proof.Machine
end

