-- ==== Sys2Proof/Machine/Builder.lean ====
section
/-! DEFINITION. The tree builder: BUILD (41_tree_builder.md). -/

namespace Sys2Proof.Machine

/-- `PQ` and `SEQ` while BUILD runs (10_state.md R29). -/
structure Queue where
  entries : List Entry
  seq : Ctr10
  deriving DecidableEq, Repr

/-- `PQ.insert((w, SEQ, t)); SEQ <- SEQ + 1` (10_state.md R29). -/
def Queue.insert (q : Queue) (w : Weight) (t : CodeTree) : Queue :=
  { entries := ⟨w, q.seq, t⟩ :: q.entries, seq := q.seq + 1#10 }

/-- The lexicographic order on `(weight, seq)`, both unsigned (10_state.md R29, 41_tree_builder.md R125, R126). -/
def Entry.before (a b : Entry) : Bool :=
  decide (a.weight < b.weight) || (decide (a.weight = b.weight) && decide (a.seq < b.seq))

/-- The least of a list of entries that is not empty, and the others. -/
def leastOf (e : Entry) : List Entry → Entry × List Entry
  | [] => (e, [])
  | x :: xs =>
    if x.before e then ((leastOf x xs).1, e :: (leastOf x xs).2) else ((leastOf e xs).1, x :: (leastOf e xs).2)

/-- `PQ.removeMin()` (10_state.md R29); none on an empty queue, which no rule meets. -/
def removeMin : List Entry → Option (Entry × List Entry)
  | [] => none
  | e :: es => some (leastOf e es)

/-- The leaves of the byte values from `b` on, in ascending order, for the counts above 0 (41_tree_builder.md R120,
R121). -/
def insertLeaves : List Count → Nat → Queue → Queue
  | [], _, q => q
  | c :: cs, b, q => insertLeaves cs (b + 1) (if 0#32 < c then q.insert (c.setWidth 41) (.leaf (Fin.ofNat 257 b)) else q)

/-- The end-of-block leaf of weight 1 (41_tree_builder.md R122). -/
def insertEob (q : Queue) : Queue := q.insert 1#41 (.leaf Config.eob)

/-- The guard: a second end-of-block leaf when the queue holds one entry (41_tree_builder.md R124). -/
def guardQueue (q : Queue) : Queue := if q.entries.length = 1 then insertEob q else q

/-- One pass of the combine loop: first removed left, second removed right, the weights added (41_tree_builder.md R123).
A queue of fewer than two entries stays as it is. -/
def combineOnce (q : Queue) : Queue :=
  match removeMin q.entries with
  | none => q
  | some (a, rest) =>
    match removeMin rest with
    | none => q
    | some (b, rest) => Queue.insert { q with entries := rest } (a.weight + b.weight) (.node a.tree b.tree)

/-- `n` passes of the combine loop. -/
def combine : Nat → Queue → Queue
  | 0, q => q
  | n + 1, q => combine n (combineOnce q)

/-- The queue at the start of the combine loop (41_tree_builder.md R120 to R122, R124). -/
def startQueue (freq : Vector Count 256) : Queue :=
  guardQueue (insertEob (insertLeaves freq.toList 0 { entries := [], seq := 0#10 }))

/-- The queue at the end of the combine loop `while |PQ| > 1`: each pass takes one entry away, so the loop runs one time
fewer than there are entries (41_tree_builder.md R127). -/
def endQueue (freq : Vector Count 256) : Queue :=
  combine ((startQueue freq).entries.length - 1) (startQueue freq)

/-- The tree BUILD makes from a table (41_tree_builder.md R120, R128 g). The queue is never empty, so the last case is
never met. -/
def buildTree (freq : Vector Count 256) : CodeTree :=
  match removeMin (endQueue freq).entries with
  | some (e, _) => e.tree
  | none => .leaf Config.eob

/-- The body of BUILD (41_tree_builder.md R120); `PQ` is empty at its end and `SEQ` keeps its last value. -/
def buildBody (s : State) : Res Unit :=
  (require s.status.freqValid .sequence s).bind fun _ s =>
    .ok () (putTree (buildTree s.freq) { dropTree s with pq := [], seq := (endQueue s.freq).seq })

/-- BUILD, `0x2` (41_tree_builder.md R120). -/
def execBuild (s : State) : Host.Outcome State Fault Refusal := runCommand .build buildBody s

end Sys2Proof.Machine
end

