-- ==== Sys2Proof/Machine/Counter.lean ====
section
/-! DEFINITION. The frequency counter: COUNT (40_frequency_counter.md). -/

namespace Sys2Proof.Machine

/-- `satinc` below a saturation value (40_frequency_counter.md R112). -/
def satInc {w : Nat} (top c : BitVec w) : BitVec w := if c < top then c + 1#w else top

/-- `FREQ[b] <- satinc(FREQ[b])` (40_frequency_counter.md R110). -/
def bumpFreq (b : Byte) (s : State) : State := setFreq s b (satInc Config.cntMax (freqAt s b))

/-- The zeroed table and the cleared flags COUNT starts from (40_frequency_counter.md R110, R116). -/
def countInit (s : State) : State := { clearValid s with freq := Vector.replicate 256 0#32 }

/-- The body of COUNT (40_frequency_counter.md R110, R111). -/
def countBody (s : State) : Res Unit :=
  (eachByte (fun b s => .ok () (bumpFreq b s)) (readFuel s) (countInit s)).bind fun _ s => .ok () (markFreq s)

/-- COUNT, `0x1` (40_frequency_counter.md R110). -/
def execCount (s : State) : Host.Outcome State Fault Refusal := runCommand .count countBody s

end Sys2Proof.Machine
end

