-- ==== Sys2Proof/Machine/CodeGen.lean ====
section
/-! DEFINITION. The code table generator: GENCODES (42_code_table_generator.md). -/

namespace Sys2Proof.Machine

/-- The code table (10_state.md R27). -/
abbrev CodeTable := Vector (Option BitString) 257

/-- `walk(t, path)`: left before right, a record overwrites an earlier one (42_code_table_generator.md R140, R143). -/
def walkCodes : CodeTree → BitString → CodeTable → CodeTable
  | .leaf y, path, table => table.set y.val (some path) y.isLt
  | .node l r, path, table => walkCodes r (path ++ [true]) (walkCodes l (path ++ [false]) table)

/-- The table GENCODES makes from a tree (42_code_table_generator.md R140, R141). -/
def codesOf (t : CodeTree) : CodeTable := walkCodes t [] (Vector.replicate 257 none)

/-- `require TREE_VALID = 1 else raise SequenceError` and then the tree (60_exceptions.md R228). -/
def needTree {α : Type} (s : State) (k : CodeTree → State → Res α) : Res α :=
  match validTree s with
  | none => .raised .sequence s
  | some t => k t s

/-- The body of GENCODES (42_code_table_generator.md R140, R142). -/
def gencodesBody (s : State) : Res Unit :=
  needTree s fun t s =>
    (require (!t.isLeaf) .leafRoot (dropCode s)).bind fun _ s => .ok () (markCode { s with code := codesOf t })

/-- GENCODES, `0x3` (42_code_table_generator.md R140). -/
def execGencodes (s : State) : Host.Outcome State Fault Refusal := runCommand .gencodes gencodesBody s

end Sys2Proof.Machine
end

