-- ==== Sys2Proof/Machine/Decoder.lean ====
section
/-! DEFINITION. The decoder's primitives: RDMAGIC and DECBODY (45_decoder.md R190 to R197). -/

namespace Sys2Proof.Machine

/-- `if v = EOI or v != MAGIC: raise BadMagicError` (45_decoder.md R190, R191). -/
def checkMagic (v : Option (BitVec 32)) (s : State) : Res Unit :=
  if v = some Config.magic then .ok () s else .raised .badMagic s

/-- The body of RDMAGIC (45_decoder.md R190). -/
def rdmagicBody (s : State) : Res Unit := (inRead 32 s).bind fun v s => checkMagic v s

/-- RDMAGIC, `0x7` (45_decoder.md R190). -/
def execRdmagic (s : State) : Host.Outcome State Fault Refusal := runCommand .rdmagic rdmagicBody s

/-- One bit of the body under the tree `root`: `CUR` moves to a child; a leaf ends the loop (true) or is written as a
byte, after which `CUR` is the root again (45_decoder.md R193, R194). -/
def decodeBit (root : CodeTree) (b : Bool) (s : State) : Res Bool :=
  match s.cur.child b with
  | .node l r => .ok false { s with cur := .node l r }
  | .leaf y =>
    if y = Config.eob then .ok true { s with cur := .leaf y }
    else (outWrite 8 y.val { s with cur := .leaf y }).bind fun _ s => .ok false { s with cur := root }

/-- The decode loop (45_decoder.md R193). The number bounds the reads; `readFuel` is never used up (log 20). -/
def decodeLoop (root : CodeTree) : Nat → State → Res Unit
  | 0, s => .raised .truncatedStream s
  | n + 1, s =>
    (inRead 1 s).bind fun b s =>
      match b with
      | none => .raised .truncatedStream s
      | some b => (decodeBit root (b == 1#1) s).bind fun fin s => if fin then .ok () s else decodeLoop root n s

/-- The checks of DECBODY and `CUR <- TREE` (45_decoder.md R193, R195). -/
def decbodyInit (s : State) : Res CodeTree :=
  needTree s fun t s => (require (!t.isLeaf) .leafRoot s).bind fun _ s => .ok t { s with cur := t }

/-- The body of DECBODY (45_decoder.md R193). -/
def decbodyBody (s : State) : Res Unit := (decbodyInit s).bind fun t s => decodeLoop t (readFuel s) s

/-- DECBODY, `0x9` (45_decoder.md R193). -/
def execDecbody (s : State) : Host.Outcome State Fault Refusal := runCommand .decbody decbodyBody s

/-- The decode loop over the bits of one code token, each taken from `IN` (45_decoder.md R193). True when the
end-of-block leaf was reached. -/
def decodeToken (root : CodeTree) : BitString → State → Res Bool
  | [], s => .ok false s
  | b :: bs, s =>
    (inRead 1 s).bind fun v s =>
      match v with
      | none => .raised .truncatedStream s
      | some _ => (decodeBit root b s).bind fun fin s => if fin then .ok true s else decodeToken root bs s

end Sys2Proof.Machine
end

