-- ==== Sys2Proof/Machine/Encoder.lean ====
section
/-! DEFINITION. The encoder's primitives: WRMAGIC and ENCBODY (44_encoder.md R170 to R177). -/

namespace Sys2Proof.Machine

/-- The body of WRMAGIC (44_encoder.md R170). -/
def wrmagicBody (s : State) : Res Unit := outWrite 32 Config.magic.toNat s

/-- WRMAGIC, `0x4` (44_encoder.md R170). -/
def execWrmagic (s : State) : Host.Outcome State Fault Refusal := runCommand .wrmagic wrmagicBody s

/-- The transactions of one code: 32 bits at a time, then the rest (44_encoder.md R173, R175). The number bounds the
transactions by the code's length. -/
def writeCode : Nat → BitString → State → Res Unit
  | 0, _, s => .ok () s
  | _ + 1, [], s => .ok () s
  | n + 1, b :: bs, s =>
    (outWrite (min Config.rwMax (b :: bs).length) (valOf ((b :: bs).take Config.rwMax)) s).bind fun _ s =>
      writeCode n ((b :: bs).drop Config.rwMax) s

/-- `emit(y)` (44_encoder.md R173, R176). -/
def emitSymbol (y : Sym) (s : State) : Res Unit :=
  match codeAt s y with
  | none => .raised .noCode s
  | some c => writeCode c.length c s

/-- The body of ENCBODY (44_encoder.md R173). -/
def encbodyBody (s : State) : Res Unit :=
  (require s.status.codeValid .sequence s).bind fun _ s =>
    (eachByte (fun b s => emitSymbol (symOfByte b) s) (readFuel s) s).bind fun _ s => emitSymbol Config.eob s

/-- One pass of the loop of ENCBODY: the next byte's code, or, at the end of the input, the end-of-block code and the
end (true) (44_encoder.md R173). -/
def encodeNext (s : State) : Res Bool :=
  (inRead 8 s).bind fun v s =>
    match v with
    | none => (emitSymbol Config.eob s).bind fun _ s => .ok true s
    | some b => (emitSymbol (symOfByte b) s).bind fun _ s => .ok false s

/-- ENCBODY, `0x6` (44_encoder.md R173). -/
def execEncbody (s : State) : Host.Outcome State Fault Refusal := runCommand .encbody encbodyBody s

end Sys2Proof.Machine
end

