-- ==== Sys2Proof/Machine/StreamControl.lean ====
section
/-! DEFINITION. Stream control and housekeeping: REWIND, CLOSE, CLEAR (46_stream_control.md), and the two reserved command
words (30_encoding.md R82). -/

namespace Sys2Proof.Machine

/-- REWIND, `0xA` (46_stream_control.md R210). -/
def execRewind (s : State) : Host.Outcome State Fault Refusal := runCommand .rewind inRewind s

/-- CLOSE, `0xB`, which also acts while `ERR = 1` (46_stream_control.md R211). -/
def execClose (s : State) : Host.Outcome State Fault Refusal := runCommand .close closeStreams s

/-- CLEAR, `0xE`, the one command after which `DONE` reads 0 (46_stream_control.md R213). -/
def execClear (s : State) : Host.Outcome State Fault Refusal := gate true s fun s => .next (clearAll s)

/-- The reserved word `0x0` (30_encoding.md R82). -/
def execReserved0 (s : State) : Host.Outcome State Fault Refusal := illegalCommand 0x0#4 s

/-- The reserved word `0xF` (30_encoding.md R82). -/
def execReservedF (s : State) : Host.Outcome State Fault Refusal := illegalCommand 0xF#4 s

end Sys2Proof.Machine
end

