-- ==== Sys2Proof/Machine/TreeCodec.lean ====
section
/-! DEFINITION. The tree codec: WRTREE and RDTREE (43_tree_codec.md). -/

namespace Sys2Proof.Machine

/-! ### The serializer -/

/-- `wr(t)` (43_tree_codec.md R150). -/
def writeTree : CodeTree → State → Res Unit
  | .leaf y, s => (outWrite 1 1 s).bind fun _ s => outWrite 9 y.val s
  | .node l r, s => (outWrite 1 0 s).bind fun _ s => (writeTree l s).bind fun _ s => writeTree r s

/-- The body of WRTREE (43_tree_codec.md R150). -/
def wrtreeBody (s : State) : Res Unit := needTree s fun t s => writeTree t s

/-- WRTREE, `0x5` (43_tree_codec.md R150). -/
def execWrtree (s : State) : Host.Outcome State Fault Refusal := runCommand .wrtree wrtreeBody s

/-! ### The deserializer -/

/-- What one node of a header says. -/
inductive NodeToken where
  | internal
  | leaf (y : Sym)
  deriving DecidableEq, Repr

/-- The marker bit and the node count: `EOI`, then the capacity, then `NNODE <- NNODE + 1` (43_tree_codec.md R154 to R156,
60_exceptions.md R231). -/
def takeMarker (s : State) : Res (BitVec 1) :=
  (inRead 1 s).bind fun m s =>
    match m with
    | none => .raised .truncatedHeader s
    | some m =>
      if s.nnode.toNat = Config.nodeCap then .raised .treeOverflow s else .ok m { s with nnode := s.nnode + 1#10 }

/-- The nine bits of a symbol field (43_tree_codec.md R154, R155). -/
def takeField (s : State) : Res (BitVec 9) :=
  (inRead 9 s).bind fun f s =>
    match f with
    | none => .raised .truncatedHeader s
    | some f => .ok f s

/-- The range of a symbol field, tested after the whole field is read (43_tree_codec.md R157). -/
def checkField (f : BitVec 9) (s : State) : Res Sym :=
  match symOfField f with
  | none => .raised .invalidSymbol s
  | some y => .ok y s

/-- One node of a header (43_tree_codec.md R154). -/
def readNode (s : State) : Res NodeToken :=
  (takeMarker s).bind fun m s =>
    if m = 1#1 then (takeField s).bind fun f s => (checkField f s).bind fun y s => .ok (.leaf y) s
    else .ok .internal s

/-- `rd()` (43_tree_codec.md R154). The number bounds the depth: a node at depth `d` has `NNODE >= d`, so at depth 513 the
node count has already ended the run with TreeOverflowError (log 20). -/
def readTree : Nat → State → Res CodeTree
  | 0, s => (readNode s).bind fun _ s => .raised .treeOverflow s
  | n + 1, s =>
    (readNode s).bind fun k s =>
      match k with
      | .leaf y => .ok (.leaf y) s
      | .internal => (readTree n s).bind fun l s => (readTree n s).bind fun r s => .ok (.node l r) s

/-- `TREE_VALID <- 0; CODE_VALID <- 0; TREE <- none; NNODE <- 0` (43_tree_codec.md R154). -/
def rdtreeInit (s : State) : State := { dropTree s with tree := none, nnode := 0#10, stack := [] }

/-- The body of RDTREE (43_tree_codec.md R154). -/
def rdtreeBody (s : State) : Res Unit :=
  (readTree Config.nodeCap (rdtreeInit s)).bind fun t s => .ok () (putTree t s)

/-- RDTREE, `0x8` (43_tree_codec.md R154). -/
def execRdtree (s : State) : Host.Outcome State Fault Refusal := runCommand .rdtree rdtreeBody s

/-! ### The deserializer with its traversal stack -/

/-- A finished subtree under the pending nodes: it closes every node that waits for a right subtree. The tree when
nothing is pending, and the stack left (10_state.md R33). -/
def plug (t : CodeTree) : List Frame → Option CodeTree × List Frame
  | [] => (some t, [])
  | .left :: k => (none, .right t :: k)
  | .right l :: k => plug (.node l t) k

/-- One node token taken onto the traversal stack; true when the tree is complete, which is then put in `TREE`
(10_state.md R33, 43_tree_codec.md R154). -/
def acceptNode (k : NodeToken) (s : State) : Res Bool :=
  match k with
  | .internal => .ok false { s with stack := .left :: s.stack }
  | .leaf y =>
    match plug (.leaf y) s.stack with
    | (some t, rest) => .ok true (putTree t { s with stack := rest })
    | (none, rest) => .ok false { s with stack := rest }

end Sys2Proof.Machine
end

