-- ==== Sys2Proof/Machine/Composite.lean ====
section
/-! DEFINITION. The composite commands: COMPRESS and DECOMPRESS (44_encoder.md R178, 45_decoder.md R198). -/

namespace Sys2Proof.Machine

/-- The body of a primitive command (00_scope.md R19). CLEAR and the composite commands are no steps of a sequence. -/
def primitiveBody : Cmd → State → Res Unit
  | .count => countBody
  | .build => buildBody
  | .gencodes => gencodesBody
  | .wrmagic => wrmagicBody
  | .wrtree => wrtreeBody
  | .encbody => encbodyBody
  | .rdmagic => rdmagicBody
  | .rdtree => rdtreeBody
  | .decbody => decbodyBody
  | .rewind => inRewind
  | .close => closeStreams
  | .compress | .decompress | .clear => fun s => .ok () s

/-- The steps of a command: the fixed sequence of a composite one, itself for a primitive one (30_encoding.md R98). -/
def stepsOf : Cmd → List Cmd
  | .compress => [.count, .build, .gencodes, .wrmagic, .wrtree, .rewind, .encbody, .close]
  | .decompress => [.rdmagic, .rdtree, .decbody, .close]
  | .clear => []
  | .count => [.count]
  | .build => [.build]
  | .gencodes => [.gencodes]
  | .wrmagic => [.wrmagic]
  | .wrtree => [.wrtree]
  | .encbody => [.encbody]
  | .rdmagic => [.rdmagic]
  | .rdtree => [.rdtree]
  | .decbody => [.decbody]
  | .rewind => [.rewind]
  | .close => [.close]

/-- The steps one after another, each run with `PHASE` naming it (44_encoder.md R178, 45_decoder.md R198). -/
def runSteps (c : Cmd) : List Cmd → State → Res Unit
  | [], s => .ok () s
  | p :: ps, s => (primitiveBody p (atStep c p s)).bind fun _ s => runSteps c ps s

/-- COMPRESS, `0xC` (44_encoder.md R178, R179). -/
def execCompress (s : State) : Host.Outcome State Fault Refusal :=
  runCommand .compress (fun s => runSteps .compress (stepsOf .compress) (cleardata s)) s

/-- DECOMPRESS, `0xD` (45_decoder.md R198, R199). -/
def execDecompress (s : State) : Host.Outcome State Fault Refusal :=
  runCommand .decompress (fun s => runSteps .decompress (stepsOf .decompress) (cleardata s)) s

end Sys2Proof.Machine
end

