-- ==== Sys2Proof/Machine/Sequencer.lean ====
section
/-! DEFINITION. A command watched while it runs: `PHASE` goes through the steps of its sequence (10_state.md R34), a reader
takes one wire token at a time from `IN`, ENCBODY one byte, every other step runs as a whole. Log 1. -/

namespace Sys2Proof.Machine

/-- The step after `p` in a sequence. -/
def stepAfter (p : Cmd) : List Cmd → Option Cmd
  | [] => none
  | q :: qs => if q = p then qs.head? else stepAfter p qs

/-- `PHASE` moves to step `p`, and a reader makes its first assignments (43_tree_codec.md R154, 45_decoder.md R193). -/
def enterStep (c p : Cmd) (s : State) : Res Unit :=
  match p with
  | .rdtree => .ok () (rdtreeInit (atStep c p s))
  | .decbody => (decbodyInit (atStep c p s)).bind fun _ s => .ok () s
  | .count | .build | .gencodes | .wrmagic | .wrtree | .encbody | .rdmagic | .rewind | .close | .compress
  | .decompress | .clear => .ok () (atStep c p s)

/-- What follows a piece of step `p`: on (false) in the same step, or (true) with the next step or the command's end. -/
def turn (c p : Cmd) (r : Res Bool) : Host.Outcome State Fault Refusal :=
  match r with
  | .ok false s => .next s
  | .ok true s =>
    match stepAfter p (stepsOf c) with
    | none => settle (unwind c (.ok () s))
    | some q =>
      match enterStep c q s with
      | .ok _ s => .next s
      | .raised e s => settle (unwind c (.raised e s))
      | .refused r => .refused r
  | .raised e s => settle (unwind c (.raised e s))
  | .refused r => .refused r

/-- A piece of work of step `p`, done while `PHASE` names that step. In any other phase no unit does it, and nothing
happens. -/
def inStep (p : Cmd) (work : State → Res Bool) (s : State) : Host.Outcome State Fault Refusal :=
  match s.phase with
  | .idle => .next s
  | .run c q => if q = p then turn c p (work s) else .next s

/-- The command accepted and its first step entered; CLEAR, the one command without a sequence, acts at once
(30_encoding.md R80, 44_encoder.md R178, 45_decoder.md R198, 46_stream_control.md R213). -/
def startCommand (c : Cmd) (s : State) : Host.Outcome State Fault Refusal :=
  gate c.actsOnErr s fun s =>
    match (stepsOf c).head? with
    | none => execClear s
    | some p =>
      match enterStep c p (if c.composite then cleardata (accept c s) else accept c s) with
      | .ok _ s => .next s
      | .raised e s => settle (unwind c (.raised e s))
      | .refused r => .refused r

/-- The work of the running step when no token is taken: a reader that meets the end of `IN` inside a token goes on to
its fault, ENCBODY encodes its next byte, every other step runs as a whole. -/
def stepWork (p : Cmd) (s : State) : Res Bool :=
  match p with
  | .rdtree => (readNode s).bind fun k s => acceptNode k s
  | .decbody => needTree s fun t s => (decodeLoop t (readFuel s) s).bind fun _ s => .ok true s
  | .rdmagic => (rdmagicBody s).bind fun _ s => .ok true s
  | .encbody => (require s.status.codeValid .sequence s).bind fun _ s => encodeNext s
  | .count | .build | .gencodes | .wrmagic | .wrtree | .rewind | .close | .compress | .decompress | .clear =>
    (primitiveBody p s).bind fun _ s => .ok true s

/-- The running step goes on. -/
def resume (s : State) : Host.Outcome State Fault Refusal :=
  match s.phase with
  | .idle => .next s
  | .run _ p => inStep p (stepWork p) s

/-- What a reader reads the next bits of `IN` as (30_encoding.md R96); a code from `CUR` on. -/
def readerContext (s : State) : Option Context :=
  match s.phase with
  | .run _ .rdmagic => some .magic
  | .run _ .rdtree => some .node
  | .run _ .decbody => some (.code s.cur)
  | .idle | .run _ .count | .run _ .build | .run _ .gencodes | .run _ .wrmagic | .run _ .wrtree | .run _ .encbody
  | .run _ .rewind | .run _ .close | .run _ .compress | .run _ .decompress | .run _ .clear => none

/-- The wire token at `IN.pos` for the reader that runs; none when no reader runs, when the input is not open, or when
its bits end before the token does. -/
def fetchToken (s : State) : Option Instr :=
  match readerContext s with
  | none => none
  | some c =>
    if s.inp.isOpen then
      match decode c (s.inp.bits.drop s.inp.pos) with
      | .ok (i, _) => some i
      | .error _ => none
    else none

end Sys2Proof.Machine
end

