-- ==== Sys2Proof/Machine/Wire.lean ====
section
/-! DEFINITION. The wire tokens: what the unit that reads a token does with it (30_encoding.md R84 to R90). A token met
while no unit reads has no effect: only commands read `IN` (10_state.md R38). Log 10. -/

namespace Sys2Proof.Machine

/-- The magic field, read by RDMAGIC in one 32-bit read (45_decoder.md R190, R191). -/
def execMagic (m : BitVec 32) (s : State) : Host.Outcome State Fault Refusal :=
  inStep .rdmagic (fun s => (inRead 32 s).bind fun v s => (checkMagic (v.map fun _ => m) s).bind fun _ s => .ok true s) s

/-- The token `0`, read by RDTREE (30_encoding.md R86, 43_tree_codec.md R154). -/
def execNodeInt (s : State) : Host.Outcome State Fault Refusal :=
  inStep .rdtree (fun s => (takeMarker s).bind fun _ s => acceptNode .internal s) s

/-- The token `1 sssssssss`, read by RDTREE (30_encoding.md R87, 43_tree_codec.md R154, R157). -/
def execNodeLeaf (f : BitVec 9) (s : State) : Host.Outcome State Fault Refusal :=
  inStep .rdtree
    (fun s =>
      (takeMarker s).bind fun _ s =>
        (takeField s).bind fun _ s => (checkField f s).bind fun y s => acceptNode (.leaf y) s)
    s

/-- The code of a symbol, read bit by bit by DECBODY (30_encoding.md R89, 45_decoder.md R193). -/
def execCode (path : BitString) (s : State) : Host.Outcome State Fault Refusal :=
  inStep .decbody (fun s => needTree s fun t s => decodeToken t path s) s

/-- The pad: nothing reads it, so it has no effect (30_encoding.md R90, 45_decoder.md R196). `OutClose` writes it
(20_memory.md R57). -/
def execPad (_bits : BitString) (s : State) : Host.Outcome State Fault Refusal := .next s

end Sys2Proof.Machine
end

