-- ==== Sys2Proof/Machine/Dispatch.lean ====
section
/-! DEFINITION. One arm for each constructor of Instr. -/

namespace Sys2Proof.Machine

/-- The meaning of an instruction. -/
def exec (i : Instr) (s : State) : Host.Outcome State Fault Refusal :=
  match i with
  | .reserved0 => Sys2Proof.Machine.execReserved0 s
  | .count => Sys2Proof.Machine.execCount s
  | .build => Sys2Proof.Machine.execBuild s
  | .gencodes => Sys2Proof.Machine.execGencodes s
  | .wrmagic => Sys2Proof.Machine.execWrmagic s
  | .wrtree => Sys2Proof.Machine.execWrtree s
  | .encbody => Sys2Proof.Machine.execEncbody s
  | .rdmagic => Sys2Proof.Machine.execRdmagic s
  | .rdtree => Sys2Proof.Machine.execRdtree s
  | .decbody => Sys2Proof.Machine.execDecbody s
  | .rewind => Sys2Proof.Machine.execRewind s
  | .close => Sys2Proof.Machine.execClose s
  | .compress => Sys2Proof.Machine.execCompress s
  | .decompress => Sys2Proof.Machine.execDecompress s
  | .clear => Sys2Proof.Machine.execClear s
  | .reservedF => Sys2Proof.Machine.execReservedF s
  | .magic m => Sys2Proof.Machine.execMagic m s
  | .nodeInt => Sys2Proof.Machine.execNodeInt s
  | .nodeLeaf f => Sys2Proof.Machine.execNodeLeaf f s
  | .code path => Sys2Proof.Machine.execCode path s
  | .pad bits => Sys2Proof.Machine.execPad bits s

end Sys2Proof.Machine
end

