-- ==== Sys2Proof/Machine/Port.lean ====
section
/-! DEFINITION. The host's side of a step: binding streams, offering commands, letting a command run (30_encoding.md R80,
R97; 20_memory.md R69). Log 2. -/

namespace Sys2Proof.Machine

/-- `IN = <bytes>`: a fresh input of whole bytes, open, at its start (20_memory.md R69, 30_encoding.md R97). -/
def bindInput (bytes : List Byte) (s : State) : State :=
  { s with inp := { bits := bitsOfBytes bytes, pos := 0, isOpen := true } }

/-- `OUT = new`: a fresh, empty, open output (20_memory.md R69, 30_encoding.md R97). -/
def bindOutput (s : State) : State := { s with out := { bits := [], closed := false, bound := true } }

/-- The contents of the input changed, the position kept, at the end where the new contents are shorter (20_memory.md
R70). Log 23. -/
def changeInput (bytes : List Byte) (s : State) : State :=
  { s with inp := { s.inp with bits := bitsOfBytes bytes, pos := min s.inp.pos (bitsOfBytes bytes).length } }

/-- Whether the running step is one in which a change of the input has a defined outcome (70_reset_and_hazards.md R271,
93 U8). -/
def Phase.betweenPasses : Phase → Bool
  | .idle => false
  | .run _ p => p.betweenPasses

/-- A command that runs goes on: the token at `IN.pos` is executed, or the running step resumes. -/
def runOn (s : State) : Host.Outcome State Fault Refusal :=
  match fetchToken s with
  | some i => exec i s
  | none => resume s

/-- The host watches the command it issues; a reserved word, which selects no command, is executed at once. -/
def startWord (w : BitVec 4) (s : State) : Host.Outcome State Fault Refusal :=
  match Cmd.ofWord w with
  | some c => startCommand c s
  | none => exec (decodeCommand w) s

/-- What the host does while no command runs. -/
def hostActs (ev : HostEvent) (s : State) : Host.Outcome State Fault Refusal :=
  match ev with
  | .bindIn bytes => .next (bindInput bytes s)
  | .bindOut => .next (bindOutput s)
  | .changeIn bytes => .next (changeInput bytes s)
  | .command w => exec (decodeCommand w) s
  | .start w => startWord w s
  | .wait => .next s
  | .reset => .next (applyReset s)

/-- What the host does while a command runs: an offered command waits (30_encoding.md R80), reset acts at once
(70_reset_and_hazards.md R262). The streams are not the host's to touch (R272, 93 U8: `refuse`; log 9), but a change of the
input between the two passes is defined: what is there is read (R271, 93 U8; log 23). `s` has the event at the head of its
list, `t` has it taken off. -/
def hostActsBusy (ev : HostEvent) (s t : State) : Host.Outcome State Fault Refusal :=
  match ev with
  | .bindIn _ | .bindOut => .refused .streamTouchedWhileBusy
  | .changeIn bytes => if s.phase.betweenPasses then .next (changeInput bytes t) else .refused .streamTouchedWhileBusy
  | .command _ | .start _ => runOn s
  | .wait => runOn t
  | .reset => .next (applyReset t)

/-- A command word offered to the idle block. -/
def offerWord (w : Nat) (s : State) : State :=
  { s with
    port := .command (BitVec.ofNat 4 w) :: s.port, phase := .idle, status := { s.status with busy := false } }

/-- The reader of step `p` running with the bits of a token at `IN.pos`, filled up to whole bytes with zeros. -/
def presentToken (p : Cmd) (token : BitString) (s : State) : State :=
  { rdtreeInit (accept p s) with
    inp :=
      { s.inp with
        bits := s.inp.bits.take s.inp.pos ++ token ++ List.replicate (padLength (s.inp.pos + token.length)) false
        isOpen := true }
    port := .wait :: s.port }

end Sys2Proof.Machine
end

