-- ==== Sys2Proof/Machine/Step.lean ====
section
/-! DEFINITION. One step of the machine, and how a word comes to be its next instruction. -/

namespace Sys2Proof.Machine

/-- One step: what the host does next, or, when it does nothing, the running command goes on; an idle block waits
(70_reset_and_hazards.md R261). -/
def step (s : State) : Host.Outcome State Fault Refusal :=
  match s.port with
  | [] => if s.status.busy then runOn s else .next s
  | ev :: rest =>
    if s.status.busy then hostActsBusy ev s { s with port := rest } else hostActs ev { s with port := rest }

/-- The word of an opcode-table row as the next instruction: a command word is the host's next offer to an idle block, a
wire token stands at `IN.pos` under the reader that reads it. Log 2, log 11. -/
def State.withFetchWord (s : State) (nbits w : Nat) : State :=
  if nbits = 8 ∧ w < 2 ^ 4 then offerWord w s
  else if nbits = 16 ∧ w < 2 ^ 10 then presentToken .rdtree (bitsOf 10 w) s
  else if nbits = 32 ∧ w < 2 ^ 32 then presentToken .rdmagic (bitsOf 32 w) s
  else s

end Sys2Proof.Machine
end

