-- ==== Sys2Proof/Safety.lean ====
section
/-! DEFINITION. The terms claims are made in: when a command can run, the invariant of the machine, and the spec's own
notions about trees, code tables and streams. -/

namespace Sys2Proof

/-- The leaves of a tree from left to right, each with the path that leads to it (10_state.md R27, 42 R141). -/
def CodeTree.paths : CodeTree → List (BitString × Sym)
  | .leaf y => [([], y)]
  | .node l r => l.paths.map (fun q => (false :: q.1, q.2)) ++ r.paths.map (fun q => (true :: q.1, q.2))

/-- The path of the last leaf that holds `y`, none when no leaf does (42_code_table_generator.md R141). -/
def CodeTree.lastPath (t : CodeTree) (y : Sym) : Option BitString :=
  ((t.paths.filter fun q => q.2 = y).getLast?).map (·.1)

/-- What every tree held under `TREE_VALID = 1` satisfies beyond its type: at most 513 nodes (10_state.md R25 c). -/
def CodeTree.bounded (t : CodeTree) : Prop := t.nodes ≤ Config.nodeCap

/-- The bits of `path` lead from the root of `t` to a leaf that holds `y` (10_state.md R28 b). -/
def CodeTree.isCode (t : CodeTree) (path : BitString) (y : Sym) : Prop := t.follow path = some (.leaf y)

/-- The subtrees of a tree, itself included. -/
def CodeTree.subtrees : CodeTree → List CodeTree
  | .leaf y => [.leaf y]
  | .node l r => .node l r :: (l.subtrees ++ r.subtrees)

namespace Machine

/-- The table of counts of an input (40_frequency_counter.md R113). -/
def countsOf (bytes : List Byte) : Vector Count 256 :=
  Vector.ofFn fun b => BitVec.ofNat 32 (min (bytes.count (BitVec.ofNat 8 b.val)) (2 ^ 32 - 1))

/-- The number of leaves BUILD starts its combine loop with: one for each count above 0 and the end-of-block leaf, two when
every count is 0 (41_tree_builder.md R127). -/
def startLeaves (freq : Vector Count 256) : Nat := max 2 (freq.toList.countP (fun c => decide (0#32 < c)) + 1)

/-- The weight of a leaf: the count of its byte, 1 for the end-of-block symbol (41_tree_builder.md R120, R122). -/
def leafWeight (freq : Vector Count 256) (y : Sym) : Nat := if h : y.val < 256 then (freq[y.val]'h).toNat else 1

/-- The weight of a node: the sum of the weights of the leaves under it (41_tree_builder.md R126). -/
def treeWeight (freq : Vector Count 256) (t : CodeTree) : Nat := (t.symbols.map (leafWeight freq)).sum

/-- The code of a symbol in a table, empty when it has none. -/
def codeIn (table : CodeTable) (y : Sym) : BitString := (table[y.val]'y.isLt).getD []

/-- The codes of a byte sequence one after another (44_encoder.md R174). -/
def codesIn (table : CodeTable) (bytes : List Byte) : BitString := bytes.flatMap fun b => codeIn table (symOfByte b)

/-- The two streams are well formed: a whole number of input bytes, a position inside the input, and whole output bytes
once closed (10_state.md R38, 20_memory.md R57). A stream is a list of bits from address 0 on, so equal streams are equal
data. Log 21. -/
def Memory.wf (i : InStream) (o : OutStream) : Bool :=
  decide (i.bits.length % 8 = 0) && decide (i.pos ≤ i.bits.length) && (!o.closed || decide (o.bits.length % 8 = 0))

/-- An output that may be written: bound and not closed (20_memory.md R69). -/
def OutStream.isOpen (o : OutStream) : Bool := o.bound && !o.closed

/-- A command offered now runs: no command is running and no fault is recorded (30_encoding.md R80, R83). -/
def State.ready (s : State) : Prop := s.status.busy = false ∧ s.status.err = false

/-- The bits of `IN` from `IN.pos` on. -/
def State.ahead (s : State) : BitString := s.inp.bits.drop s.inp.pos

/-- The wire token of a node of a header (30_encoding.md R86, R87). -/
def NodeToken.instr : NodeToken → Instr
  | .internal => .nodeInt
  | .leaf y => .nodeLeaf (BitVec.ofNat 9 y.val)

/-- Node tokens one after another as bits. -/
def tokenBits (l : List NodeToken) : BitString := l.flatMap fun k => encode k.instr

/-- No initial part of a list of node tokens is a whole header: each has at most as many leaf tokens as internal ones, where
a tree has one leaf more (00_scope.md R9). -/
def unfinished (l : List NodeToken) : Prop :=
  ∀ k ≤ l.length, (l.take k).countP (fun x => x ≠ .internal) ≤ (l.take k).count .internal

/-- How a composite command ends with a fault raised in state `s` by the step with opcode `op`: both streams closed, the
data cleared, the fault recorded; `CUR` is open after `cleardata` (44_encoder.md R179, 45_decoder.md R199, 93 U6). -/
def State.abortsTo (s : State) (e : FaultKind) (op : BitVec 4) (t : State) : Prop :=
  ∃ pad : BitString, pad.length ≤ 7 ∧ (s.out.bits ++ pad).length % 8 = 0 ∧
    t =
      { s with
        freq := Vector.replicate 256 0#32, tree := none, code := Vector.replicate 257 none, pq := [], seq := 0#10
        nnode := 0#10, stack := [], phase := .idle, cur := t.cur, errcode := e.code, errcmd := op, draws := s.draws + 1
        inp := { s.inp with isOpen := false }, out := { s.out with bits := s.out.bits ++ pad, closed := true }
        status :=
          { busy := false, done := true, err := true, freqValid := false, treeValid := false, codeValid := false } }

/-- The nodes the pending entries of the traversal stack stand for: each an internal node, and its left subtree once
read (10_state.md R33). -/
def stackNodes : List Frame → Nat
  | [] => 0
  | .left :: k => 1 + stackNodes k
  | .right l :: k => 1 + l.nodes + stackNodes k

/-- The invariant of the machine between steps. -/
structure State.Inv (s : State) : Prop where
  /-- the streams are well formed (10_state.md R38) -/
  memory : Memory.wf s.inp s.out = true
  /-- `BUSY` says that a command runs (10_state.md R34, R35) -/
  busy : s.status.busy = true ↔ s.phase ≠ .idle
  /-- `DONE` is 0 while `BUSY = 1` (10_state.md R35) -/
  done : s.status.busy = true → s.status.done = false
  /-- `ERRCODE` and `ERRCMD` are 0 while `ERR = 0` (10_state.md R36) -/
  noError : s.status.err = false → s.errcode = 0#4 ∧ s.errcmd = 0#4
  /-- `ERRCODE` is one of 1 to 9 while `ERR = 1` (60_exceptions.md R220) -/
  error : s.status.err = true → 1 ≤ s.errcode.toNat ∧ s.errcode.toNat ≤ 9
  /-- `TREE_VALID = 1`: `TREE` holds a tree of at most 513 nodes (10_state.md R25, R30) -/
  tree : s.status.treeValid = true → ∃ t, s.tree = some t ∧ t.bounded
  /-- `CODE_VALID = 1`: `CODE` is what GENCODES makes of the tree now in `TREE`, whose root is internal (10_state.md R30) -/
  code : s.status.codeValid = true →
    s.status.treeValid = true ∧ ∃ t, s.tree = some t ∧ t.isLeaf = false ∧ s.code = codesOf t
  /-- `PQ` is empty outside BUILD (10_state.md R29) -/
  queue : s.pq = []
  /-- the traversal stack is empty outside RDTREE (10_state.md R33) -/
  stackEmpty : (∀ c, s.phase ≠ .run c .rdtree) → s.stack = []
  /-- `PHASE` names a step of the running command's sequence (10_state.md R34) -/
  inSequence : ∀ c p, s.phase = .run c p → p ∈ stepsOf c
  /-- only CLOSE runs while `ERR = 1` (30_encoding.md R83) -/
  runsOnError : ∀ c p, s.phase = .run c p → s.status.err = true → c = .close
  /-- while RDTREE runs there is no tree yet, and `NNODE` counts the nodes read (10_state.md R32, 43 R154) -/
  reading : ∀ c, s.phase = .run c .rdtree →
    s.status.treeValid = false ∧ s.status.codeValid = false ∧ s.tree = none ∧
      s.nnode.toNat = stackNodes s.stack ∧ s.nnode.toNat ≤ Config.nodeCap
  /-- while DECBODY runs `CUR` is an internal node of `TREE` (10_state.md R31, 45_decoder.md R194) -/
  decoding : ∀ c, s.phase = .run c .decbody →
    s.status.treeValid = true ∧
      ∃ t path, s.tree = some t ∧ t.isLeaf = false ∧ t.follow path = some s.cur ∧ s.cur.isLeaf = false

/-- A safe step: it has a next state, so it neither stops nor is refused. -/
def State.safeStep (s : State) : Prop := ∃ t, step s = .next t

end Machine

end Sys2Proof
end

