-- ==== Sys2Proof/Certificates/Slice0/Obligations.lean ====
section
/-! DEFINITION. The statements about the model, one `def Obligations.<Name> : Prop` each. The words they use are defined in
Sys2Proof/Safety.lean. -/

open Sys2Proof Sys2Proof.Machine

/-! ### Reset, steps, the command port -/

/-- The value of every element of block state after reset, in an idle block and in the state the machine starts in; `CUR`
is unspecified (10_state.md R40). -/
def Obligations.ResetGivesListedValues : Prop :=
  (∀ (s : State) (rest : List HostEvent), s.port = .reset :: rest → s.status.busy = false → s.phase = .idle →
      ∃ t, step s = .next t ∧ (∀ b, freqAt t b = 0#32) ∧ (∀ y, codeAt t y = none) ∧ t.tree = none ∧ t.pq = [] ∧
        t.seq = 0#10 ∧ t.nnode = 0#10 ∧ t.stack = [] ∧ t.phase = .idle ∧ t.status.word = 0#8 ∧ t.errcode = 0#4 ∧
        t.errcmd = 0#4 ∧ t.inp = s.inp ∧ t.out = s.out ∧ t.port = rest) ∧
    (∀ b, freqAt State.reset b = 0#32) ∧ (∀ y, codeAt State.reset y = none) ∧ State.reset.tree = none ∧
      State.reset.pq = [] ∧ State.reset.seq = 0#10 ∧ State.reset.nnode = 0#10 ∧ State.reset.stack = [] ∧
      State.reset.phase = .idle ∧ State.reset.status.word = 0#8 ∧ State.reset.errcode = 0#4 ∧ State.reset.errcmd = 0#4

/-- Reset while a command runs: the block state is the reset state, `CUR` open; `IN.bits` is untouched, what was written
stays in `OUT`, and the model leaves the rest of the streams free (70_reset_and_hazards.md R262; log 7). -/
def Obligations.ResetAbandonsRunningCommand : Prop :=
  ∀ (s : State) (rest : List HostEvent) (c p : Cmd), s.port = .reset :: rest → s.status.busy = true →
    s.phase = .run c p → Memory.wf s.inp s.out = true →
    ∃ t, step s = .next t ∧
      t = { State.reset with cur := t.cur, inp := t.inp, out := t.out, port := rest, draws := t.draws } ∧
      t.inp.bits = s.inp.bits ∧ t.inp.pos ≤ t.inp.bits.length ∧ s.out.bits <+: t.out.bits ∧
      Memory.wf t.inp t.out = true

/-- The invariant holds at reset. -/
def Obligations.ResetStateMeetsInvariant : Prop := State.reset.Inv

/-- Every step keeps the invariant. -/
def Obligations.StepKeepsInvariant : Prop := ∀ s t : State, s.Inv → step s = .next t → t.Inv

/-- The step of an idle block with a command word at the port is the meaning of that word. -/
def Obligations.StepRunsOfferedCommand : Prop :=
  ∀ (s : State) (w : BitVec 4) (rest : List HostEvent), s.status.busy = false → s.port = .command w :: rest →
    step s = exec (decodeCommand w) { s with port := rest }

/-- The step of a running reader with a whole token at `IN.pos` is the meaning of that token; an offered command waits. -/
def Obligations.StepRunsTokenAtPosition : Prop :=
  ∀ (s : State) (c : Context) (i : Instr) (after : BitString), s.status.busy = true → readerContext s = some c →
    s.inp.isOpen = true → decode c s.ahead = .ok (i, after) →
    (s.port = [] → step s = exec i s) ∧
      (∀ w rest, s.port = .command w :: rest → step s = exec i s) ∧
      (∀ rest, s.port = .wait :: rest → step s = exec i { s with port := rest })

/-- An idle block waits; while a command runs no further command is accepted, the offer waits (30_encoding.md R80,
70_reset_and_hazards.md R261). That the meaning of a word is then the state itself is the model's reading (log 16); that
the offer stays at the head of the port is its choice (log 2). -/
def Obligations.BusyBlockAcceptsNothing : Prop :=
  (∀ s : State, s.status.busy = false → s.port = [] → step s = .next s) ∧
    (∀ (s : State) (w : BitVec 4), s.status.busy = true → exec (decodeCommand w) s = .next s) ∧
    (∀ (s t : State) (w : BitVec 4) (rest : List HostEvent), s.status.busy = true → s.port = .command w :: rest →
      step s = .next t → t.port = .command w :: rest)

/-- A command issued with `start` and run step by step ends in the same outcome as the command run in one step. The watched
form is the model's (log 1). -/
def Obligations.WatchedCommandEndsAlike : Prop :=
  ∀ (s : State) (w : BitVec 4), s.Inv → s.status.busy = false →
    ∃ n, Host.Core.run Sys2Proof.core n { s with port := [.start w] } = exec (decodeCommand w) { s with port := [] }

/-- Every command word offered to a ready block with open streams runs to an end, at which `BUSY = 0` and, for all but
CLEAR, `DONE = 1` (30_encoding.md R80, 70_reset_and_hazards.md R278). -/
def Obligations.EveryCommandRunsToItsEnd : Prop :=
  ∀ (s : State) (w : BitVec 4), s.ready → s.inp.isOpen = true → s.out.isOpen = true →
    ∃ t, exec (decodeCommand w) s = .next t ∧ t.status.busy = false ∧ t.phase = .idle ∧ t.stack = [] ∧
      (t.status.done = true ↔ w ≠ 0xE#4)

/-- The host binds a fresh input at its start and a fresh, empty, open output while no command runs (20_memory.md R69,
30_encoding.md R97), and may change the contents of the input, with no command running or between the two passes
(20_memory.md R70, 70_reset_and_hazards.md R271). Any other touch of a stream while a command runs is refused (R272, 93 U8).
The events are the model's form (log 2), the name of the refusal and the commands it covers its reading (log 9, log 23). -/
def Obligations.HostBindsAndChangesStreams : Prop :=
  ∀ (s : State) (rest : List HostEvent) (bytes : List Byte),
    (s.status.busy = false →
      (s.port = .bindIn bytes :: rest →
          step s = .next { s with port := rest, inp := { bits := bitsOfBytes bytes, pos := 0, isOpen := true } }) ∧
        (s.port = .bindOut :: rest →
          step s = .next { s with port := rest, out := { bits := [], closed := false, bound := true } })) ∧
      (s.port = .changeIn bytes :: rest →
        (s.status.busy = false ∨
          ∃ c p, s.phase = .run c p ∧ p ∈ [Cmd.build, .gencodes, .wrmagic, .wrtree, .rewind, .encbody]) →
        step s =
          .next
            { s with
              port := rest
              inp := { s.inp with bits := bitsOfBytes bytes, pos := min s.inp.pos (8 * bytes.length) } }) ∧
      (s.status.busy = true →
        (s.port = .bindIn bytes :: rest ∨ s.port = .bindOut :: rest ∨
          (s.port = .changeIn bytes :: rest ∧
            ∃ c p, s.phase = .run c p ∧ p ∈ [Cmd.count, .rdmagic, .rdtree, .decbody, .close])) →
        step s = .refused .streamTouchedWhileBusy)

/-- A COMPRESS whose input the host changes after the first pass and before the second: when every byte of the new input was
counted, the stream of the new input under the tree of the old one; otherwise NoCodeError. In both cases both streams are
closed and the command has ended (20_memory.md R70, 70_reset_and_hazards.md R271, 44_encoder.md R176, R179). `k` steps of
the watched command, COUNT among them, run before the change (log 1, log 23). -/
def Obligations.InputChangedBetweenPasses : Prop :=
  ∀ (s : State) (old new : List Byte) (k : Nat), s.ready → s.out.isOpen = true →
    s.inp = { bits := bitsOfBytes old, pos := 0, isOpen := true } → 1 ≤ k → k ≤ 6 →
    ∃ n t,
      Host.Core.run Sys2Proof.core n
          { s with port := .start 0xC#4 :: (List.replicate k HostEvent.wait ++ [.changeIn new]) } = .next t ∧
        t.port = [] ∧ t.status.busy = false ∧ t.status.done = true ∧ t.out.closed = true ∧ t.inp.isOpen = false ∧
        ((∀ b ∈ new, b ∈ old) → t.status.err = false ∧
          ∃ pad : BitString, pad.length ≤ 7 ∧ t.out.bits.length % 8 = 0 ∧
            t.out.bits =
              s.out.bits ++ bitsOf 32 Config.magic.toNat ++ encTree (buildTree (countsOf old)) ++
                codesIn (codesOf (buildTree (countsOf old))) new ++
                codeIn (codesOf (buildTree (countsOf old))) Config.eob ++ pad) ∧
        ((∃ b ∈ new, b ∉ old) → t.status.err = true ∧ t.errcode = 7#4 ∧ t.errcmd = 0x6#4)

/-! ### Encodings -/

/-- Words written out from the opcode map and the wire format (30_encoding.md R81, R87). -/
def Obligations.SpecWordsDecode : Prop :=
  decode .command [false, false, false, true] = .ok (.count, []) ∧
    decode .command [true, true, false, true] = .ok (.decompress, []) ∧
    decode .command [true, false, true, true] = .ok (.close, []) ∧
    decode .node [true, false, false, true, false, false, false, false, false, true] = .ok (.nodeLeaf 65#9, []) ∧
    decode .node [true, true, false, false, false, false, false, false, false, false] = .ok (.nodeLeaf 256#9, []) ∧
    decode .node [false, true] = .ok (.nodeInt, [true])

/-- Decoding what the encoder writes gives the instruction back, whatever bits follow. -/
def Obligations.DecodeEncodeAgree : Prop :=
  ∀ (i : Instr) (c : Context) (after : BitString), i.wellFormed = true → c.admits i →
    decode c (encode i ++ after) = .ok (i, after)

/-- The header of a tree: its length, that it is injective, and that no encoding is a proper part at the start of another
(30_encoding.md R88, 43_tree_codec.md R160). -/
def Obligations.HeaderIsUniquelyParsed : Prop :=
  (∀ (t u : CodeTree) (x y : BitString), encTree t ++ x = encTree u ++ y → t = u ∧ x = y) ∧
    (∀ t : CodeTree, (encTree t).length = 11 * t.leaves - 1 ∧ t.nodes = 2 * t.leaves - 1 ∧ t.depth ≤ t.leaves - 1)

/-- A field is sent most significant bit first, and is seen as the same bits however it is cut (20_memory.md R52, R53, R55,
R68): what `OutWrite` appends is read back by `InRead`, and two writes append the bits of one wider write. -/
def Obligations.FieldsTravelMostSignificantFirst : Prop :=
  (∀ (s t u : State) (w v : Nat) (after : BitString), 1 ≤ w → w ≤ 32 → outWrite w v s = .ok () t →
      u.inp.isOpen = true → u.ahead = t.out.bits.drop s.out.bits.length ++ after →
      ∃ u', inRead w u = .ok (some (BitVec.ofNat w v)) u' ∧ u'.ahead = after) ∧
    (∀ (s t u : State) (a b v x : Nat), 1 ≤ a → 1 ≤ b → a + b ≤ 32 → x < 2 ^ b → outWrite a v s = .ok () t →
      outWrite b x t = .ok () u → outWrite (a + b) (v * 2 ^ b + x) s = .ok () u)

/-! ### The frequency counter -/

/-- COUNT: the table, the position, the flags, and nothing else (40_frequency_counter.md R113; positions and fragments as
R111). -/
def Obligations.CountTabulatesInput : Prop :=
  ∀ (s : State) (bytes : List Byte) (tail : BitString), s.ready → s.inp.isOpen = true →
    s.ahead = bitsOfBytes bytes ++ tail → tail.length < 8 →
    ∃ t, exec .count s = .next t ∧ (∀ b, (freqAt t b).toNat = min (bytes.count b) (2 ^ 32 - 1)) ∧
      (∀ b, 0#32 < freqAt t b ↔ b ∈ bytes) ∧
      t =
        { s with
          freq := t.freq, inp := { s.inp with pos := s.inp.bits.length }, phase := .idle, stack := []
          status :=
            { busy := false, done := true, err := false, freqValid := true, treeValid := false, codeValid := false } }

/-! ### The tree builder -/

/-- BUILD: the tree, `SEQ`, the flags, and nothing else (41_tree_builder.md R120, R127). -/
def Obligations.BuildMakesTree : Prop :=
  ∀ s : State, s.ready → s.status.freqValid = true →
    exec .build s =
      .next
        { s with
          tree := some (buildTree s.freq), pq := [], seq := BitVec.ofNat 10 (2 * startLeaves s.freq - 1), phase := .idle
          stack := []
          status :=
            { busy := false, done := true, err := false, freqValid := true, treeValid := true, codeValid := false } }

/-- What BUILD guarantees of its tree (41_tree_builder.md R128). -/
def Obligations.BuiltTreeGuarantees : Prop :=
  ∀ freq : Vector Count 256,
    (buildTree freq).bounded ∧ (buildTree freq).isLeaf = false ∧
      (∀ b : Byte, (buildTree freq).symbols.count (symOfByte b) = if 0#32 < freq[b.toNat]'b.isLt then 1 else 0) ∧
      (buildTree freq).symbols.count Config.eob = (if (∀ b : Byte, freq[b.toNat]'b.isLt = 0#32) then 2 else 1) ∧
      (buildTree freq).leaves = startLeaves freq ∧ (buildTree freq).nodes = 2 * startLeaves freq - 1 ∧
      2 ≤ startLeaves freq ∧ startLeaves freq ≤ 257 ∧
      (∀ q ∈ (buildTree freq).paths, 1 ≤ q.1.length ∧ q.1.length ≤ startLeaves freq - 1)

/-- In every queue the combine loop meets, no two entries tie in the order on (weight, seq): of two entries exactly one
comes before the other, so the queue's own layout decides nothing. Both entries a pass removes come strictly before all
that stay, and `SEQ` stays above every number given out (10_state.md R29, 41_tree_builder.md R123, R125). -/
def Obligations.QueueOrderIsStrict : Prop :=
  ∀ (freq : Vector Count 256) (n : Nat) (q : Queue), q = combine n (startQueue freq) →
    q.entries.Pairwise (fun a b => (a.weight, a.seq) ≠ (b.weight, b.seq) ∧ a.before b = !b.before a) ∧
      (∀ e ∈ q.entries, e.seq.toNat < q.seq.toNat) ∧ q.seq.toNat ≤ 513 ∧
      ∀ (e : Entry) (rest : List Entry), removeMin q.entries = some (e, rest) →
        q.entries.Perm (e :: rest) ∧ (∀ x ∈ rest, e.before x = true) ∧
          ∀ (f : Entry) (rest' : List Entry), removeMin rest = some (f, rest') →
            rest.Perm (f :: rest') ∧ ∀ x ∈ rest', f.before x = true

/-- Every weight in the queue is the sum of the weights of the leaves under it, so no addition wraps, and weights are
compared as unsigned numbers (41_tree_builder.md R126). -/
def Obligations.WeightsAreExact : Prop :=
  (∀ (freq : Vector Count 256) (n : Nat), ∀ e ∈ (combine n (startQueue freq)).entries,
      e.weight.toNat = treeWeight freq e.tree ∧ treeWeight freq e.tree ≤ 256 * (2 ^ 32 - 1) + 1) ∧
    (∀ a b : Entry, a.weight.toNat < b.weight.toNat → a.before b = true ∧ b.before a = false)

/-- At every internal node of a built tree the left subtree weighs no more than the right one (41_tree_builder.md R123). -/
def Obligations.LeftSubtreeIsNotHeavier : Prop :=
  ∀ (freq : Vector Count 256) (l r : CodeTree), CodeTree.node l r ∈ (buildTree freq).subtrees →
    treeWeight freq l ≤ treeWeight freq r

/-- The trees of a table with no or one count above 0, and their codes (41_tree_builder.md R131, R133;
42_code_table_generator.md R143). -/
def Obligations.TreesOfAtMostOneByte : Prop :=
  (∀ freq : Vector Count 256, (∀ b : Byte, freq[b.toNat]'b.isLt = 0#32) →
      buildTree freq = .node (.leaf 256) (.leaf 256) ∧ (codesOf (buildTree freq))[256] = some [true]) ∧
    (∀ (freq : Vector Count 256) (b : Byte), (∀ c : Byte, c ≠ b → freq[c.toNat]'c.isLt = 0#32) →
      (freq[b.toNat]'b.isLt = 1#32 →
        buildTree freq = .node (.leaf (symOfByte b)) (.leaf 256) ∧
          (codesOf (buildTree freq))[b.toNat]'(by have := b.isLt; omega) = some [false] ∧
          (codesOf (buildTree freq))[256] = some [true]) ∧
      (1#32 < freq[b.toNat]'b.isLt →
        buildTree freq = .node (.leaf 256) (.leaf (symOfByte b)) ∧
          (codesOf (buildTree freq))[b.toNat]'(by have := b.isLt; omega) = some [true] ∧
          (codesOf (buildTree freq))[256] = some [false]))

/-! ### The code table generator -/

/-- GENCODES on a tree with an internal root: each symbol gets the path of its last leaf, or no code
(42_code_table_generator.md R141). -/
def Obligations.GencodesTabulatesPaths : Prop :=
  ∀ (s : State) (t : CodeTree), s.ready → s.status.treeValid = true → s.tree = some t → t.isLeaf = false →
    ∃ u, exec .gencodes s = .next u ∧ (∀ y, codeAt u y = t.lastPath y) ∧
      u =
        { s with
          code := u.code, phase := .idle, stack := []
          status := { s.status with busy := false, done := true, codeValid := true } }

/-- The invariants of a generated code table (10_state.md R28). -/
def Obligations.CodesAreNonemptyPathsAndPrefixFree : Prop :=
  ∀ t : CodeTree, t.isLeaf = false →
    (∀ y : Sym, ((codesOf t)[y.val]'y.isLt ≠ none ↔ y ∈ t.symbols)) ∧
      (∀ (y : Sym) (c : BitString), (codesOf t)[y.val]'y.isLt = some c → t.isCode c y ∧ 1 ≤ c.length) ∧
      (∀ (y z : Sym) (c d : BitString), (codesOf t)[y.val]'y.isLt = some c → (codesOf t)[z.val]'z.isLt = some d →
        c <+: d → y = z)

/-- GENCODES and DECBODY refuse a lone leaf with LeafRootError before any stream is touched; GENCODES leaves `CODE` as it
was and clears `CODE_VALID` (42_code_table_generator.md R142, 45_decoder.md R195). -/
def Obligations.LoneLeafIsRefused : Prop :=
  ∀ (s : State) (y : Sym), s.ready → s.status.treeValid = true → s.tree = some (.leaf y) →
    exec .gencodes s =
        .next
          { s with
            errcode := 6#4, errcmd := 0x3#4, phase := .idle, stack := []
            status := { s.status with busy := false, done := true, err := true, codeValid := false } } ∧
      exec .decbody s =
        .next
          { s with
            errcode := 6#4, errcmd := 0x9#4, phase := .idle, stack := []
            status := { s.status with busy := false, done := true, err := true } }

/-! ### Faults -/

/-- SequenceError: the valid flag a command needs is 0; raised before anything else is changed, with the command's opcode.
It does not occur inside COMPRESS or DECOMPRESS (60_exceptions.md R228). -/
def Obligations.MissingInputIsSequenceError : Prop :=
  ∀ s : State, s.ready →
    (s.status.freqValid = false → exec .build s = .next (faultEntry .sequence 0x2#4 s)) ∧
      (s.status.treeValid = false → exec .gencodes s = .next (faultEntry .sequence 0x3#4 s)) ∧
      (s.status.treeValid = false → exec .wrtree s = .next (faultEntry .sequence 0x5#4 s)) ∧
      (s.status.codeValid = false → exec .encbody s = .next (faultEntry .sequence 0x6#4 s)) ∧
      (s.status.treeValid = false → exec .decbody s = .next (faultEntry .sequence 0x9#4 s)) ∧
      (∀ (i : Instr) (t : State), i = .compress ∨ i = .decompress → exec i s = .next t → t.status.err = true →
        t.errcode ≠ 8#4)

/-- Fault entry writes `ERRCODE`, `ERRCMD`, `ERR`, `DONE`, `BUSY` and `PHASE` and leaves the tables, the other flags and
both streams as they are; the codes are those of the table (60_exceptions.md R220, R230, R232). -/
def Obligations.FaultEntryRecordsCodeAndCommand : Prop :=
  (∀ (e : FaultKind) (op : BitVec 4) (s : State),
      faultEntry e op s =
        { s with
          errcode := e.code, errcmd := op, phase := .idle, stack := []
          status := { s.status with busy := false, done := true, err := true } }) ∧
    [FaultKind.badMagic, .truncatedHeader, .truncatedStream, .invalidSymbol, .treeOverflow, .leafRoot, .noCode,
        .sequence, .illegalCommand].map (fun e => e.code.toNat) = [1, 2, 3, 4, 5, 6, 7, 8, 9]

/-- The reserved command words (30_encoding.md R82, 60_exceptions.md R229). -/
def Obligations.ReservedWordsAreIllegal : Prop :=
  ∀ s : State, s.ready →
    (∀ i w, (i = Instr.reserved0 ∧ w = 0x0#4) ∨ (i = Instr.reservedF ∧ w = 0xF#4) →
      exec i s =
        .next
          { s with
            errcode := 9#4, errcmd := w, phase := .idle, stack := []
            status := { s.status with busy := false, done := true, err := true } })

/-- While `ERR = 1` every command word but those of CLEAR and CLOSE ends at once with `DONE = 1` and no other effect; CLOSE
still closes the streams and leaves the record of the fault, CLEAR takes it away (30_encoding.md R83). -/
def Obligations.CommandsUnderErrorHaveNoEffect : Prop :=
  ∀ s : State, s.status.busy = false → s.status.err = true →
    (∀ w : BitVec 4, w ≠ 0xB#4 → w ≠ 0xE#4 →
        exec (decodeCommand w) s = .next { s with status := { s.status with done := true } }) ∧
      (s.out.isOpen = true →
        ∃ t, exec (decodeCommand 0xB#4) s = .next t ∧ t.out.closed = true ∧ t.inp.isOpen = false ∧
          t.status = { s.status with done := true } ∧ t.errcode = s.errcode ∧ t.errcmd = s.errcmd) ∧
      ∃ t, exec (decodeCommand 0xE#4) s = .next t ∧ t.status.word = 0#8 ∧ t.errcode = 0#4 ∧ t.errcmd = 0#4 ∧
        t.inp = s.inp ∧ t.out = s.out

/-- A recorded fault stays until CLEAR or reset (60_exceptions.md R236). -/
def Obligations.RecordedFaultStays : Prop :=
  ∀ s t : State, s.Inv → s.status.err = true → step s = .next t →
    (∀ rest, s.port ≠ .reset :: rest) →
    (s.status.busy = false → ∀ rest, s.port ≠ .command 0xE#4 :: rest ∧ s.port ≠ .start 0xE#4 :: rest) →
    t.status.err = true ∧ t.errcode = s.errcode ∧ t.errcmd = s.errcmd

/-- The fields of `STATUS` (10_state.md R35). -/
def Obligations.StatusWordLayout : Prop :=
  ∀ f : Status,
    f.word.getLsbD 0 = f.busy ∧ f.word.getLsbD 1 = f.done ∧ f.word.getLsbD 2 = f.err ∧ f.word.getLsbD 3 = f.freqValid ∧
      f.word.getLsbD 4 = f.treeValid ∧ f.word.getLsbD 5 = f.codeValid ∧ f.word.getLsbD 6 = false ∧
      f.word.getLsbD 7 = false

/-- A command that makes a stream transaction on a stream that is not open is refused: the reads and the rewind without an
open `IN`; the writes and the close without an open `OUT`, at the first code for ENCBODY, at the first byte for DECBODY, at
WRMAGIC for COMPRESS and at the latest at the close for DECOMPRESS (20_memory.md R69, 70_reset_and_hazards.md R275). The
names of the refusals are the model's (log 8). -/
def Obligations.ClosedStreamsAreRefused : Prop :=
  (∀ s : State, s.ready → s.inp.isOpen = false →
      exec .count s = .refused .inputNotOpen ∧ exec .rdmagic s = .refused .inputNotOpen ∧
        exec .rdtree s = .refused .inputNotOpen ∧ exec .rewind s = .refused .inputNotOpen ∧
        exec .compress s = .refused .inputNotOpen ∧ exec .decompress s = .refused .inputNotOpen ∧
        (s.status.codeValid = true → exec .encbody s = .refused .inputNotOpen) ∧
        (∀ t, s.status.treeValid = true → s.tree = some t → t.isLeaf = false →
          exec .decbody s = .refused .inputNotOpen)) ∧
    (∀ s : State, s.status.busy = false → s.out.isOpen = false → exec .close s = .refused .outputNotOpen) ∧
    (∀ s : State, s.ready → s.out.isOpen = false →
      exec .wrmagic s = .refused .outputNotOpen ∧
        (∀ t, s.status.treeValid = true → s.tree = some t → exec .wrtree s = .refused .outputNotOpen) ∧
        (s.inp.isOpen = true →
          exec .compress s = .refused .outputNotOpen ∧ exec .decompress s = .refused .outputNotOpen ∧
            (∀ (b : Byte) (after c : BitString), s.status.codeValid = true → s.ahead = bitsOf 8 b.toNat ++ after →
              codeAt s (symOfByte b) = some c → c ≠ [] → exec .encbody s = .refused .outputNotOpen) ∧
            (∀ c : BitString, s.status.codeValid = true → s.ahead.length < 8 → codeAt s Config.eob = some c → c ≠ [] →
              exec .encbody s = .refused .outputNotOpen) ∧
            (∀ (t : CodeTree) (path : BitString) (b : Byte) (after : BitString), s.status.treeValid = true →
              s.tree = some t → t.isLeaf = false → t.isCode path (symOfByte b) → s.ahead = path ++ after →
              exec .decbody s = .refused .outputNotOpen)))

/-! ### The tree codec -/

/-- WRTREE appends exactly the header of the tree, `11n - 1` bits for `n` leaves (43_tree_codec.md R151). -/
def Obligations.WrtreeAppendsHeader : Prop :=
  ∀ (s : State) (t : CodeTree), s.ready → s.out.isOpen = true → s.status.treeValid = true → s.tree = some t →
    (encTree t).length = 11 * t.leaves - 1 ∧
      exec .wrtree s =
        .next
          { s with
            out := { s.out with bits := s.out.bits ++ encTree t }, phase := .idle, stack := []
            status := { s.status with busy := false, done := true } }

/-- RDTREE on a header: the tree, exactly its bits, the node count, the flags, and nothing else (43_tree_codec.md R154,
R158). -/
def Obligations.RdtreeReadsHeader : Prop :=
  ∀ (s : State) (t : CodeTree) (after : BitString), s.ready → s.inp.isOpen = true → s.ahead = encTree t ++ after →
    t.bounded →
    exec .rdtree s =
      .next
        { s with
          tree := some t, nnode := BitVec.ofNat 10 t.nodes, phase := .idle, stack := []
          inp := { s.inp with pos := s.inp.pos + (encTree t).length }
          status := { s.status with busy := false, done := true, treeValid := true, codeValid := false } }

/-- RDTREE on bits that end after any node tokens that are no whole header yet: TruncatedHeaderError, and no tree, where a
marker is due, and where a symbol field is cut short, whatever bits of it are there, since `EOI` is tested before the range
of the symbol (43_tree_codec.md R155, R157; 60_exceptions.md R231). -/
def Obligations.RdtreeMeetsEndOfInput : Prop :=
  ∀ (s : State) (l : List NodeToken), s.ready → s.inp.isOpen = true → unfinished l →
    ((l.length ≤ 513 ∧ s.ahead = tokenBits l) ∨
      (l.length < 513 ∧ ∃ part : BitString, part.length < 9 ∧ s.ahead = tokenBits l ++ true :: part)) →
    ∃ u, exec .rdtree s = .next u ∧
      u =
        { s with
          tree := none, nnode := u.nnode, errcode := 2#4, errcmd := 0x8#4, phase := .idle, stack := []
          inp := { s.inp with pos := s.inp.bits.length }
          status :=
            { s.status with busy := false, done := true, err := true, treeValid := false, codeValid := false } }

/-- RDTREE inside a header, after any node tokens that are no whole header yet: a 514th node marker, `0` or `1`, is
TreeOverflowError one past the marker; a symbol field of 257 to 511 is InvalidSymbolError one past the field
(43_tree_codec.md R156, R157). -/
def Obligations.RdtreeStopsAtOverflowOrBadSymbol : Prop :=
  ∀ (s : State) (l : List NodeToken) (after : BitString), s.ready → s.inp.isOpen = true → unfinished l →
    (∀ marker : Bool, l.length = 513 → s.ahead = tokenBits l ++ marker :: after →
        exec .rdtree s =
          .next
            { s with
              tree := none, nnode := 513#10, errcode := 5#4, errcmd := 0x8#4, phase := .idle, stack := []
              inp := { s.inp with pos := s.inp.pos + (tokenBits l).length + 1 }
              status :=
                { s.status with busy := false, done := true, err := true, treeValid := false, codeValid := false } }) ∧
      (∀ f : BitVec 9, l.length < 513 → 256 < f.toNat → s.ahead = tokenBits l ++ encode (.nodeLeaf f) ++ after →
        exec .rdtree s =
          .next
            { s with
              tree := none, nnode := BitVec.ofNat 10 (l.length + 1), errcode := 4#4, errcmd := 0x8#4, phase := .idle
              stack := [], inp := { s.inp with pos := s.inp.pos + (tokenBits l).length + 10 }
              status :=
                { s.status with busy := false, done := true, err := true, treeValid := false, codeValid := false } })

/-- RDTREE ends with the one tree whose header stands ahead, of at most 513 nodes, and takes exactly its bits; or with one of
its three faults, no tree and `TREE_VALID = 0`; no other state changes (43_tree_codec.md R154, R158). -/
def Obligations.RdtreeEndsWithTreeOrFault : Prop :=
  ∀ s : State, s.ready → s.inp.isOpen = true →
    ∃ u, exec .rdtree s = .next u ∧ u.status.codeValid = false ∧
      u =
        { s with
          tree := u.tree, nnode := u.nnode, inp := { s.inp with pos := u.inp.pos }, phase := .idle, stack := []
          errcode := u.errcode, errcmd := u.errcmd
          status :=
            { s.status with
              busy := false, done := true, err := u.status.err, treeValid := u.status.treeValid, codeValid := false } } ∧
      ((∃ t, u.tree = some t ∧ t.bounded ∧ encTree t <+: s.ahead ∧ (∀ t', encTree t' <+: s.ahead → t' = t) ∧
          u.inp.pos = s.inp.pos + (encTree t).length ∧ u.status.treeValid = true ∧ u.status.err = false ∧
          u.errcode = s.errcode ∧ u.errcmd = s.errcmd) ∨
        (u.tree = none ∧ u.status.treeValid = false ∧ u.status.err = true ∧ u.errcmd = 0x8#4 ∧
          (u.errcode = 2#4 ∨ u.errcode = 4#4 ∨ u.errcode = 5#4)))

/-- Header self-description: what WRTREE appends for a tree, presented to RDTREE, gives the same tree and takes exactly
those bits (43_tree_codec.md R161). -/
def Obligations.HeaderDescribesItsTree : Prop :=
  ∀ (s t u : State) (tree : CodeTree) (after : BitString), s.ready → s.status.treeValid = true → s.tree = some tree →
    tree.bounded → exec .wrtree s = .next t → u.ready → u.inp.isOpen = true →
    u.ahead = t.out.bits.drop s.out.bits.length ++ after →
    ∃ v, exec .rdtree u = .next v ∧ v.tree = some tree ∧ v.status.treeValid = true ∧ v.status.err = false ∧
      v.ahead = after

/-! ### The encoder -/

/-- WRMAGIC appends the 32 bits of the magic (44_encoder.md R170). -/
def Obligations.WrmagicAppendsMagic : Prop :=
  ∀ s : State, s.ready → s.out.isOpen = true →
    exec .wrmagic s =
      .next
        { s with
          out := { s.out with bits := s.out.bits ++ bitsOf 32 Config.magic.toNat }, phase := .idle, stack := []
          status := { s.status with busy := false, done := true } }

/-- ENCBODY when every byte ahead and the end-of-block symbol have a code of any length: the codes in order, then the
end-of-block code (44_encoder.md R174, R175). -/
def Obligations.EncbodyAppendsCodes : Prop :=
  ∀ (s : State) (bytes : List Byte) (tail : BitString), s.ready → s.inp.isOpen = true → s.out.isOpen = true →
    s.status.codeValid = true → s.ahead = bitsOfBytes bytes ++ tail → tail.length < 8 →
    (∀ b ∈ bytes, codeAt s (symOfByte b) ≠ none) → codeAt s Config.eob ≠ none →
    exec .encbody s =
      .next
        { s with
          out := { s.out with bits := s.out.bits ++ codesIn s.code bytes ++ codeIn s.code Config.eob }
          inp := { s.inp with pos := s.inp.bits.length }, phase := .idle, stack := []
          status := { s.status with busy := false, done := true } }

/-- ENCBODY at a byte without a code, or at the end when the end-of-block symbol has none: the codes before are written,
NoCodeError is raised and nothing more is written (44_encoder.md R176). -/
def Obligations.EncbodyStopsAtMissingCode : Prop :=
  ∀ (s : State) (bytes : List Byte), s.ready → s.inp.isOpen = true → s.out.isOpen = true → s.status.codeValid = true →
    (∀ x ∈ bytes, codeAt s (symOfByte x) ≠ none) →
    (∀ (b : Byte) (after : BitString), s.ahead = bitsOfBytes bytes ++ bitsOf 8 b.toNat ++ after →
        codeAt s (symOfByte b) = none →
        exec .encbody s =
          .next
            { s with
              out := { s.out with bits := s.out.bits ++ codesIn s.code bytes }
              inp := { s.inp with pos := s.inp.pos + 8 * (bytes.length + 1) }, phase := .idle, stack := []
              errcode := 7#4, errcmd := 0x6#4
              status := { s.status with busy := false, done := true, err := true } }) ∧
      (∀ tail : BitString, s.ahead = bitsOfBytes bytes ++ tail → tail.length < 8 → codeAt s Config.eob = none →
        exec .encbody s =
          .next
            { s with
              out := { s.out with bits := s.out.bits ++ codesIn s.code bytes }
              inp := { s.inp with pos := s.inp.bits.length }, phase := .idle, stack := []
              errcode := 7#4, errcmd := 0x6#4
              status := { s.status with busy := false, done := true, err := true } })

/-- COMPRESS from a fresh input never faults, and writes the magic, the header of the tree BUILD makes of the counts, the
codes, the end-of-block code and the fewest pad bits to a byte (44_encoder.md R180, R181; 20_memory.md R57). `CUR` is open
after `cleardata` (93 U6). -/
def Obligations.CompressWritesStream : Prop :=
  ∀ (s : State) (bytes : List Byte), s.ready → s.inp = { bits := bitsOfBytes bytes, pos := 0, isOpen := true } →
    s.out.isOpen = true →
    ∃ pad : BitString, pad.length ≤ 7 ∧
      (s.out.bits ++ bitsOf 32 Config.magic.toNat ++ encTree (buildTree (countsOf bytes)) ++
          codesIn (codesOf (buildTree (countsOf bytes))) bytes ++
          codeIn (codesOf (buildTree (countsOf bytes))) Config.eob ++ pad).length % 8 = 0 ∧
      ∃ t, exec .compress s = .next t ∧
        t =
          { s with
            cur := t.cur, freq := Vector.replicate 256 0#32, tree := none, code := Vector.replicate 257 none
            pq := [], seq := 0#10, nnode := 0#10, phase := .idle, stack := [], draws := s.draws + 1
            inp := { bits := bitsOfBytes bytes, pos := (bitsOfBytes bytes).length, isOpen := false }
            out :=
              { s.out with
                closed := true
                bits :=
                  s.out.bits ++ bitsOf 32 Config.magic.toNat ++ encTree (buildTree (countsOf bytes)) ++
                    codesIn (codesOf (buildTree (countsOf bytes))) bytes ++
                    codeIn (codesOf (buildTree (countsOf bytes))) Config.eob ++ pad }
            status :=
              { busy := false, done := true, err := false, freqValid := false, treeValid := false
                codeValid := false } }

/-- COMPRESS of the empty input (44_encoder.md R182): the magic, the header of the guard tree, the bit 1, two pad bits. -/
def Obligations.CompressOfNothing : Prop :=
  ∀ s : State, s.ready → s.inp = { bits := [], pos := 0, isOpen := true } → s.out.isOpen = true → s.out.bits = [] →
    ∃ t, ∃ p q : Bool, exec .compress s = .next t ∧ t.status.err = false ∧ t.out.closed = true ∧
      t.out.bits =
        bitsOf 32 Config.magic.toNat ++
          [false, true, true, false, false, false, false, false, false, false, false,
            true, true, false, false, false, false, false, false, false, false] ++ [true] ++ [p, q]

/-! ### The decoder -/

/-- RDMAGIC: success on the magic, BadMagicError on any other 32 bits and on fewer (45_decoder.md R190, R191). -/
def Obligations.RdmagicChecksMagic : Prop :=
  ∀ s : State, s.ready → s.inp.isOpen = true →
    (∀ after, s.ahead = bitsOf 32 Config.magic.toNat ++ after →
        exec .rdmagic s =
          .next
            { s with
              inp := { s.inp with pos := s.inp.pos + 32 }, phase := .idle, stack := []
              status := { s.status with busy := false, done := true } }) ∧
      (∀ (m : BitVec 32) (after : BitString), m ≠ Config.magic → s.ahead = bitsOf 32 m.toNat ++ after →
        exec .rdmagic s = .next (faultEntry .badMagic 0x7#4 { s with inp := { s.inp with pos := s.inp.pos + 32 } })) ∧
      (s.ahead.length < 32 →
        exec .rdmagic s =
          .next (faultEntry .badMagic 0x7#4 { s with inp := { s.inp with pos := s.inp.bits.length } }))

/-- DECBODY on codes ended by an end-of-block code: the bytes in order, and no bit read after it (45_decoder.md R196,
R197). `CUR` is not live after the command and is left open (10_state.md R31). -/
def Obligations.DecbodyWritesBytes : Prop :=
  ∀ (s : State) (t : CodeTree) (items : List (BitString × Byte)) (e after : BitString), s.ready → s.inp.isOpen = true →
    s.out.isOpen = true → s.status.treeValid = true → s.tree = some t → t.isLeaf = false →
    (∀ q ∈ items, t.isCode q.1 (symOfByte q.2)) → t.isCode e Config.eob →
    s.ahead = items.flatMap (·.1) ++ e ++ after →
    ∃ u, exec .decbody s = .next u ∧
      u =
        { s with
          out := { s.out with bits := s.out.bits ++ bitsOfBytes (items.map (·.2)) }
          inp := { s.inp with pos := s.inp.pos + (items.flatMap (·.1) ++ e).length }, cur := u.cur
          phase := .idle, stack := [], status := { s.status with busy := false, done := true } }

/-- DECBODY on bits that run out before an end-of-block code: the bytes of the complete codes are written, then
TruncatedStreamError (45_decoder.md R194, R197). `CUR` is not live after the command and is left open (10_state.md R31). -/
def Obligations.DecbodyMeetsEndOfInput : Prop :=
  ∀ (s : State) (t sub : CodeTree) (items : List (BitString × Byte)) (part : BitString), s.ready → s.inp.isOpen = true →
    s.out.isOpen = true → s.inp.pos ≤ s.inp.bits.length → s.status.treeValid = true → s.tree = some t →
    t.isLeaf = false → (∀ q ∈ items, t.isCode q.1 (symOfByte q.2)) → t.follow part = some sub → sub.isLeaf = false →
    s.ahead = items.flatMap (·.1) ++ part →
    ∃ u, exec .decbody s = .next u ∧
      u =
        faultEntry .truncatedStream 0x9#4
          { s with
            out := { s.out with bits := s.out.bits ++ bitsOfBytes (items.map (·.2)) }
            inp := { s.inp with pos := s.inp.bits.length }, cur := u.cur }

/-- DECOMPRESS on a stream in the wire format: the bytes, both streams closed, the data cleared (45_decoder.md R198). `CUR`
is open after `cleardata` (93 U6). -/
def Obligations.DecompressReadsStream : Prop :=
  ∀ (s : State) (t : CodeTree) (items : List (BitString × Byte)) (e after : BitString), s.ready → s.inp.isOpen = true →
    s.out.isOpen = true → s.out.bits = [] → t.bounded → t.isLeaf = false →
    (∀ q ∈ items, t.isCode q.1 (symOfByte q.2)) → t.isCode e Config.eob →
    s.ahead = bitsOf 32 Config.magic.toNat ++ encTree t ++ items.flatMap (·.1) ++ e ++ after →
    ∃ u, exec .decompress s = .next u ∧
      u =
        { s with
          freq := Vector.replicate 256 0#32, tree := none, code := Vector.replicate 257 none, pq := [], seq := 0#10
          nnode := 0#10, cur := u.cur, phase := .idle, stack := [], draws := s.draws + 1
          inp :=
            { s.inp with
              pos := s.inp.pos + 32 + (encTree t).length + (items.flatMap (·.1)).length + e.length, isOpen := false }
          out := { s.out with bits := bitsOfBytes (items.map (·.2)), closed := true }
          status :=
            { busy := false, done := true, err := false, freqValid := false, treeValid := false, codeValid := false } }

/-- However COMPRESS and DECOMPRESS end, both streams are closed, the data is cleared, and on a fault `ERRCODE` and `ERRCMD`
are those of the step that raised it (44_encoder.md R179, 45_decoder.md R199). COMPRESS keeps what it wrote, padded to
whole bytes; its one fault is NoCodeError from ENCBODY, met exactly when a byte before the starting position, which COUNT
does not read, is none of those after it (R181, 70_reset_and_hazards.md R274). -/
def Obligations.CompositeCommandsCloseOnEveryExit : Prop :=
  (∀ s : State, s.ready → s.inp.isOpen = true → s.out.isOpen = true → s.out.bits = [] →
      ∃ t, exec .decompress s = .next t ∧ t.out.closed = true ∧ t.inp.isOpen = false ∧ (∃ bytes, t.out.bits = bitsOfBytes bytes) ∧
        (∀ b, freqAt t b = 0#32) ∧ (∀ y, codeAt t y = none) ∧ t.tree = none ∧ t.status.freqValid = false ∧
        t.status.treeValid = false ∧ t.status.codeValid = false ∧ t.status.busy = false ∧ t.status.done = true ∧
        ((t.status.err = false ∧ t.errcode = s.errcode ∧ t.errcmd = s.errcmd) ∨
          (t.status.err = true ∧
            (t.errcode, t.errcmd) ∈
              [(1#4, 0x7#4), (2#4, 0x8#4), (5#4, 0x8#4), (4#4, 0x8#4), (6#4, 0x9#4), (3#4, 0x9#4)])) ∧
        ((t.errcode = 1#4 ∨ t.errcmd = 0x8#4 ∨ t.errcode = 6#4) → t.status.err = true → t.out.bits = [])) ∧
    (∀ s : State, s.ready → s.inp.isOpen = true → s.out.isOpen = true →
      ∃ t, exec .compress s = .next t ∧ t.out.closed = true ∧ t.inp.isOpen = false ∧ t.out.bits.length % 8 = 0 ∧
        s.out.bits ++ bitsOf 32 Config.magic.toNat <+: t.out.bits ∧ (∀ b, freqAt t b = 0#32) ∧
        (∀ y, codeAt t y = none) ∧ t.tree = none ∧ t.status.freqValid = false ∧ t.status.treeValid = false ∧
        t.status.codeValid = false ∧ t.status.busy = false ∧ t.status.done = true ∧
        ((t.status.err = false ∧ t.errcode = s.errcode ∧ t.errcmd = s.errcmd) ∨
          (t.status.err = true ∧ t.errcode = 7#4 ∧ t.errcmd = 0x6#4))) ∧
    (∀ (s : State) (missed bytes : List Byte), s.ready → s.out.isOpen = true →
      s.inp = { bits := bitsOfBytes (missed ++ bytes), pos := 8 * missed.length, isOpen := true } →
      ∃ t, exec .compress s = .next t ∧ (t.status.err = true ↔ ∃ b ∈ missed, b ∉ bytes))

/-- Decompressing what COMPRESS wrote, whatever the pad and whatever whole bytes follow, gives the input back, bit for bit
(45_decoder.md R200). -/
def Obligations.DecompressInvertsCompress : Prop :=
  ∀ (s t u : State) (bytes : List Byte) (after : BitString), s.ready →
    s.inp = { bits := bitsOfBytes bytes, pos := 0, isOpen := true } → s.out.isOpen = true → s.out.bits = [] →
    exec .compress s = .next t → u.ready → u.inp = { bits := t.out.bits ++ after, pos := 0, isOpen := true } →
    u.out.isOpen = true → u.out.bits = [] →
    ∃ v, exec .decompress u = .next v ∧ v.out.bits = bitsOfBytes bytes ∧ v.out.closed = true ∧ v.status.err = false

/-- The outcome of a composite command does not depend on what an earlier invocation left in the tables
(10_state.md R42). -/
def Obligations.InvocationsShareNothing : Prop :=
  ∀ (s t s' : State) (i : Instr), i = .compress ∨ i = .decompress → s.ready → t.ready → s.inp = t.inp → s.out = t.out →
    s.port = t.port → s.draws = t.draws → s.errcode = t.errcode → s.errcmd = t.errcmd → exec i s = .next s' →
    ∃ t', exec i t = .next t' ∧ t' = { s' with cur := t'.cur }

/-! ### Stream control and housekeeping -/

/-- REWIND (46_stream_control.md R210). -/
def Obligations.RewindReturnsToStart : Prop :=
  ∀ s : State, s.ready → s.inp.isOpen = true →
    exec .rewind s =
      .next
        { s with
          inp := { s.inp with pos := 0 }, phase := .idle, stack := []
          status := { s.status with busy := false, done := true } }

/-- CLOSE, with or without a recorded fault: the fewest pad bits to a byte, both streams closed, and nothing else
(46_stream_control.md R211, 20_memory.md R57). -/
def Obligations.ClosePadsAndCloses : Prop :=
  ∀ s : State, s.status.busy = false → s.out.isOpen = true →
    ∃ pad : BitString, pad.length ≤ 7 ∧ (s.out.bits ++ pad).length % 8 = 0 ∧
      exec .close s =
        .next
          { s with
            out := { s.out with bits := s.out.bits ++ pad, closed := true }, inp := { s.inp with isOpen := false }
            draws := s.draws + 1, phase := .idle, stack := []
            status := { s.status with busy := false, done := true } }

/-- CLEAR, with or without a recorded fault: every element of block state at its reset value, the streams untouched
(46_stream_control.md R213, R215). `CUR`, whose reset value is unspecified (10_state.md R40), is left open. -/
def Obligations.ClearGivesResetValues : Prop :=
  ∀ s : State, s.status.busy = false →
    ∃ t, exec .clear s = .next t ∧
      t = { State.reset with cur := t.cur, inp := s.inp, out := s.out, port := s.port, draws := s.draws }

/-! ### The wire tokens -/

/-- The token `0` under RDTREE: a node is counted, one bit taken, an internal node pending; or, at the node cap,
TreeOverflowError, which inside DECOMPRESS closes the streams and clears the data first (30_encoding.md R86,
43_tree_codec.md R154, R156; 45_decoder.md R199). -/
def Obligations.InternalNodeToken : Prop :=
  ∀ (s : State) (c : Cmd), s.phase = .run c .rdtree → s.inp.isOpen = true → s.inp.pos < s.inp.bits.length →
    (s.nnode.toNat < 513 →
        exec .nodeInt s =
          .next
            { s with
              inp := { s.inp with pos := s.inp.pos + 1 }, nnode := s.nnode + 1#10, stack := .left :: s.stack }) ∧
      (s.nnode.toNat = 513 → c = .rdtree →
        exec .nodeInt s = .next (faultEntry .treeOverflow 0x8#4 { s with inp := { s.inp with pos := s.inp.pos + 1 } })) ∧
      (s.nnode.toNat = 513 → c = .decompress → s.out.isOpen = true →
        ∃ t, exec .nodeInt s = .next t ∧
          State.abortsTo { s with inp := { s.inp with pos := s.inp.pos + 1 } } .treeOverflow 0x8#4 t)

/-- The token `1 sssssssss` under RDTREE: ten bits are taken and a node is counted. The leaf closes every pending node that
waits for its right subtree; the subtree so made fills the left place of the next pending node, or is the whole tree, which
ends RDTREE or leads DECOMPRESS on to DECBODY, with LeafRootError when the tree is the leaf alone. A field of 257 to 511 is
InvalidSymbolError, a token at the node cap TreeOverflowError one past its marker; inside DECOMPRESS a fault closes the
streams and clears the data first (30_encoding.md R87; 43_tree_codec.md R154, R156, R157; 45_decoder.md R195, R198,
R199). -/
def Obligations.LeafToken : Prop :=
  ∀ (s : State) (c : Cmd) (f : BitVec 9), s.phase = .run c .rdtree → s.inp.isOpen = true →
    s.inp.pos + 10 ≤ s.inp.bits.length →
    (s.nnode.toNat < 513 →
      (∀ (y : Sym) (done : List CodeTree) (k : List Frame), f.toNat = y.val →
          s.stack = done.map Frame.right ++ .left :: k →
          exec (.nodeLeaf f) s =
            .next
              { s with
                inp := { s.inp with pos := s.inp.pos + 10 }, nnode := s.nnode + 1#10
                stack := .right (done.foldl (fun t l => .node l t) (.leaf y)) :: k }) ∧
        (∀ (y : Sym) (done : List CodeTree), f.toNat = y.val → s.stack = done.map Frame.right → c = .rdtree →
          exec (.nodeLeaf f) s =
            .next
              { s with
                inp := { s.inp with pos := s.inp.pos + 10 }, nnode := s.nnode + 1#10, stack := []
                tree := some (done.foldl (fun t l => .node l t) (.leaf y)), phase := .idle
                status := { s.status with busy := false, done := true, treeValid := true } }) ∧
        (∀ (y : Sym) (done : List CodeTree), f.toNat = y.val → done ≠ [] → s.stack = done.map Frame.right →
          c = .decompress →
          exec (.nodeLeaf f) s =
            .next
              { s with
                inp := { s.inp with pos := s.inp.pos + 10 }, nnode := s.nnode + 1#10, stack := []
                tree := some (done.foldl (fun t l => .node l t) (.leaf y))
                cur := done.foldl (fun t l => .node l t) (.leaf y), phase := .run .decompress .decbody
                status := { s.status with treeValid := true } }) ∧
        (f.toNat ≤ 256 → s.stack = [] → c = .decompress → s.out.isOpen = true →
          ∃ t, exec (.nodeLeaf f) s = .next t ∧
            State.abortsTo { s with inp := { s.inp with pos := s.inp.pos + 10 } } .leafRoot 0x9#4 t) ∧
        (256 < f.toNat → c = .rdtree →
          exec (.nodeLeaf f) s =
            .next
              (faultEntry .invalidSymbol 0x8#4
                { s with inp := { s.inp with pos := s.inp.pos + 10 }, nnode := s.nnode + 1#10 })) ∧
        (256 < f.toNat → c = .decompress → s.out.isOpen = true →
          ∃ t, exec (.nodeLeaf f) s = .next t ∧
            State.abortsTo { s with inp := { s.inp with pos := s.inp.pos + 10 } } .invalidSymbol 0x8#4 t)) ∧
      (s.nnode.toNat = 513 → c = .rdtree →
        exec (.nodeLeaf f) s =
          .next (faultEntry .treeOverflow 0x8#4 { s with inp := { s.inp with pos := s.inp.pos + 1 } })) ∧
      (s.nnode.toNat = 513 → c = .decompress → s.out.isOpen = true →
        ∃ t, exec (.nodeLeaf f) s = .next t ∧
          State.abortsTo { s with inp := { s.inp with pos := s.inp.pos + 1 } } .treeOverflow 0x8#4 t)

/-- The magic field under RDMAGIC: the magic ends the command, any other value is BadMagicError; inside DECOMPRESS the
magic leads on to RDTREE, and any other value closes the streams and clears the data before the fault (30_encoding.md R85;
45_decoder.md R190, R198, R199). -/
def Obligations.MagicToken : Prop :=
  ∀ s : State, s.inp.isOpen = true → s.inp.pos + 32 ≤ s.inp.bits.length →
    (s.phase = .run .rdmagic .rdmagic →
        exec (.magic Config.magic) s =
          .next
            { s with
              inp := { s.inp with pos := s.inp.pos + 32 }, phase := .idle, stack := []
              status := { s.status with busy := false, done := true } }) ∧
      (s.phase = .run .decompress .rdmagic →
        exec (.magic Config.magic) s =
          .next
            { s with
              inp := { s.inp with pos := s.inp.pos + 32 }, phase := .run .decompress .rdtree, stack := [], tree := none
              nnode := 0#10, status := { s.status with treeValid := false, codeValid := false } }) ∧
      (∀ m, m ≠ Config.magic → s.phase = .run .rdmagic .rdmagic →
        exec (.magic m) s =
          .next (faultEntry .badMagic 0x7#4 { s with inp := { s.inp with pos := s.inp.pos + 32 } })) ∧
      (∀ m, m ≠ Config.magic → s.phase = .run .decompress .rdmagic → s.out.isOpen = true →
        ∃ t, exec (.magic m) s = .next t ∧
          State.abortsTo { s with inp := { s.inp with pos := s.inp.pos + 32 } } .badMagic 0x7#4 t)

/-- A code under DECBODY: the byte is written and `CUR` is the root again; the end-of-block code ends DECBODY, or closes
the streams and ends DECOMPRESS in the step after (30_encoding.md R89, 45_decoder.md R193, R198). After the end-of-block
code `CUR` is not live and is left open (10_state.md R31). -/
def Obligations.CodeToken : Prop :=
  ∀ (s : State) (c : Cmd) (t : CodeTree) (path : BitString), s.phase = .run c .decbody → s.inp.isOpen = true →
    s.out.isOpen = true → s.inp.pos + path.length ≤ s.inp.bits.length → s.status.treeValid = true → s.tree = some t →
    s.cur = t → t.isLeaf = false →
    (∀ b : Byte, t.isCode path (symOfByte b) →
        exec (.code path) s =
          .next
            { s with
              inp := { s.inp with pos := s.inp.pos + path.length }
              out := { s.out with bits := s.out.bits ++ bitsOf 8 b.toNat } }) ∧
      (t.isCode path Config.eob → c = .decbody →
        ∃ u, exec (.code path) s = .next u ∧
          u =
            { s with
              inp := { s.inp with pos := s.inp.pos + path.length }, cur := u.cur, phase := .idle, stack := []
              status := { s.status with busy := false, done := true } }) ∧
      (t.isCode path Config.eob → c = .decompress →
        ∃ u, exec (.code path) s = .next u ∧
          u =
            { s with
              inp := { s.inp with pos := s.inp.pos + path.length }, cur := u.cur, phase := .run .decompress .close })

/-- The pad has no effect (30_encoding.md R90), and no token has one while no reader that reads it runs. -/
def Obligations.UnreadTokensHaveNoEffect : Prop :=
  ∀ s : State,
    (∀ b, exec (.pad b) s = .next s) ∧
      ((∀ c, s.phase ≠ .run c .rdtree) → exec .nodeInt s = .next s ∧ ∀ f, exec (.nodeLeaf f) s = .next s) ∧
      ((∀ c, s.phase ≠ .run c .rdmagic) → ∀ m, exec (.magic m) s = .next s) ∧
      ((∀ c, s.phase ≠ .run c .decbody) → ∀ p, exec (.code p) s = .next s)

/-! ### Frames -/

/-- What each command leaves untouched, whether it ends with or without a fault (10_state.md R39). R39 does not list `PQ`,
`SEQ`, `NNODE` and `CUR`: that they keep their values in the commands that do not use them is the model's choice (log 19,
and log 4 for `CUR` through CLEAR and COMPRESS). -/
def Obligations.CommandsTouchOnlyTheirState : Prop :=
  ∀ (c : Cmd) (s t : State), exec (decodeCommand c.opcode) s = .next t →
    (c ∉ [.count, .compress, .decompress, .clear] → t.freq = s.freq) ∧
      (c ∉ [.build, .rdtree, .compress, .decompress, .clear] → t.tree = s.tree) ∧
      (c ∉ [.gencodes, .compress, .decompress, .clear] → t.code = s.code) ∧
      (c ∉ [.count, .compress, .decompress, .clear] → t.status.freqValid = s.status.freqValid) ∧
      (c ∉ [.count, .build, .rdtree, .compress, .decompress, .clear] → t.status.treeValid = s.status.treeValid) ∧
      (c ∉ [.count, .build, .gencodes, .rdtree, .compress, .decompress, .clear] →
        t.status.codeValid = s.status.codeValid) ∧
      (c.touchesIn = false → t.inp = s.inp) ∧ (c.touchesOut = false → t.out = s.out) ∧
      (c ≠ .clear → (s.status.err = true → t.status.err = true) ∧
        (t.status.err = s.status.err → t.errcode = s.errcode ∧ t.errcmd = s.errcmd)) ∧
      t.inp.bits = s.inp.bits ∧ s.out.bits <+: t.out.bits ∧ t.port = s.port ∧
      (c ∉ [.build, .compress, .decompress, .clear] → t.pq = s.pq ∧ t.seq = s.seq) ∧
      (c ∉ [.rdtree, .compress, .decompress, .clear] → t.nnode = s.nnode) ∧
      (c ∉ [.decbody, .decompress] → t.cur = s.cur) ∧ (c.closes = false → t.draws = s.draws)

/-- The input space is read-only and the output space is append-only, for every step but the host's binding of a stream
and its change of the input (20_memory.md R50, R70). -/
def Obligations.InputReadOnlyOutputAppendOnly : Prop :=
  ∀ s t : State, step s = .next t →
    ((∀ bytes rest, s.port ≠ .bindIn bytes :: rest ∧ s.port ≠ .changeIn bytes :: rest) → t.inp.bits = s.inp.bits) ∧
      ((∀ rest, s.port ≠ .bindOut :: rest) → s.out.bits <+: t.out.bits ∧ (s.out.closed = true → t.out = s.out))
end

