-- ==== Sys2Proof/Laws/Bits.lean ====
section
/-! SUPPORT. Bit strings as numbers: lengths, ranges and the two round trips of `bits` and `val` (00_scope.md R11). -/

namespace Sys2Proof

@[simp] theorem bitsOf_length (w v : Nat) : (bitsOf w v).length = w := by
  induction w with
  | zero => rfl
  | succ w ih => simp [bitsOf, ih]

theorem valFrom_append (acc : Nat) (s t : BitString) : valFrom acc (s ++ t) = valFrom (valFrom acc s) t := by
  induction s generalizing acc with
  | nil => rfl
  | cons b s ih => exact ih _

theorem valFrom_eq (acc : Nat) (s : BitString) : valFrom acc s = acc * 2 ^ s.length + valOf s := by
  induction s generalizing acc with
  | nil => simp [valFrom, valOf]
  | cons b s ih =>
    simp only [valFrom, valOf, List.length_cons]
    rw [ih, ih (2 * 0 + b.toNat)]
    ring

@[simp] theorem valOf_nil : valOf [] = 0 := rfl

theorem valOf_cons (b : Bool) (s : BitString) : valOf (b :: s) = b.toNat * 2 ^ s.length + valOf s := by
  simp [valOf, valFrom, valFrom_eq (b.toNat) s]

theorem valOf_append (s t : BitString) : valOf (s ++ t) = valOf s * 2 ^ t.length + valOf t := by
  rw [valOf, valFrom_append, valFrom_eq]; rfl

theorem valOf_lt (s : BitString) : valOf s < 2 ^ s.length := by
  induction s with
  | nil => simp
  | cons b s ih =>
    rw [valOf_cons, List.length_cons, pow_succ]
    cases b <;> simp <;> omega

/-- `val(bits(w, v)) = v mod 2^w`. -/
@[simp] theorem valOf_bitsOf (w v : Nat) : valOf (bitsOf w v) = v % 2 ^ w := by
  induction w with
  | zero => simp [bitsOf, Nat.mod_one]
  | succ w ih =>
    rw [bitsOf, valOf_cons, ih, bitsOf_length, pow_succ, Nat.mod_mul, Nat.testBit_eq_decide_div_mod_eq]
    rcases Nat.mod_two_eq_zero_or_one (v / 2 ^ w) with h | h <;> simp [h] <;> ring

/-- `bits` sees only the low bits of its number. -/
theorem bitsOf_congr {w u v : Nat} (h : ∀ i < w, u.testBit i = v.testBit i) : bitsOf w u = bitsOf w v := by
  induction w with
  | zero => rfl
  | succ w ih => rw [bitsOf, bitsOf, h w (by omega), ih fun i hi => h i (by omega)]

/-- `bits(len(s), val(s)) = s`. -/
@[simp] theorem bitsOf_valOf (s : BitString) : bitsOf s.length (valOf s) = s := by
  induction s with
  | nil => rfl
  | cons b s ih =>
    rw [List.length_cons, bitsOf]
    congr 1
    · rw [valOf_cons, Nat.testBit_eq_decide_div_mod_eq]
      have hlt := valOf_lt s
      rw [Nat.mul_comm, Nat.mul_add_div (by positivity), Nat.div_eq_of_lt hlt]
      cases b <;> simp
    · conv_rhs => rw [← ih]
      apply bitsOf_congr
      intro i hi
      rw [valOf_cons, Nat.mul_comm, Nat.testBit_two_pow_mul_add _ (valOf_lt s), if_pos hi]

@[simp] theorem bitsOfBytes_append (a b : List Byte) : bitsOfBytes (a ++ b) = bitsOfBytes a ++ bitsOfBytes b := by
  induction a with
  | nil => rfl
  | cons x a ih => simp [bitsOfBytes, ih]

@[simp] theorem bitsOfBytes_length (bytes : List Byte) : (bitsOfBytes bytes).length = 8 * bytes.length := by
  induction bytes with
  | nil => rfl
  | cons b bs ih => simp [bitsOfBytes, ih]; omega

/-- Reading back the `w` bits of a number that fits. -/
theorem ofNat_valOf_take_bitsOf {w : Nat} (v : BitVec w) (rest : BitString) :
    BitVec.ofNat w (valOf ((bitsOf w v.toNat ++ rest).take w)) = v := by
  simp [Nat.mod_eq_of_lt v.isLt]

end Sys2Proof
end

