-- ==== Sys2Proof/Laws/Trees.lean ====
section
/-! SUPPORT. Trees as bit strings: the paths to leaves, the codes they are, and the preorder header. -/

namespace Sys2Proof

namespace CodeTree

theorem leaves_pos (t : CodeTree) : 1 ≤ t.leaves := by
  induction t with
  | leaf y => simp [leaves]
  | node l r hl hr => simp [leaves]; omega

/-- A tree of `n` leaves has `2n - 1` nodes (00_scope.md R9). -/
theorem nodes_eq (t : CodeTree) : t.nodes = 2 * t.leaves - 1 := by
  induction t with
  | leaf y => rfl
  | node l r hl hr => have := l.leaves_pos; have := r.leaves_pos; simp [nodes, leaves, hl, hr]; omega

theorem nodes_pos (t : CodeTree) : 1 ≤ t.nodes := by have := t.leaves_pos; rw [nodes_eq]; omega

/-- No leaf is deeper than the number of leaves less one (00_scope.md R9). -/
theorem depth_le (t : CodeTree) : t.depth ≤ t.leaves - 1 := by
  induction t with
  | leaf y => simp [depth]
  | node l r hl hr => have := l.leaves_pos; have := r.leaves_pos; simp [depth, leaves]; omega

/-- The header of `n` leaves has `11n - 1` bits (30_encoding.md R88). -/
theorem encTree_length (t : CodeTree) : (encTree t).length = 11 * t.leaves - 1 := by
  induction t with
  | leaf y => simp [encTree, encode, leaves]
  | node l r hl hr =>
    have := l.leaves_pos; have := r.leaves_pos
    simp [encTree, encode, leaves, hl, hr]; omega

theorem encTree_pos (t : CodeTree) : 10 ≤ (encTree t).length := by
  have := t.leaves_pos; rw [encTree_length]; omega

theorem encTree_leaf (y : Sym) : encTree (.leaf y) = true :: bitsOf 9 y.val := by
  have : (BitVec.ofNat 9 y.val).toNat = y.val := Nat.mod_eq_of_lt (by have := y.isLt; omega)
  rw [encTree, encode, this]

theorem encTree_node (l r : CodeTree) : encTree (.node l r) = false :: (encTree l ++ encTree r) := by
  simp [encTree, encode]

/-- At most one tree's header starts a bit string (43_tree_codec.md R160). -/
theorem encTree_unique (t u : CodeTree) (x y : BitString) (h : encTree t ++ x = encTree u ++ y) : t = u ∧ x = y := by
  induction t generalizing u x y with
  | leaf a =>
    cases u with
    | leaf b =>
      simp only [encTree_leaf, List.cons_append, List.cons.injEq, true_and] at h
      obtain ⟨h1, h2⟩ := List.append_inj h (by simp)
      have := congrArg valOf h1
      simp only [valOf_bitsOf] at this
      rw [Nat.mod_eq_of_lt (by have := a.isLt; omega), Nat.mod_eq_of_lt (by have := b.isLt; omega)] at this
      exact ⟨congrArg CodeTree.leaf (Fin.ext this), h2⟩
    | node l r => simp [encTree_leaf, encTree_node] at h
  | node l r hl hr =>
    cases u with
    | leaf b => simp [encTree_leaf, encTree_node] at h
    | node l' r' =>
      simp only [encTree_node, List.cons_append, List.append_assoc, List.cons.injEq, true_and] at h
      obtain ⟨hl', h'⟩ := hl _ _ _ h
      obtain ⟨hr', h''⟩ := hr _ _ _ h'
      exact ⟨by rw [hl', hr'], h''⟩

@[simp] theorem follow_nil (t : CodeTree) : t.follow [] = some t := by cases t <;> rfl

@[simp] theorem follow_leaf_cons (y : Sym) (b : Bool) (p : BitString) : (CodeTree.leaf y).follow (b :: p) = none := rfl

@[simp] theorem follow_left (l r : CodeTree) (p : BitString) : (CodeTree.node l r).follow (false :: p) = l.follow p := rfl

@[simp] theorem follow_right (l r : CodeTree) (p : BitString) : (CodeTree.node l r).follow (true :: p) = r.follow p := rfl

theorem follow_append (t : CodeTree) (p q : BitString) : t.follow (p ++ q) = (t.follow p).bind fun u => u.follow q := by
  induction p generalizing t with
  | nil => simp
  | cons b p ih =>
    cases t with
    | leaf y => simp
    | node l r => cases b <;> simp [ih]

/-- The leaves and their paths are the pairs a walk ends at. -/
theorem mem_paths (t : CodeTree) (p : BitString) (y : Sym) : (p, y) ∈ t.paths ↔ t.isCode p y := by
  unfold isCode
  induction t generalizing p with
  | leaf z =>
    cases p with
    | nil => simp [paths, eq_comm]
    | cons b p => simp [paths]
  | node l r hl hr =>
    cases p with
    | nil => simp [paths]
    | cons b p => cases b <;> simp [paths, hl, hr]

theorem paths_symbols (t : CodeTree) : t.paths.map (·.2) = t.symbols := by
  induction t with
  | leaf y => rfl
  | node l r hl hr =>
    simp only [paths, symbols, List.map_append, List.map_map, ← hl, ← hr]
    rfl

theorem path_length_le (t : CodeTree) : ∀ q ∈ t.paths, q.1.length ≤ t.depth := by
  induction t with
  | leaf y => simp [paths, depth]
  | node l r hl hr =>
    simp only [paths, depth, List.mem_append, List.mem_map]
    rintro q (⟨q, hq, rfl⟩ | ⟨q, hq, rfl⟩)
    · have := hl q hq; simp; omega
    · have := hr q hq; simp; omega

theorem symbols_length (t : CodeTree) : t.symbols.length = t.leaves := by
  induction t with
  | leaf y => rfl
  | node l r hl hr => simp [symbols, leaves, hl, hr]

/-- The codes of a tree are prefix free: a code that starts another is that code (10_state.md R28 c). -/
theorem isCode_unique (t : CodeTree) (p q x y : BitString) (a b : Sym) (hp : t.isCode p a) (hq : t.isCode q b)
    (h : p ++ x = q ++ y) : p = q ∧ a = b ∧ x = y := by
  unfold isCode at *
  induction t generalizing p q with
  | leaf z =>
    cases p with
    | cons c p => simp at hp
    | nil =>
      cases q with
      | cons c q => simp at hq
      | nil => simp at hp hq; exact ⟨rfl, by rw [← hp, ← hq], by simpa using h⟩
  | node l r hl hr =>
    cases p with
    | nil => simp at hp
    | cons c p =>
      cases q with
      | nil => simp at hq
      | cons d q =>
        simp only [List.cons_append, List.cons.injEq] at h
        obtain ⟨rfl, h⟩ := h
        cases c with
        | false => obtain ⟨rfl, h1, h2⟩ := hl p q hp hq h; exact ⟨rfl, h1, h2⟩
        | true => obtain ⟨rfl, h1, h2⟩ := hr p q hp hq h; exact ⟨rfl, h1, h2⟩

/-- A code of a tree with an internal root has a bit. -/
theorem isCode_pos {t : CodeTree} (ht : t.isLeaf = false) {p : BitString} {y : Sym} (h : t.isCode p y) :
    1 ≤ p.length := by
  cases p with
  | nil => cases t <;> simp_all [isCode, isLeaf]
  | cons b p => simp

theorem depth_bounded {t : CodeTree} (h : t.bounded) : t.depth ≤ Config.depthMax := by
  have := t.depth_le
  have := t.nodes_eq
  have := t.leaves_pos
  unfold bounded Config.nodeCap at h
  unfold Config.depthMax
  omega

end CodeTree

/-- Reading a code against its tree stops at its leaf (30_encoding.md R96). -/
theorem takeCode_append (t : CodeTree) (p after : BitString) (y : Sym) (h : t.isCode p y) :
    takeCode t (p ++ after) = some (p, after) := by
  unfold CodeTree.isCode at h
  induction t generalizing p with
  | leaf z => cases p with
    | nil => rfl
    | cons b p => simp at h
  | node l r hl hr =>
    cases p with
    | nil => simp at h
    | cons b p => cases b <;> simp_all [takeCode]

end Sys2Proof
end

