-- ==== Sys2Proof/Laws/Builder.lean ====
section
/-! SUPPORT. The queue of the tree builder and what the combine loop keeps (10_state.md R29, 41_tree_builder.md R120 to
R128). -/

namespace Sys2Proof.Machine

/-! ### Removing the least entry -/

theorem leastOf_perm (e : Entry) (es : List Entry) : (e :: es).Perm ((leastOf e es).1 :: (leastOf e es).2) := by
  induction es generalizing e with
  | nil => exact .refl _
  | cons x xs ih =>
    unfold leastOf
    split
    · exact (List.Perm.cons e (ih x)).trans (.swap _ _ _)
    · exact (List.Perm.swap x e xs).trans ((List.Perm.cons x (ih e)).trans (.swap _ _ _))

theorem leastOf_length (e : Entry) (es : List Entry) : (leastOf e es).2.length = es.length := by
  have := (leastOf_perm e es).length_eq
  simpa using this.symm

/-- The removed entry and the others are the entries of the queue. -/
theorem removeMin_perm {es rest : List Entry} {e : Entry} (h : removeMin es = some (e, rest)) :
    es.Perm (e :: rest) := by
  cases es with
  | nil => simp [removeMin] at h
  | cons x xs =>
    simp only [removeMin, Option.some.injEq] at h
    have := leastOf_perm x xs
    rw [h] at this
    exact this

theorem removeMin_none {es : List Entry} : removeMin es = none ↔ es = [] := by cases es <;> simp [removeMin]

theorem removeMin_some {es : List Entry} (h : 1 ≤ es.length) : ∃ e rest, removeMin es = some (e, rest) := by
  cases es with
  | nil => simp at h
  | cons x xs => exact ⟨_, _, rfl⟩

/-- The order on entries, as numbers. -/
theorem before_iff (a b : Entry) :
    a.before b = true ↔
      a.weight.toNat < b.weight.toNat ∨ (a.weight.toNat = b.weight.toNat ∧ a.seq.toNat < b.seq.toNat) := by
  simp [Entry.before, BitVec.lt_def, BitVec.toNat_inj]

/-- Nothing left in the queue comes before the entry removed. -/
theorem leastOf_least (e : Entry) (es : List Entry) : ∀ x ∈ (leastOf e es).2, x.before (leastOf e es).1 = false := by
  have key : ∀ (e : Entry) (es : List Entry),
      (∀ x ∈ (leastOf e es).2, x.before (leastOf e es).1 = false) ∧ e.before (leastOf e es).1 = false := by
    intro e es
    induction es generalizing e with
    | nil =>
      refine ⟨by simp [leastOf], ?_⟩
      rw [← Bool.not_eq_true, before_iff]; simp [leastOf]
    | cons x xs ih =>
      unfold leastOf
      split
      · next hx =>
        obtain ⟨h1, h2⟩ := ih x
        have he : e.before (leastOf x xs).1 = false := by
          rw [← Bool.not_eq_true, before_iff] at h2 ⊢
          rw [before_iff] at hx
          omega
        exact ⟨by simp only [List.mem_cons]; rintro y (rfl | hy); exacts [he, h1 y hy], he⟩
      · next hx =>
        obtain ⟨h1, h2⟩ := ih e
        have he : x.before (leastOf e xs).1 = false := by
          rw [← Bool.not_eq_true, before_iff] at h2 ⊢
          rw [before_iff] at hx
          omega
        exact ⟨by simp only [List.mem_cons]; rintro y (rfl | hy); exacts [he, h1 y hy], h2⟩
  exact (key e es).1

theorem removeMin_least {es rest : List Entry} {e : Entry} (h : removeMin es = some (e, rest)) :
    ∀ x ∈ rest, x.before e = false := by
  cases es with
  | nil => simp [removeMin] at h
  | cons y ys =>
    simp only [removeMin, Option.some.injEq] at h
    have := leastOf_least y ys
    rw [h] at this
    exact this

/-! ### One pass -/

/-- Everything one pass of the combine loop can do. -/
theorem combineOnce_cases (q : Queue) :
    (q.entries.length ≤ 1 ∧ combineOnce q = q) ∨
      ∃ a b rest, q.entries.Perm (a :: b :: rest) ∧ b.before a = false ∧
        combineOnce q =
          { entries := ⟨a.weight + b.weight, q.seq, .node a.tree b.tree⟩ :: rest, seq := q.seq + 1#10 } := by
  unfold combineOnce
  split
  · next h => rw [removeMin_none] at h; exact .inl ⟨by simp [h], rfl⟩
  · next a r h =>
    split
    · next h' =>
      rw [removeMin_none] at h'
      exact .inl ⟨by have := (removeMin_perm h).length_eq; simp [h'] at this; omega, rfl⟩
    · next b r' h' =>
      refine .inr ⟨a, b, r', ?_, ?_, rfl⟩
      · exact (removeMin_perm h).trans (.cons a (removeMin_perm h'))
      · exact removeMin_least h b ((removeMin_perm h').mem_iff.mpr (by simp))

/-- What holds of every queue, if one pass keeps it, holds after the loop. -/
theorem combine_keeps {P : Queue → Prop} (h : ∀ q, P q → P (combineOnce q)) (n : Nat) (q : Queue) (hq : P q) :
    P (combine n q) := by
  induction n generalizing q with
  | zero => exact hq
  | succ n ih => exact ih _ (h q hq)

theorem combine_length (n : Nat) (q : Queue) (h : n + 1 ≤ q.entries.length) :
    (combine n q).entries.length = q.entries.length - n ∧ (combine n q).seq = q.seq + BitVec.ofNat 10 n := by
  induction n generalizing q with
  | zero => simp [combine]
  | succ n ih =>
    obtain ⟨h1, -⟩ | ⟨a, b, rest, hp, -, he⟩ := combineOnce_cases q
    · omega
    · have hl := hp.length_eq
      simp only [List.length_cons] at hl
      have := ih (combineOnce q) (by rw [he]; simp; omega)
      rw [combine, this.1, this.2, he]
      refine ⟨by simp; omega, ?_⟩
      simp only [BitVec.add_assoc]
      rw [Nat.add_comm n 1, BitVec.ofNat_add]

/-! ### What the loop keeps -/

/-- The symbols of the leaves held in a queue. -/
def Queue.symbols (q : Queue) : List Sym := q.entries.flatMap fun e => e.tree.symbols

/-- The leaves are the same after a pass, in some order. -/
theorem combineOnce_symbols (q : Queue) : (combineOnce q).symbols.Perm q.symbols := by
  obtain ⟨-, h⟩ | ⟨a, b, rest, hp, -, he⟩ := combineOnce_cases q
  · rw [h]
  · have := hp.flatMap_right (f := fun e : Entry => e.tree.symbols)
    rw [he]
    simp only [Queue.symbols, List.flatMap_cons, CodeTree.symbols, List.append_assoc] at this ⊢
    exact this.symm

theorem combine_symbols (n : Nat) (q : Queue) : (combine n q).symbols.Perm q.symbols :=
  combine_keeps (P := fun p => p.symbols.Perm q.symbols) (fun p hp => (combineOnce_symbols p).trans hp) n q (.refl _)

/-- Every weight is the sum of the weights of the leaves below it, and every left subtree weighs at most its right one. -/
structure Weighed (freq : Vector Count 256) (q : Queue) : Prop where
  exact : ∀ e ∈ q.entries, e.weight.toNat = treeWeight freq e.tree
  total : (q.symbols.map (leafWeight freq)).sum < 2 ^ 41
  ordered : ∀ e ∈ q.entries, ∀ l r, CodeTree.node l r ∈ e.tree.subtrees → treeWeight freq l ≤ treeWeight freq r

theorem treeWeight_node (freq : Vector Count 256) (l r : CodeTree) :
    treeWeight freq (.node l r) = treeWeight freq l + treeWeight freq r := by
  simp [treeWeight, CodeTree.symbols]

theorem queue_weight (freq : Vector Count 256) (q : Queue) :
    (q.symbols.map (leafWeight freq)).sum = (q.entries.map fun e => treeWeight freq e.tree).sum := by
  unfold Queue.symbols
  induction q.entries with
  | nil => rfl
  | cons e es ih => simp [ih, treeWeight]

theorem combineOnce_weighed (freq : Vector Count 256) (q : Queue) (h : Weighed freq q) :
    Weighed freq (combineOnce q) := by
  have htot : ((combineOnce q).symbols.map (leafWeight freq)).sum = (q.symbols.map (leafWeight freq)).sum :=
    ((combineOnce_symbols q).map _).sum_eq
  refine ⟨?_, by rw [htot]; exact h.total, ?_⟩
  · obtain ⟨-, hs⟩ | ⟨a, b, rest, hp, -, he⟩ := combineOnce_cases q
    · rw [hs]; exact h.exact
    · have ht := h.total
      rw [queue_weight, (hp.map _).sum_eq] at ht
      simp only [List.map_cons, List.sum_cons] at ht
      have ha := h.exact a (hp.mem_iff.mpr (by simp))
      have hb := h.exact b (hp.mem_iff.mpr (by simp))
      rw [he]
      simp only [List.mem_cons]
      rintro e (rfl | hr)
      · rw [treeWeight_node, BitVec.toNat_add, ha, hb, Nat.mod_eq_of_lt (by omega)]
      · exact h.exact e (hp.mem_iff.mpr (by simp [hr]))
  · obtain ⟨-, hs⟩ | ⟨a, b, rest, hp, hba, he⟩ := combineOnce_cases q
    · rw [hs]; exact h.ordered
    · have hma : a ∈ q.entries := hp.mem_iff.mpr (by simp)
      have hmb : b ∈ q.entries := hp.mem_iff.mpr (by simp)
      rw [he]
      simp only [List.mem_cons]
      rintro e (rfl | hr) l r hlr
      · simp only [CodeTree.subtrees, List.mem_cons, List.mem_append] at hlr
        obtain hlr | hlr | hlr := hlr
        · cases hlr
          rw [← Bool.not_eq_true, before_iff] at hba
          rw [← h.exact a hma, ← h.exact b hmb]; omega
        · exact h.ordered a hma l r hlr
        · exact h.ordered b hmb l r hlr
      · exact h.ordered e (hp.mem_iff.mpr (by simp [hr])) l r hlr

/-! ### The queue at the start -/

/-- What a queue holds after the leaves of the counts from byte value `b` on. -/
theorem insertLeaves_spec (cs : List Count) (b : Nat) (q : Queue) (hb : b + cs.length ≤ 256) :
    (insertLeaves cs b q).entries.length = q.entries.length + cs.countP (fun c => decide (0#32 < c)) ∧
      (insertLeaves cs b q).seq = q.seq + BitVec.ofNat 10 (cs.countP fun c => decide (0#32 < c)) ∧
      (∀ e ∈ (insertLeaves cs b q).entries, e ∈ q.entries ∨
        ∃ i, ∃ h : i < cs.length, 0#32 < cs[i] ∧ e.tree = .leaf (Fin.ofNat 257 (b + i)) ∧ e.weight = cs[i].setWidth 41) ∧
      ∀ y : Sym, (insertLeaves cs b q).symbols.count y =
        q.symbols.count y + if ∃ i, ∃ h : i < cs.length, 0#32 < cs[i] ∧ y.val = b + i then 1 else 0 := by
  induction cs generalizing b q with
  | nil => simp [insertLeaves]
  | cons c cs ih =>
    simp only [List.length_cons] at hb
    obtain ⟨h1, h2, h3, h4⟩ :=
      ih (b + 1) (if 0#32 < c then q.insert (c.setWidth 41) (.leaf (Fin.ofNat 257 b)) else q) (by omega)
    rw [insertLeaves]
    refine ⟨?_, ?_, ?_, ?_⟩
    · rw [h1, List.countP_cons]
      by_cases hc : 0#32 < c
      · simp [hc, Queue.insert]; omega
      · simp [hc]
    · rw [h2, List.countP_cons]
      by_cases hc : 0#32 < c
      · simp only [hc, if_true, decide_true, Queue.insert]
        rw [BitVec.ofNat_add, BitVec.add_assoc, BitVec.add_comm 1#10]
      · simp [hc]
    · intro e he
      obtain h | ⟨i, hi, hpos, ht, hw⟩ := h3 e he
      · by_cases hc : 0#32 < c
        · rw [if_pos hc] at h
          simp only [Queue.insert, List.mem_cons] at h
          obtain rfl | h := h
          · exact .inr ⟨0, by simp, by simpa using hc, rfl, rfl⟩
          · exact .inl h
        · rw [if_neg hc] at h; exact .inl h
      · refine .inr ⟨i + 1, by simpa using hi, by simpa using hpos, ?_, by simpa using hw⟩
        rw [ht]; congr 2; omega
    · intro y
      rw [h4]
      have hshift : (∃ i, ∃ h : i < (c :: cs).length, 0#32 < (c :: cs)[i] ∧ y.val = b + i) ↔
          (0#32 < c ∧ y.val = b) ∨ ∃ i, ∃ h : i < cs.length, 0#32 < cs[i] ∧ y.val = b + 1 + i := by
        constructor
        · rintro ⟨i, hi, hp, hy⟩
          cases i with
          | zero => exact .inl ⟨by simpa using hp, by simpa using hy⟩
          | succ i => exact .inr ⟨i, by simpa using hi, by simpa using hp, by omega⟩
        · rintro (⟨hp, hy⟩ | ⟨i, hi, hp, hy⟩)
          · exact ⟨0, by simp, by simpa using hp, by simpa using hy⟩
          · exact ⟨i + 1, by simpa using hi, by simpa using hp, by omega⟩
      have hfin : (Fin.ofNat 257 b).val = b := Nat.mod_eq_of_lt (by omega)
      by_cases hc : 0#32 < c
      · rw [if_pos hc]
        have hins : (q.insert (c.setWidth 41) (.leaf (Fin.ofNat 257 b))).symbols =
            Fin.ofNat 257 b :: q.symbols := rfl
        rw [hins, List.count_cons]
        by_cases hyb : y.val = b
        · have hno : ¬ ∃ i, ∃ h : i < cs.length, 0#32 < cs[i] ∧ y.val = b + 1 + i := by
            rintro ⟨i, hi, -, hy⟩; omega
          have heq : Fin.ofNat 257 b = y := Fin.ext (by rw [hfin, hyb])
          rw [if_neg hno, if_pos (hshift.mpr (.inl ⟨hc, hyb⟩)), if_pos (beq_iff_eq.mpr heq)]
        · have hne : ¬ ((Fin.ofNat 257 b == y) = true) := by
            rw [beq_iff_eq]; rintro rfl; exact hyb hfin
          rw [if_neg hne]
          by_cases hr : ∃ i, ∃ h : i < cs.length, 0#32 < cs[i] ∧ y.val = b + 1 + i
          · rw [if_pos hr, if_pos (hshift.mpr (.inr hr))]
          · rw [if_neg hr, if_neg (fun h => (hshift.mp h).elim (fun h => hyb h.2) hr)]
      · rw [if_neg hc]
        by_cases hr : ∃ i, ∃ h : i < cs.length, 0#32 < cs[i] ∧ y.val = b + 1 + i
        · rw [if_pos hr, if_pos (hshift.mpr (.inr hr))]
        · rw [if_neg hr, if_neg (fun h => (hshift.mp h).elim (fun h => hc h.1) hr)]

/-- The number of counts above 0. -/
def usedBytes (freq : Vector Count 256) : Nat := freq.toList.countP fun c => decide (0#32 < c)

theorem usedBytes_le (freq : Vector Count 256) : usedBytes freq ≤ 256 :=
  (List.countP_le_length).trans (by simp)

theorem usedBytes_zero (freq : Vector Count 256) :
    usedBytes freq = 0 ↔ ∀ b : Byte, freq[b.toNat]'b.isLt = 0#32 := by
  rw [usedBytes, List.countP_eq_zero]
  simp only [Vector.mem_toList_iff, decide_eq_true_eq, BitVec.not_lt, BitVec.le_zero_iff]
  constructor
  · intro h b; exact h _ (by simp)
  · intro h c hc
    obtain ⟨i, hi, rfl⟩ := Vector.getElem_of_mem hc
    simpa [Nat.mod_eq_of_lt hi] using h (BitVec.ofNat 8 i)

/-- The leaves of the counts above 0 (41_tree_builder.md R121). -/
def byteLeaves (freq : Vector Count 256) : Queue := insertLeaves freq.toList 0 { entries := [], seq := 0#10 }

theorem byteLeaves_length (freq : Vector Count 256) : (byteLeaves freq).entries.length = usedBytes freq := by
  simpa [byteLeaves, usedBytes] using (insertLeaves_spec freq.toList 0 { entries := [], seq := 0#10 } (by simp)).1

theorem byteLeaves_seq (freq : Vector Count 256) : (byteLeaves freq).seq = BitVec.ofNat 10 (usedBytes freq) := by
  simpa [byteLeaves, usedBytes] using (insertLeaves_spec freq.toList 0 { entries := [], seq := 0#10 } (by simp)).2.1

theorem byteLeaves_count (freq : Vector Count 256) (y : Sym) :
    (byteLeaves freq).symbols.count y = if ∃ h : y.val < 256, 0#32 < freq[y.val] then 1 else 0 := by
  have := (insertLeaves_spec freq.toList 0 { entries := [], seq := 0#10 } (by simp)).2.2.2 y
  have hs : (Queue.symbols { entries := [], seq := 0#10 }).count y = 0 := by simp [Queue.symbols]
  have hiff : (∃ i, ∃ h : i < freq.toList.length, 0#32 < freq.toList[i] ∧ y.val = 0 + i) ↔
      ∃ h : y.val < 256, 0#32 < freq[y.val] := by
    constructor
    · rintro ⟨i, hi, hp, hy⟩
      have hy : i = y.val := by omega
      subst hy
      exact ⟨by simpa using hi, by simpa using hp⟩
    · rintro ⟨h, hp⟩
      exact ⟨y.val, by simpa using h, by simpa using hp, by omega⟩
  rw [byteLeaves, this, hs, Nat.zero_add]
  by_cases h : ∃ h : y.val < 256, 0#32 < freq[y.val]
  · rw [if_pos h, if_pos (hiff.mpr h)]
  · rw [if_neg h, if_neg (mt hiff.mp h)]

theorem byteLeaves_entries (freq : Vector Count 256) : ∀ e ∈ (byteLeaves freq).entries,
    ∃ y : Sym, ∃ h : y.val < 256, e.tree = .leaf y ∧ e.weight = (freq[y.val]'h).setWidth 41 := by
  intro e he
  obtain h | ⟨i, hi, -, ht, hw⟩ :=
    (insertLeaves_spec freq.toList 0 { entries := [], seq := 0#10 } (by simp)).2.2.1 e he
  · simp at h
  · have hi' : i < 256 := by simpa using hi
    have hf : (Fin.ofNat 257 (0 + i)).val = i := by simp [Fin.ofNat]; omega
    refine ⟨Fin.ofNat 257 (0 + i), by rw [hf]; exact hi', ht, ?_⟩
    rw [hw]
    simp only [hf, Vector.getElem_toList]

/-- The queue the combine loop starts with: the byte leaves and one end-of-block leaf, two when there is no byte leaf. -/
theorem startQueue_eq (freq : Vector Count 256) :
    startQueue freq =
      if usedBytes freq = 0 then insertEob (insertEob (byteLeaves freq)) else insertEob (byteLeaves freq) := by
  have : (insertEob (byteLeaves freq)).entries.length = usedBytes freq + 1 := by
    simp [insertEob, Queue.insert, byteLeaves_length]
  unfold startQueue guardQueue
  change (if (insertEob (byteLeaves freq)).entries.length = 1 then _ else _) = _
  rw [this]
  by_cases h : usedBytes freq = 0 <;> simp [h, byteLeaves]

theorem startQueue_length (freq : Vector Count 256) : (startQueue freq).entries.length = startLeaves freq := by
  rw [startQueue_eq, startLeaves]
  change _ = max 2 (usedBytes freq + 1)
  split <;> simp [insertEob, Queue.insert, byteLeaves_length] <;> omega

theorem startLeaves_range (freq : Vector Count 256) : 2 ≤ startLeaves freq ∧ startLeaves freq ≤ 257 := by
  have := usedBytes_le freq
  change 2 ≤ max 2 (usedBytes freq + 1) ∧ max 2 (usedBytes freq + 1) ≤ 257
  omega

theorem startQueue_seq (freq : Vector Count 256) : (startQueue freq).seq = BitVec.ofNat 10 (startLeaves freq) := by
  rw [startQueue_eq]
  change _ = BitVec.ofNat 10 (max 2 (usedBytes freq + 1))
  split
  · next h => simp [insertEob, Queue.insert, byteLeaves_seq, h]
  · next h =>
    have : max 2 (usedBytes freq + 1) = usedBytes freq + 1 := by omega
    simp [insertEob, Queue.insert, byteLeaves_seq, this, BitVec.ofNat_add]

theorem startQueue_count (freq : Vector Count 256) (y : Sym) :
    (startQueue freq).symbols.count y =
      if h : y.val < 256 then (if 0#32 < freq[y.val] then 1 else 0) else if usedBytes freq = 0 then 2 else 1 := by
  have heob : ∀ q : Queue, (insertEob q).symbols = Config.eob :: q.symbols := fun _ => rfl
  have hb := byteLeaves_count freq y
  rw [startQueue_eq]
  by_cases hy : y.val < 256
  · have hne : ¬ ((Config.eob == y) = true) := by rw [beq_iff_eq]; rintro rfl; simp [Config.eob] at hy
    rw [dif_pos hy]
    have : (∃ h : y.val < 256, 0#32 < freq[y.val]) ↔ 0#32 < freq[y.val] := ⟨fun h => h.2, fun h => ⟨hy, h⟩⟩
    split <;> simp only [heob, List.count_cons, if_neg hne, hb, this, Nat.add_zero]
  · have heq : Config.eob = y := Fin.ext (by simp [Config.eob]; omega)
    have hno : ¬ ∃ h : y.val < 256, 0#32 < freq[y.val] := fun h => hy h.1
    rw [dif_neg hy]
    rw [if_neg hno] at hb
    split <;> simp [heob, heq, hb]

theorem leafWeight_eob (freq : Vector Count 256) : leafWeight freq Config.eob = 1 := rfl

/-- Entries that hold one leaf each hold as many leaves as there are entries. -/
theorem leaves_symbols_length (es : List Entry) (h : ∀ e ∈ es, ∃ y, e.tree = .leaf y) :
    (es.flatMap fun e => e.tree.symbols).length = es.length := by
  induction es with
  | nil => rfl
  | cons e es ih =>
    obtain ⟨y, hy⟩ := h e (by simp)
    simp only [List.flatMap_cons, hy, CodeTree.symbols, List.length_append, List.length_cons, List.length_nil,
      ih fun x hx => h x (by simp [hx])]
    omega

theorem startQueue_weighed_entries (freq : Vector Count 256) : ∀ e ∈ (startQueue freq).entries,
    ∃ y, e.tree = .leaf y ∧ e.weight.toNat = leafWeight freq y := by
  have hb : ∀ e ∈ (byteLeaves freq).entries, ∃ y, e.tree = .leaf y ∧ e.weight.toNat = leafWeight freq y := by
    intro e he
    obtain ⟨y, hy, ht, hw⟩ := byteLeaves_entries freq e he
    refine ⟨y, ht, ?_⟩
    have := (freq[y.val]'hy).isLt
    rw [hw, BitVec.toNat_setWidth, Nat.mod_eq_of_lt (by omega), leafWeight, dif_pos hy]
  have hins : ∀ q : Queue, (∀ e ∈ q.entries, ∃ y, e.tree = .leaf y ∧ e.weight.toNat = leafWeight freq y) →
      ∀ e ∈ (insertEob q).entries, ∃ y, e.tree = .leaf y ∧ e.weight.toNat = leafWeight freq y := by
    intro q hq e he
    simp only [insertEob, Queue.insert, List.mem_cons] at he
    obtain rfl | he := he
    · exact ⟨Config.eob, rfl, rfl⟩
    · exact hq e he
  rw [startQueue_eq]
  split
  · exact hins _ (hins _ hb)
  · exact hins _ hb

/-- The weights of all leaves together (41_tree_builder.md R126). -/
theorem startQueue_total (freq : Vector Count 256) :
    ((startQueue freq).symbols.map (leafWeight freq)).sum ≤ 256 * (2 ^ 32 - 1) + 1 := by
  have hle : ∀ y, leafWeight freq y ≤ 2 ^ 32 - 1 := by
    intro y
    unfold leafWeight
    split
    · next h => have := (freq[y.val]'h).isLt; omega
    · omega
  have hsum : ∀ l : List Sym, (l.map (leafWeight freq)).sum ≤ l.length * (2 ^ 32 - 1) := by
    intro l
    induction l with
    | nil => simp
    | cons y l ih => have := hle y; simp only [List.map_cons, List.sum_cons, List.length_cons]; omega
  have heob : ∀ q : Queue, ((insertEob q).symbols.map (leafWeight freq)).sum =
      1 + (q.symbols.map (leafWeight freq)).sum := fun _ => rfl
  have hlen : (byteLeaves freq).symbols.length = usedBytes freq := by
    rw [Queue.symbols, leaves_symbols_length _ fun e he => (byteLeaves_entries freq e he).imp fun y h => h.2.1,
      byteLeaves_length]
  have htot := hsum (byteLeaves freq).symbols
  have hused := usedBytes_le freq
  rw [hlen] at htot
  rw [startQueue_eq]
  split
  · next h => rw [h] at htot; rw [heob, heob]; omega
  · rw [heob]; omega

theorem startQueue_weighed (freq : Vector Count 256) : Weighed freq (startQueue freq) where
  exact e he := by
    obtain ⟨y, ht, hw⟩ := startQueue_weighed_entries freq e he
    rw [hw, ht]; simp [treeWeight, CodeTree.symbols]
  total := by have := startQueue_total freq; omega
  ordered e he l r hlr := by
    obtain ⟨y, ht, -⟩ := startQueue_weighed_entries freq e he
    rw [ht] at hlr; simp [CodeTree.subtrees] at hlr

/-! ### The insertion numbers -/

/-- The insertion numbers of a queue differ, all lie below `SEQ`, and `SEQ` is far from wrapping (10_state.md R29). -/
structure Numbered (q : Queue) : Prop where
  distinct : q.entries.Pairwise fun a b => a.seq.toNat ≠ b.seq.toNat
  below : ∀ e ∈ q.entries, e.seq.toNat < q.seq.toNat
  bound : q.seq.toNat + q.entries.length ≤ 514

theorem insert_seq {q : Queue} (h : q.seq.toNat < 1023) (w : Weight) (t : CodeTree) :
    (q.insert w t).seq.toNat = q.seq.toNat + 1 := by
  simp only [Queue.insert, BitVec.toNat_add, BitVec.toNat_ofNat]; omega

/-- An insertion keeps the numbers distinct and below `SEQ`. -/
theorem insert_numbered {q : Queue} (hd : q.entries.Pairwise fun a b => a.seq.toNat ≠ b.seq.toNat)
    (hb : ∀ e ∈ q.entries, e.seq.toNat < q.seq.toNat) (h : q.seq.toNat < 1023) (w : Weight) (t : CodeTree) :
    ((q.insert w t).entries.Pairwise fun a b => a.seq.toNat ≠ b.seq.toNat) ∧
      ∀ e ∈ (q.insert w t).entries, e.seq.toNat < (q.insert w t).seq.toNat := by
  refine ⟨List.Pairwise.cons (fun e he => Nat.ne_of_gt (hb e he)) hd, ?_⟩
  rw [insert_seq h]
  simp only [Queue.insert, List.mem_cons]
  rintro e (rfl | he)
  · exact Nat.lt_succ_self _
  · exact Nat.lt_succ_of_lt (hb e he)

theorem combineOnce_numbered {q : Queue} (h : Numbered q) : Numbered (combineOnce q) := by
  unfold combineOnce
  split
  · exact h
  · next a rest hr =>
    split
    · exact h
    · next b rest' hr' =>
      have p := (removeMin_perm hr).trans ((removeMin_perm hr').cons a)
      have hd := List.pairwise_cons.mp (List.pairwise_cons.mp (h.distinct.perm p fun h => Ne.symm h)).2
      have hl := p.length_eq
      have hc := h.bound
      simp only [List.length_cons] at hl
      have hq : ({ q with entries := rest' } : Queue).seq.toNat < 1023 := by change q.seq.toNat < _; omega
      obtain ⟨h1, h2⟩ := insert_numbered (q := { q with entries := rest' }) hd.2
        (fun e he => h.below e (p.mem_iff.mpr (by simp_all))) hq (a.weight + b.weight) (.node a.tree b.tree)
      refine ⟨h1, h2, ?_⟩
      rw [insert_seq hq]
      simp only [Queue.insert, List.length_cons]; omega

theorem insertLeaves_numbered (cs : List Count) (b : Nat) (q : Queue)
    (hd : q.entries.Pairwise fun a b => a.seq.toNat ≠ b.seq.toNat) (hb : ∀ e ∈ q.entries, e.seq.toNat < q.seq.toNat)
    (hc : q.seq.toNat + cs.length < 1023) :
    ((insertLeaves cs b q).entries.Pairwise fun a b => a.seq.toNat ≠ b.seq.toNat) ∧
      ∀ e ∈ (insertLeaves cs b q).entries, e.seq.toNat < (insertLeaves cs b q).seq.toNat := by
  induction cs generalizing b q with
  | nil => exact ⟨hd, hb⟩
  | cons c cs ih =>
    simp only [List.length_cons] at hc
    unfold insertLeaves
    split
    · obtain ⟨h1, h2⟩ := insert_numbered hd hb (by omega) (c.setWidth 41) (.leaf (Fin.ofNat 257 b))
      exact ih _ _ h1 h2 (by rw [insert_seq (by omega)]; omega)
    · exact ih _ _ hd hb (by omega)

theorem startQueue_numbered (freq : Vector Count 256) : Numbered (startQueue freq) := by
  obtain ⟨d0, b0⟩ := insertLeaves_numbered freq.toList 0 { entries := [], seq := 0#10 } .nil nofun (by simp)
  have hu := usedBytes_le freq
  have hs : (byteLeaves freq).seq.toNat ≤ 256 := by
    rw [byteLeaves_seq, BitVec.toNat_ofNat]; exact (Nat.mod_le _ _).trans hu
  obtain ⟨d1, b1⟩ := insert_numbered (q := byteLeaves freq) d0 b0 (by omega) 1#41 (.leaf Config.eob)
  have h1 := insert_seq (q := byteLeaves freq) (by omega) 1#41 (.leaf Config.eob)
  have hr := startLeaves_range freq
  have hb : (startQueue freq).seq.toNat + (startQueue freq).entries.length ≤ 514 := by
    rw [startQueue_seq, startQueue_length, BitVec.toNat_ofNat]
    have := Nat.mod_le (startLeaves freq) (2 ^ 10); omega
  refine (?_ : _ ∧ _).elim fun d b => ⟨d, b, hb⟩
  change
    ((guardQueue (insertEob (byteLeaves freq))).entries.Pairwise fun a b => a.seq.toNat ≠ b.seq.toNat) ∧
      ∀ e ∈ (guardQueue (insertEob (byteLeaves freq))).entries, _ < (guardQueue (insertEob (byteLeaves freq))).seq.toNat
  unfold guardQueue
  split
  · exact insert_numbered (q := (byteLeaves freq).insert 1#41 (.leaf Config.eob)) d1 b1 (by omega) 1#41 (.leaf Config.eob)
  · exact ⟨d1, b1⟩

theorem combine_numbered (freq : Vector Count 256) (n : Nat) : Numbered (combine n (startQueue freq)) :=
  combine_keeps (fun _ h => combineOnce_numbered h) n _ (startQueue_numbered freq)

/-! ### The queue at the end -/

/-- The loop ends with one entry, whose tree is the one BUILD stores (41_tree_builder.md R127). -/
theorem endQueue_single (freq : Vector Count 256) :
    ∃ e, (endQueue freq).entries = [e] ∧ e.tree = buildTree freq := by
  have hr := startLeaves_range freq
  have hl := combine_length ((startQueue freq).entries.length - 1) (startQueue freq)
    (by rw [startQueue_length]; omega)
  change (endQueue freq).entries.length = _ ∧ _ at hl
  rw [startQueue_length] at hl
  obtain ⟨e, he⟩ := List.length_eq_one_iff.mp (by rw [hl.1]; omega : (endQueue freq).entries.length = 1)
  exact ⟨e, he, by simp [buildTree, he, removeMin, leastOf]⟩

theorem endQueue_seq (freq : Vector Count 256) : (endQueue freq).seq = BitVec.ofNat 10 (2 * startLeaves freq - 1) := by
  have hr := startLeaves_range freq
  have hl := combine_length ((startQueue freq).entries.length - 1) (startQueue freq)
    (by rw [startQueue_length]; omega)
  have h : (endQueue freq).seq = _ := hl.2
  rw [h, startQueue_seq, startQueue_length, ← BitVec.ofNat_add]
  congr 1; omega

/-- The leaves of the built tree are those of the start queue, in some order (41_tree_builder.md R128). -/
theorem buildTree_symbols (freq : Vector Count 256) : (buildTree freq).symbols.Perm (startQueue freq).symbols := by
  obtain ⟨e, he, ht⟩ := endQueue_single freq
  have := combine_symbols ((startQueue freq).entries.length - 1) (startQueue freq)
  change (endQueue freq).symbols.Perm _ at this
  rw [Queue.symbols, he] at this
  simpa [ht] using this

theorem buildTree_leaves (freq : Vector Count 256) : (buildTree freq).leaves = startLeaves freq := by
  rw [← CodeTree.symbols_length, (buildTree_symbols freq).length_eq, ← startQueue_length]
  exact leaves_symbols_length _ fun e he => (startQueue_weighed_entries freq e he).imp fun y h => h.1

/-- The loop keeps the weights exact and the order of the subtrees (41_tree_builder.md R123, R126). -/
theorem combine_weighed (freq : Vector Count 256) (n : Nat) : Weighed freq (combine n (startQueue freq)) :=
  combine_keeps (combineOnce_weighed freq) n _ (startQueue_weighed freq)

/-- A built tree has at most 513 nodes (41_tree_builder.md R128 e). -/
theorem buildTree_bounded (freq : Vector Count 256) : (buildTree freq).bounded := by
  have := startLeaves_range freq
  rw [CodeTree.bounded, CodeTree.nodes_eq, buildTree_leaves, Config.nodeCap]; omega

/-- The root of a built tree is internal (41_tree_builder.md R124, R128). -/
theorem buildTree_isLeaf (freq : Vector Count 256) : (buildTree freq).isLeaf = false := by
  have := (startLeaves_range freq).1
  have hl := buildTree_leaves freq
  cases h : buildTree freq with
  | leaf y => rw [h] at hl; simp [CodeTree.leaves] at hl; omega
  | node l r => rfl

end Sys2Proof.Machine
end

