-- ==== Sys2Proof/Laws/Codes.lean ====
section
/-! SUPPORT. The code table of a tree: each entry is the path of the last leaf with its symbol (42_code_table_generator.md
R140, R141, R143). -/

namespace Sys2Proof.Machine

theorem lastPath_leaf (z y : Sym) : (CodeTree.leaf z).lastPath y = if z = y then some [] else none := by
  by_cases h : z = y <;> simp [CodeTree.lastPath, CodeTree.paths, h]

/-- The last leaf of a tree lies on the right if any does. -/
theorem lastPath_node (l r : CodeTree) (y : Sym) :
    (CodeTree.node l r).lastPath y =
      match r.lastPath y with
      | some p => some (true :: p)
      | none => (l.lastPath y).map fun p => false :: p := by
  have hf : ∀ (b : Bool) (qs : List (BitString × Sym)),
      ((qs.map fun q => (b :: q.1, q.2)).filter fun q => q.2 = y) =
        (qs.filter fun q => q.2 = y).map fun q => (b :: q.1, q.2) := by
    intro b qs
    rw [List.filter_map]; rfl
  simp only [CodeTree.lastPath, CodeTree.paths, List.filter_append, hf]
  rw [List.getLast?_append, List.getLast?_map, List.getLast?_map]
  cases (r.paths.filter fun q => q.2 = y).getLast? <;>
    cases (l.paths.filter fun q => q.2 = y).getLast? <;> simp

/-- What the walk leaves in an entry: the path of the last leaf with that symbol under the path walked so far, else what
stood there before. -/
theorem walkCodes_get (t : CodeTree) (path : BitString) (table : CodeTable) (y : Sym) :
    (walkCodes t path table)[y.val]'y.isLt =
      match t.lastPath y with
      | some p => some (path ++ p)
      | none => table[y.val]'y.isLt := by
  induction t generalizing path table with
  | leaf z =>
    rw [walkCodes, lastPath_leaf, Vector.getElem_set]
    by_cases h : z = y
    · subst h; simp
    · have : ¬ z.val = y.val := fun hv => h (Fin.ext hv)
      simp [h, this]
  | node l r hl hr =>
    rw [walkCodes, hr, lastPath_node]
    cases hrp : r.lastPath y with
    | some p => simp
    | none =>
      simp only
      rw [hl]
      cases hlp : l.lastPath y <;> simp

/-- The table of a tree, entry by entry. -/
theorem codesOf_get (t : CodeTree) (y : Sym) : (codesOf t)[y.val]'y.isLt = t.lastPath y := by
  rw [codesOf, walkCodes_get]
  cases t.lastPath y <;> simp

/-- A symbol has a last path exactly when some leaf holds it. -/
theorem lastPath_none (t : CodeTree) (y : Sym) : t.lastPath y = none ↔ y ∉ t.symbols := by
  rw [CodeTree.lastPath, ← CodeTree.paths_symbols]
  simp only [Option.map_eq_none_iff, List.getLast?_eq_none_iff, List.filter_eq_nil_iff, List.mem_map, not_exists,
    not_and, decide_eq_true_eq]

/-- The last path leads to a leaf with its symbol. -/
theorem lastPath_isCode {t : CodeTree} {y : Sym} {p : BitString} (h : t.lastPath y = some p) : t.isCode p y := by
  rw [CodeTree.lastPath] at h
  obtain ⟨⟨q, z⟩, hq, rfl⟩ := Option.map_eq_some_iff.mp h
  have hm := List.mem_of_getLast? hq
  rw [List.mem_filter] at hm
  obtain ⟨hm, hz⟩ := hm
  have hz : z = y := by simpa using hz
  rw [← hz]
  exact (t.mem_paths _ _).mp hm

end Sys2Proof.Machine
end

