-- ==== Sys2Proof/Laws/State.lean ====
section
/-! SUPPORT. For each named update of the state, what every field reads afterwards. -/

namespace Sys2Proof.Machine

/-! ### setFreq -/

@[simp] theorem setFreq_freq (s : State) (b : Byte) (v : Count) :
    (setFreq s b v).freq = s.freq.set b.toNat v b.isLt := rfl
@[simp] theorem setFreq_tree (s : State) (b : Byte) (v : Count) : (setFreq s b v).tree = s.tree := rfl
@[simp] theorem setFreq_code (s : State) (b : Byte) (v : Count) : (setFreq s b v).code = s.code := rfl
@[simp] theorem setFreq_pq (s : State) (b : Byte) (v : Count) : (setFreq s b v).pq = s.pq := rfl
@[simp] theorem setFreq_seq (s : State) (b : Byte) (v : Count) : (setFreq s b v).seq = s.seq := rfl
@[simp] theorem setFreq_cur (s : State) (b : Byte) (v : Count) : (setFreq s b v).cur = s.cur := rfl
@[simp] theorem setFreq_nnode (s : State) (b : Byte) (v : Count) : (setFreq s b v).nnode = s.nnode := rfl
@[simp] theorem setFreq_stack (s : State) (b : Byte) (v : Count) : (setFreq s b v).stack = s.stack := rfl
@[simp] theorem setFreq_status (s : State) (b : Byte) (v : Count) : (setFreq s b v).status = s.status := rfl
@[simp] theorem setFreq_errcode (s : State) (b : Byte) (v : Count) : (setFreq s b v).errcode = s.errcode := rfl
@[simp] theorem setFreq_errcmd (s : State) (b : Byte) (v : Count) : (setFreq s b v).errcmd = s.errcmd := rfl
@[simp] theorem setFreq_phase (s : State) (b : Byte) (v : Count) : (setFreq s b v).phase = s.phase := rfl
@[simp] theorem setFreq_inp (s : State) (b : Byte) (v : Count) : (setFreq s b v).inp = s.inp := rfl
@[simp] theorem setFreq_out (s : State) (b : Byte) (v : Count) : (setFreq s b v).out = s.out := rfl
@[simp] theorem setFreq_port (s : State) (b : Byte) (v : Count) : (setFreq s b v).port = s.port := rfl
@[simp] theorem setFreq_draws (s : State) (b : Byte) (v : Count) : (setFreq s b v).draws = s.draws := rfl

/-! ### clearValid -/

@[simp] theorem clearValid_freq (s : State) : (clearValid s).freq = s.freq := rfl
@[simp] theorem clearValid_tree (s : State) : (clearValid s).tree = s.tree := rfl
@[simp] theorem clearValid_code (s : State) : (clearValid s).code = s.code := rfl
@[simp] theorem clearValid_pq (s : State) : (clearValid s).pq = s.pq := rfl
@[simp] theorem clearValid_seq (s : State) : (clearValid s).seq = s.seq := rfl
@[simp] theorem clearValid_cur (s : State) : (clearValid s).cur = s.cur := rfl
@[simp] theorem clearValid_nnode (s : State) : (clearValid s).nnode = s.nnode := rfl
@[simp] theorem clearValid_stack (s : State) : (clearValid s).stack = s.stack := rfl
@[simp] theorem clearValid_status (s : State) :
    (clearValid s).status = { s.status with freqValid := false, treeValid := false, codeValid := false } := rfl
@[simp] theorem clearValid_errcode (s : State) : (clearValid s).errcode = s.errcode := rfl
@[simp] theorem clearValid_errcmd (s : State) : (clearValid s).errcmd = s.errcmd := rfl
@[simp] theorem clearValid_phase (s : State) : (clearValid s).phase = s.phase := rfl
@[simp] theorem clearValid_inp (s : State) : (clearValid s).inp = s.inp := rfl
@[simp] theorem clearValid_out (s : State) : (clearValid s).out = s.out := rfl
@[simp] theorem clearValid_port (s : State) : (clearValid s).port = s.port := rfl
@[simp] theorem clearValid_draws (s : State) : (clearValid s).draws = s.draws := rfl

/-! ### markFreq -/

@[simp] theorem markFreq_freq (s : State) : (markFreq s).freq = s.freq := rfl
@[simp] theorem markFreq_tree (s : State) : (markFreq s).tree = s.tree := rfl
@[simp] theorem markFreq_code (s : State) : (markFreq s).code = s.code := rfl
@[simp] theorem markFreq_pq (s : State) : (markFreq s).pq = s.pq := rfl
@[simp] theorem markFreq_seq (s : State) : (markFreq s).seq = s.seq := rfl
@[simp] theorem markFreq_cur (s : State) : (markFreq s).cur = s.cur := rfl
@[simp] theorem markFreq_nnode (s : State) : (markFreq s).nnode = s.nnode := rfl
@[simp] theorem markFreq_stack (s : State) : (markFreq s).stack = s.stack := rfl
@[simp] theorem markFreq_status (s : State) : (markFreq s).status = { s.status with freqValid := true } := rfl
@[simp] theorem markFreq_errcode (s : State) : (markFreq s).errcode = s.errcode := rfl
@[simp] theorem markFreq_errcmd (s : State) : (markFreq s).errcmd = s.errcmd := rfl
@[simp] theorem markFreq_phase (s : State) : (markFreq s).phase = s.phase := rfl
@[simp] theorem markFreq_inp (s : State) : (markFreq s).inp = s.inp := rfl
@[simp] theorem markFreq_out (s : State) : (markFreq s).out = s.out := rfl
@[simp] theorem markFreq_port (s : State) : (markFreq s).port = s.port := rfl
@[simp] theorem markFreq_draws (s : State) : (markFreq s).draws = s.draws := rfl

/-! ### dropTree -/

@[simp] theorem dropTree_freq (s : State) : (dropTree s).freq = s.freq := rfl
@[simp] theorem dropTree_tree (s : State) : (dropTree s).tree = s.tree := rfl
@[simp] theorem dropTree_code (s : State) : (dropTree s).code = s.code := rfl
@[simp] theorem dropTree_pq (s : State) : (dropTree s).pq = s.pq := rfl
@[simp] theorem dropTree_seq (s : State) : (dropTree s).seq = s.seq := rfl
@[simp] theorem dropTree_cur (s : State) : (dropTree s).cur = s.cur := rfl
@[simp] theorem dropTree_nnode (s : State) : (dropTree s).nnode = s.nnode := rfl
@[simp] theorem dropTree_stack (s : State) : (dropTree s).stack = s.stack := rfl
@[simp] theorem dropTree_status (s : State) :
    (dropTree s).status = { s.status with treeValid := false, codeValid := false } := rfl
@[simp] theorem dropTree_errcode (s : State) : (dropTree s).errcode = s.errcode := rfl
@[simp] theorem dropTree_errcmd (s : State) : (dropTree s).errcmd = s.errcmd := rfl
@[simp] theorem dropTree_phase (s : State) : (dropTree s).phase = s.phase := rfl
@[simp] theorem dropTree_inp (s : State) : (dropTree s).inp = s.inp := rfl
@[simp] theorem dropTree_out (s : State) : (dropTree s).out = s.out := rfl
@[simp] theorem dropTree_port (s : State) : (dropTree s).port = s.port := rfl
@[simp] theorem dropTree_draws (s : State) : (dropTree s).draws = s.draws := rfl

/-! ### putTree -/

@[simp] theorem putTree_freq (t : CodeTree) (s : State) : (putTree t s).freq = s.freq := rfl
@[simp] theorem putTree_tree (t : CodeTree) (s : State) : (putTree t s).tree = some t := rfl
@[simp] theorem putTree_code (t : CodeTree) (s : State) : (putTree t s).code = s.code := rfl
@[simp] theorem putTree_pq (t : CodeTree) (s : State) : (putTree t s).pq = s.pq := rfl
@[simp] theorem putTree_seq (t : CodeTree) (s : State) : (putTree t s).seq = s.seq := rfl
@[simp] theorem putTree_cur (t : CodeTree) (s : State) : (putTree t s).cur = s.cur := rfl
@[simp] theorem putTree_nnode (t : CodeTree) (s : State) : (putTree t s).nnode = s.nnode := rfl
@[simp] theorem putTree_stack (t : CodeTree) (s : State) : (putTree t s).stack = s.stack := rfl
@[simp] theorem putTree_status (t : CodeTree) (s : State) :
    (putTree t s).status = { s.status with treeValid := true } := rfl
@[simp] theorem putTree_errcode (t : CodeTree) (s : State) : (putTree t s).errcode = s.errcode := rfl
@[simp] theorem putTree_errcmd (t : CodeTree) (s : State) : (putTree t s).errcmd = s.errcmd := rfl
@[simp] theorem putTree_phase (t : CodeTree) (s : State) : (putTree t s).phase = s.phase := rfl
@[simp] theorem putTree_inp (t : CodeTree) (s : State) : (putTree t s).inp = s.inp := rfl
@[simp] theorem putTree_out (t : CodeTree) (s : State) : (putTree t s).out = s.out := rfl
@[simp] theorem putTree_port (t : CodeTree) (s : State) : (putTree t s).port = s.port := rfl
@[simp] theorem putTree_draws (t : CodeTree) (s : State) : (putTree t s).draws = s.draws := rfl

/-! ### dropCode -/

@[simp] theorem dropCode_freq (s : State) : (dropCode s).freq = s.freq := rfl
@[simp] theorem dropCode_tree (s : State) : (dropCode s).tree = s.tree := rfl
@[simp] theorem dropCode_code (s : State) : (dropCode s).code = s.code := rfl
@[simp] theorem dropCode_pq (s : State) : (dropCode s).pq = s.pq := rfl
@[simp] theorem dropCode_seq (s : State) : (dropCode s).seq = s.seq := rfl
@[simp] theorem dropCode_cur (s : State) : (dropCode s).cur = s.cur := rfl
@[simp] theorem dropCode_nnode (s : State) : (dropCode s).nnode = s.nnode := rfl
@[simp] theorem dropCode_stack (s : State) : (dropCode s).stack = s.stack := rfl
@[simp] theorem dropCode_status (s : State) : (dropCode s).status = { s.status with codeValid := false } := rfl
@[simp] theorem dropCode_errcode (s : State) : (dropCode s).errcode = s.errcode := rfl
@[simp] theorem dropCode_errcmd (s : State) : (dropCode s).errcmd = s.errcmd := rfl
@[simp] theorem dropCode_phase (s : State) : (dropCode s).phase = s.phase := rfl
@[simp] theorem dropCode_inp (s : State) : (dropCode s).inp = s.inp := rfl
@[simp] theorem dropCode_out (s : State) : (dropCode s).out = s.out := rfl
@[simp] theorem dropCode_port (s : State) : (dropCode s).port = s.port := rfl
@[simp] theorem dropCode_draws (s : State) : (dropCode s).draws = s.draws := rfl

/-! ### markCode -/

@[simp] theorem markCode_freq (s : State) : (markCode s).freq = s.freq := rfl
@[simp] theorem markCode_tree (s : State) : (markCode s).tree = s.tree := rfl
@[simp] theorem markCode_code (s : State) : (markCode s).code = s.code := rfl
@[simp] theorem markCode_pq (s : State) : (markCode s).pq = s.pq := rfl
@[simp] theorem markCode_seq (s : State) : (markCode s).seq = s.seq := rfl
@[simp] theorem markCode_cur (s : State) : (markCode s).cur = s.cur := rfl
@[simp] theorem markCode_nnode (s : State) : (markCode s).nnode = s.nnode := rfl
@[simp] theorem markCode_stack (s : State) : (markCode s).stack = s.stack := rfl
@[simp] theorem markCode_status (s : State) : (markCode s).status = { s.status with codeValid := true } := rfl
@[simp] theorem markCode_errcode (s : State) : (markCode s).errcode = s.errcode := rfl
@[simp] theorem markCode_errcmd (s : State) : (markCode s).errcmd = s.errcmd := rfl
@[simp] theorem markCode_phase (s : State) : (markCode s).phase = s.phase := rfl
@[simp] theorem markCode_inp (s : State) : (markCode s).inp = s.inp := rfl
@[simp] theorem markCode_out (s : State) : (markCode s).out = s.out := rfl
@[simp] theorem markCode_port (s : State) : (markCode s).port = s.port := rfl
@[simp] theorem markCode_draws (s : State) : (markCode s).draws = s.draws := rfl

/-! ### inClose -/

@[simp] theorem inClose_freq (s : State) : (inClose s).freq = s.freq := rfl
@[simp] theorem inClose_tree (s : State) : (inClose s).tree = s.tree := rfl
@[simp] theorem inClose_code (s : State) : (inClose s).code = s.code := rfl
@[simp] theorem inClose_pq (s : State) : (inClose s).pq = s.pq := rfl
@[simp] theorem inClose_seq (s : State) : (inClose s).seq = s.seq := rfl
@[simp] theorem inClose_cur (s : State) : (inClose s).cur = s.cur := rfl
@[simp] theorem inClose_nnode (s : State) : (inClose s).nnode = s.nnode := rfl
@[simp] theorem inClose_stack (s : State) : (inClose s).stack = s.stack := rfl
@[simp] theorem inClose_status (s : State) : (inClose s).status = s.status := rfl
@[simp] theorem inClose_errcode (s : State) : (inClose s).errcode = s.errcode := rfl
@[simp] theorem inClose_errcmd (s : State) : (inClose s).errcmd = s.errcmd := rfl
@[simp] theorem inClose_phase (s : State) : (inClose s).phase = s.phase := rfl
@[simp] theorem inClose_inp (s : State) : (inClose s).inp = { s.inp with isOpen := false } := rfl
@[simp] theorem inClose_out (s : State) : (inClose s).out = s.out := rfl
@[simp] theorem inClose_port (s : State) : (inClose s).port = s.port := rfl
@[simp] theorem inClose_draws (s : State) : (inClose s).draws = s.draws := rfl

/-! ### cleardata -/

@[simp] theorem cleardata_freq (s : State) : (cleardata s).freq = Vector.replicate 256 0#32 := rfl
@[simp] theorem cleardata_tree (s : State) : (cleardata s).tree = none := rfl
@[simp] theorem cleardata_code (s : State) : (cleardata s).code = Vector.replicate 257 none := rfl
@[simp] theorem cleardata_pq (s : State) : (cleardata s).pq = [] := rfl
@[simp] theorem cleardata_seq (s : State) : (cleardata s).seq = 0#10 := rfl
@[simp] theorem cleardata_cur (s : State) : (cleardata s).cur = s.cur := rfl
@[simp] theorem cleardata_nnode (s : State) : (cleardata s).nnode = 0#10 := rfl
@[simp] theorem cleardata_stack (s : State) : (cleardata s).stack = s.stack := rfl
@[simp] theorem cleardata_status (s : State) :
    (cleardata s).status = { s.status with freqValid := false, treeValid := false, codeValid := false } := rfl
@[simp] theorem cleardata_errcode (s : State) : (cleardata s).errcode = s.errcode := rfl
@[simp] theorem cleardata_errcmd (s : State) : (cleardata s).errcmd = s.errcmd := rfl
@[simp] theorem cleardata_phase (s : State) : (cleardata s).phase = s.phase := rfl
@[simp] theorem cleardata_inp (s : State) : (cleardata s).inp = s.inp := rfl
@[simp] theorem cleardata_out (s : State) : (cleardata s).out = s.out := rfl
@[simp] theorem cleardata_port (s : State) : (cleardata s).port = s.port := rfl
@[simp] theorem cleardata_draws (s : State) : (cleardata s).draws = s.draws := rfl

/-! ### atStep -/

@[simp] theorem atStep_freq (c p : Cmd) (s : State) : (atStep c p s).freq = s.freq := rfl
@[simp] theorem atStep_tree (c p : Cmd) (s : State) : (atStep c p s).tree = s.tree := rfl
@[simp] theorem atStep_code (c p : Cmd) (s : State) : (atStep c p s).code = s.code := rfl
@[simp] theorem atStep_pq (c p : Cmd) (s : State) : (atStep c p s).pq = s.pq := rfl
@[simp] theorem atStep_seq (c p : Cmd) (s : State) : (atStep c p s).seq = s.seq := rfl
@[simp] theorem atStep_cur (c p : Cmd) (s : State) : (atStep c p s).cur = s.cur := rfl
@[simp] theorem atStep_nnode (c p : Cmd) (s : State) : (atStep c p s).nnode = s.nnode := rfl
@[simp] theorem atStep_stack (c p : Cmd) (s : State) : (atStep c p s).stack = s.stack := rfl
@[simp] theorem atStep_status (c p : Cmd) (s : State) : (atStep c p s).status = s.status := rfl
@[simp] theorem atStep_errcode (c p : Cmd) (s : State) : (atStep c p s).errcode = s.errcode := rfl
@[simp] theorem atStep_errcmd (c p : Cmd) (s : State) : (atStep c p s).errcmd = s.errcmd := rfl
@[simp] theorem atStep_phase (c p : Cmd) (s : State) : (atStep c p s).phase = .run c p := rfl
@[simp] theorem atStep_inp (c p : Cmd) (s : State) : (atStep c p s).inp = s.inp := rfl
@[simp] theorem atStep_out (c p : Cmd) (s : State) : (atStep c p s).out = s.out := rfl
@[simp] theorem atStep_port (c p : Cmd) (s : State) : (atStep c p s).port = s.port := rfl
@[simp] theorem atStep_draws (c p : Cmd) (s : State) : (atStep c p s).draws = s.draws := rfl

/-! ### accept -/

@[simp] theorem accept_freq (c : Cmd) (s : State) : (accept c s).freq = s.freq := rfl
@[simp] theorem accept_tree (c : Cmd) (s : State) : (accept c s).tree = s.tree := rfl
@[simp] theorem accept_code (c : Cmd) (s : State) : (accept c s).code = s.code := rfl
@[simp] theorem accept_pq (c : Cmd) (s : State) : (accept c s).pq = s.pq := rfl
@[simp] theorem accept_seq (c : Cmd) (s : State) : (accept c s).seq = s.seq := rfl
@[simp] theorem accept_cur (c : Cmd) (s : State) : (accept c s).cur = s.cur := rfl
@[simp] theorem accept_nnode (c : Cmd) (s : State) : (accept c s).nnode = s.nnode := rfl
@[simp] theorem accept_stack (c : Cmd) (s : State) : (accept c s).stack = s.stack := rfl
@[simp] theorem accept_status (c : Cmd) (s : State) :
    (accept c s).status = { s.status with busy := true, done := false } := rfl
@[simp] theorem accept_errcode (c : Cmd) (s : State) : (accept c s).errcode = s.errcode := rfl
@[simp] theorem accept_errcmd (c : Cmd) (s : State) : (accept c s).errcmd = s.errcmd := rfl
@[simp] theorem accept_phase (c : Cmd) (s : State) : (accept c s).phase = .run c c := rfl
@[simp] theorem accept_inp (c : Cmd) (s : State) : (accept c s).inp = s.inp := rfl
@[simp] theorem accept_out (c : Cmd) (s : State) : (accept c s).out = s.out := rfl
@[simp] theorem accept_port (c : Cmd) (s : State) : (accept c s).port = s.port := rfl
@[simp] theorem accept_draws (c : Cmd) (s : State) : (accept c s).draws = s.draws := rfl

/-! ### finish -/

@[simp] theorem finish_freq (s : State) : (finish s).freq = s.freq := rfl
@[simp] theorem finish_tree (s : State) : (finish s).tree = s.tree := rfl
@[simp] theorem finish_code (s : State) : (finish s).code = s.code := rfl
@[simp] theorem finish_pq (s : State) : (finish s).pq = s.pq := rfl
@[simp] theorem finish_seq (s : State) : (finish s).seq = s.seq := rfl
@[simp] theorem finish_cur (s : State) : (finish s).cur = s.cur := rfl
@[simp] theorem finish_nnode (s : State) : (finish s).nnode = s.nnode := rfl
@[simp] theorem finish_stack (s : State) : (finish s).stack = [] := rfl
@[simp] theorem finish_status (s : State) : (finish s).status = { s.status with busy := false, done := true } := rfl
@[simp] theorem finish_errcode (s : State) : (finish s).errcode = s.errcode := rfl
@[simp] theorem finish_errcmd (s : State) : (finish s).errcmd = s.errcmd := rfl
@[simp] theorem finish_phase (s : State) : (finish s).phase = .idle := rfl
@[simp] theorem finish_inp (s : State) : (finish s).inp = s.inp := rfl
@[simp] theorem finish_out (s : State) : (finish s).out = s.out := rfl
@[simp] theorem finish_port (s : State) : (finish s).port = s.port := rfl
@[simp] theorem finish_draws (s : State) : (finish s).draws = s.draws := rfl

/-! ### faultEntry -/

@[simp] theorem faultEntry_freq (e : FaultKind) (op : BitVec 4) (s : State) : (faultEntry e op s).freq = s.freq := rfl
@[simp] theorem faultEntry_tree (e : FaultKind) (op : BitVec 4) (s : State) : (faultEntry e op s).tree = s.tree := rfl
@[simp] theorem faultEntry_code (e : FaultKind) (op : BitVec 4) (s : State) : (faultEntry e op s).code = s.code := rfl
@[simp] theorem faultEntry_pq (e : FaultKind) (op : BitVec 4) (s : State) : (faultEntry e op s).pq = s.pq := rfl
@[simp] theorem faultEntry_seq (e : FaultKind) (op : BitVec 4) (s : State) : (faultEntry e op s).seq = s.seq := rfl
@[simp] theorem faultEntry_cur (e : FaultKind) (op : BitVec 4) (s : State) : (faultEntry e op s).cur = s.cur := rfl
@[simp] theorem faultEntry_nnode (e : FaultKind) (op : BitVec 4) (s : State) :
    (faultEntry e op s).nnode = s.nnode := rfl
@[simp] theorem faultEntry_stack (e : FaultKind) (op : BitVec 4) (s : State) : (faultEntry e op s).stack = [] := rfl
@[simp] theorem faultEntry_status (e : FaultKind) (op : BitVec 4) (s : State) :
    (faultEntry e op s).status = { s.status with busy := false, done := true, err := true } := rfl
@[simp] theorem faultEntry_errcode (e : FaultKind) (op : BitVec 4) (s : State) :
    (faultEntry e op s).errcode = e.code := rfl
@[simp] theorem faultEntry_errcmd (e : FaultKind) (op : BitVec 4) (s : State) : (faultEntry e op s).errcmd = op := rfl
@[simp] theorem faultEntry_phase (e : FaultKind) (op : BitVec 4) (s : State) : (faultEntry e op s).phase = .idle := rfl
@[simp] theorem faultEntry_inp (e : FaultKind) (op : BitVec 4) (s : State) : (faultEntry e op s).inp = s.inp := rfl
@[simp] theorem faultEntry_out (e : FaultKind) (op : BitVec 4) (s : State) : (faultEntry e op s).out = s.out := rfl
@[simp] theorem faultEntry_port (e : FaultKind) (op : BitVec 4) (s : State) : (faultEntry e op s).port = s.port := rfl
@[simp] theorem faultEntry_draws (e : FaultKind) (op : BitVec 4) (s : State) :
    (faultEntry e op s).draws = s.draws := rfl

/-! ### clearAll -/

@[simp] theorem clearAll_freq (s : State) : (clearAll s).freq = Vector.replicate 256 0#32 := rfl
@[simp] theorem clearAll_tree (s : State) : (clearAll s).tree = none := rfl
@[simp] theorem clearAll_code (s : State) : (clearAll s).code = Vector.replicate 257 none := rfl
@[simp] theorem clearAll_pq (s : State) : (clearAll s).pq = [] := rfl
@[simp] theorem clearAll_seq (s : State) : (clearAll s).seq = 0#10 := rfl
@[simp] theorem clearAll_cur (s : State) : (clearAll s).cur = s.cur := rfl
@[simp] theorem clearAll_nnode (s : State) : (clearAll s).nnode = 0#10 := rfl
@[simp] theorem clearAll_stack (s : State) : (clearAll s).stack = [] := rfl
@[simp] theorem clearAll_status (s : State) : (clearAll s).status = State.reset.status := rfl
@[simp] theorem clearAll_errcode (s : State) : (clearAll s).errcode = 0#4 := rfl
@[simp] theorem clearAll_errcmd (s : State) : (clearAll s).errcmd = 0#4 := rfl
@[simp] theorem clearAll_phase (s : State) : (clearAll s).phase = .idle := rfl
@[simp] theorem clearAll_inp (s : State) : (clearAll s).inp = s.inp := rfl
@[simp] theorem clearAll_out (s : State) : (clearAll s).out = s.out := rfl
@[simp] theorem clearAll_port (s : State) : (clearAll s).port = s.port := rfl
@[simp] theorem clearAll_draws (s : State) : (clearAll s).draws = s.draws := rfl

/-! ### ignored -/

@[simp] theorem ignored_freq (s : State) : (ignored s).freq = s.freq := rfl
@[simp] theorem ignored_tree (s : State) : (ignored s).tree = s.tree := rfl
@[simp] theorem ignored_code (s : State) : (ignored s).code = s.code := rfl
@[simp] theorem ignored_pq (s : State) : (ignored s).pq = s.pq := rfl
@[simp] theorem ignored_seq (s : State) : (ignored s).seq = s.seq := rfl
@[simp] theorem ignored_cur (s : State) : (ignored s).cur = s.cur := rfl
@[simp] theorem ignored_nnode (s : State) : (ignored s).nnode = s.nnode := rfl
@[simp] theorem ignored_stack (s : State) : (ignored s).stack = s.stack := rfl
@[simp] theorem ignored_status (s : State) : (ignored s).status = { s.status with done := true } := rfl
@[simp] theorem ignored_errcode (s : State) : (ignored s).errcode = s.errcode := rfl
@[simp] theorem ignored_errcmd (s : State) : (ignored s).errcmd = s.errcmd := rfl
@[simp] theorem ignored_phase (s : State) : (ignored s).phase = s.phase := rfl
@[simp] theorem ignored_inp (s : State) : (ignored s).inp = s.inp := rfl
@[simp] theorem ignored_out (s : State) : (ignored s).out = s.out := rfl
@[simp] theorem ignored_port (s : State) : (ignored s).port = s.port := rfl
@[simp] theorem ignored_draws (s : State) : (ignored s).draws = s.draws := rfl

/-! ### resetBlock -/

@[simp] theorem resetBlock_freq (s : State) : (resetBlock s).freq = State.reset.freq := rfl
@[simp] theorem resetBlock_tree (s : State) : (resetBlock s).tree = State.reset.tree := rfl
@[simp] theorem resetBlock_code (s : State) : (resetBlock s).code = State.reset.code := rfl
@[simp] theorem resetBlock_pq (s : State) : (resetBlock s).pq = State.reset.pq := rfl
@[simp] theorem resetBlock_seq (s : State) : (resetBlock s).seq = State.reset.seq := rfl
@[simp] theorem resetBlock_cur (s : State) : (resetBlock s).cur = State.reset.cur := rfl
@[simp] theorem resetBlock_nnode (s : State) : (resetBlock s).nnode = State.reset.nnode := rfl
@[simp] theorem resetBlock_stack (s : State) : (resetBlock s).stack = State.reset.stack := rfl
@[simp] theorem resetBlock_status (s : State) : (resetBlock s).status = State.reset.status := rfl
@[simp] theorem resetBlock_errcode (s : State) : (resetBlock s).errcode = State.reset.errcode := rfl
@[simp] theorem resetBlock_errcmd (s : State) : (resetBlock s).errcmd = State.reset.errcmd := rfl
@[simp] theorem resetBlock_phase (s : State) : (resetBlock s).phase = State.reset.phase := rfl
@[simp] theorem resetBlock_inp (s : State) : (resetBlock s).inp = s.inp := rfl
@[simp] theorem resetBlock_out (s : State) : (resetBlock s).out = s.out := rfl
@[simp] theorem resetBlock_port (s : State) : (resetBlock s).port = s.port := rfl
@[simp] theorem resetBlock_draws (s : State) : (resetBlock s).draws = s.draws := rfl

/-! ### countInit -/

@[simp] theorem countInit_freq (s : State) : (countInit s).freq = Vector.replicate 256 0#32 := rfl
@[simp] theorem countInit_tree (s : State) : (countInit s).tree = s.tree := rfl
@[simp] theorem countInit_code (s : State) : (countInit s).code = s.code := rfl
@[simp] theorem countInit_pq (s : State) : (countInit s).pq = s.pq := rfl
@[simp] theorem countInit_seq (s : State) : (countInit s).seq = s.seq := rfl
@[simp] theorem countInit_cur (s : State) : (countInit s).cur = s.cur := rfl
@[simp] theorem countInit_nnode (s : State) : (countInit s).nnode = s.nnode := rfl
@[simp] theorem countInit_stack (s : State) : (countInit s).stack = s.stack := rfl
@[simp] theorem countInit_status (s : State) :
    (countInit s).status = { s.status with freqValid := false, treeValid := false, codeValid := false } := rfl
@[simp] theorem countInit_errcode (s : State) : (countInit s).errcode = s.errcode := rfl
@[simp] theorem countInit_errcmd (s : State) : (countInit s).errcmd = s.errcmd := rfl
@[simp] theorem countInit_phase (s : State) : (countInit s).phase = s.phase := rfl
@[simp] theorem countInit_inp (s : State) : (countInit s).inp = s.inp := rfl
@[simp] theorem countInit_out (s : State) : (countInit s).out = s.out := rfl
@[simp] theorem countInit_port (s : State) : (countInit s).port = s.port := rfl
@[simp] theorem countInit_draws (s : State) : (countInit s).draws = s.draws := rfl

/-! ### rdtreeInit -/

@[simp] theorem rdtreeInit_freq (s : State) : (rdtreeInit s).freq = s.freq := rfl
@[simp] theorem rdtreeInit_tree (s : State) : (rdtreeInit s).tree = none := rfl
@[simp] theorem rdtreeInit_code (s : State) : (rdtreeInit s).code = s.code := rfl
@[simp] theorem rdtreeInit_pq (s : State) : (rdtreeInit s).pq = s.pq := rfl
@[simp] theorem rdtreeInit_seq (s : State) : (rdtreeInit s).seq = s.seq := rfl
@[simp] theorem rdtreeInit_cur (s : State) : (rdtreeInit s).cur = s.cur := rfl
@[simp] theorem rdtreeInit_nnode (s : State) : (rdtreeInit s).nnode = 0#10 := rfl
@[simp] theorem rdtreeInit_stack (s : State) : (rdtreeInit s).stack = [] := rfl
@[simp] theorem rdtreeInit_status (s : State) :
    (rdtreeInit s).status = { s.status with treeValid := false, codeValid := false } := rfl
@[simp] theorem rdtreeInit_errcode (s : State) : (rdtreeInit s).errcode = s.errcode := rfl
@[simp] theorem rdtreeInit_errcmd (s : State) : (rdtreeInit s).errcmd = s.errcmd := rfl
@[simp] theorem rdtreeInit_phase (s : State) : (rdtreeInit s).phase = s.phase := rfl
@[simp] theorem rdtreeInit_inp (s : State) : (rdtreeInit s).inp = s.inp := rfl
@[simp] theorem rdtreeInit_out (s : State) : (rdtreeInit s).out = s.out := rfl
@[simp] theorem rdtreeInit_port (s : State) : (rdtreeInit s).port = s.port := rfl
@[simp] theorem rdtreeInit_draws (s : State) : (rdtreeInit s).draws = s.draws := rfl

/-! ### bindInput -/

@[simp] theorem bindInput_freq (bytes : List Byte) (s : State) : (bindInput bytes s).freq = s.freq := rfl
@[simp] theorem bindInput_tree (bytes : List Byte) (s : State) : (bindInput bytes s).tree = s.tree := rfl
@[simp] theorem bindInput_code (bytes : List Byte) (s : State) : (bindInput bytes s).code = s.code := rfl
@[simp] theorem bindInput_pq (bytes : List Byte) (s : State) : (bindInput bytes s).pq = s.pq := rfl
@[simp] theorem bindInput_seq (bytes : List Byte) (s : State) : (bindInput bytes s).seq = s.seq := rfl
@[simp] theorem bindInput_cur (bytes : List Byte) (s : State) : (bindInput bytes s).cur = s.cur := rfl
@[simp] theorem bindInput_nnode (bytes : List Byte) (s : State) : (bindInput bytes s).nnode = s.nnode := rfl
@[simp] theorem bindInput_stack (bytes : List Byte) (s : State) : (bindInput bytes s).stack = s.stack := rfl
@[simp] theorem bindInput_status (bytes : List Byte) (s : State) : (bindInput bytes s).status = s.status := rfl
@[simp] theorem bindInput_errcode (bytes : List Byte) (s : State) : (bindInput bytes s).errcode = s.errcode := rfl
@[simp] theorem bindInput_errcmd (bytes : List Byte) (s : State) : (bindInput bytes s).errcmd = s.errcmd := rfl
@[simp] theorem bindInput_phase (bytes : List Byte) (s : State) : (bindInput bytes s).phase = s.phase := rfl
@[simp] theorem bindInput_inp (bytes : List Byte) (s : State) :
    (bindInput bytes s).inp = { bits := bitsOfBytes bytes, pos := 0, isOpen := true } := rfl
@[simp] theorem bindInput_out (bytes : List Byte) (s : State) : (bindInput bytes s).out = s.out := rfl
@[simp] theorem bindInput_port (bytes : List Byte) (s : State) : (bindInput bytes s).port = s.port := rfl
@[simp] theorem bindInput_draws (bytes : List Byte) (s : State) : (bindInput bytes s).draws = s.draws := rfl

/-! ### changeInput -/

@[simp] theorem changeInput_freq (bytes : List Byte) (s : State) : (changeInput bytes s).freq = s.freq := rfl
@[simp] theorem changeInput_tree (bytes : List Byte) (s : State) : (changeInput bytes s).tree = s.tree := rfl
@[simp] theorem changeInput_code (bytes : List Byte) (s : State) : (changeInput bytes s).code = s.code := rfl
@[simp] theorem changeInput_pq (bytes : List Byte) (s : State) : (changeInput bytes s).pq = s.pq := rfl
@[simp] theorem changeInput_seq (bytes : List Byte) (s : State) : (changeInput bytes s).seq = s.seq := rfl
@[simp] theorem changeInput_cur (bytes : List Byte) (s : State) : (changeInput bytes s).cur = s.cur := rfl
@[simp] theorem changeInput_nnode (bytes : List Byte) (s : State) : (changeInput bytes s).nnode = s.nnode := rfl
@[simp] theorem changeInput_stack (bytes : List Byte) (s : State) : (changeInput bytes s).stack = s.stack := rfl
@[simp] theorem changeInput_status (bytes : List Byte) (s : State) : (changeInput bytes s).status = s.status := rfl
@[simp] theorem changeInput_errcode (bytes : List Byte) (s : State) : (changeInput bytes s).errcode = s.errcode := rfl
@[simp] theorem changeInput_errcmd (bytes : List Byte) (s : State) : (changeInput bytes s).errcmd = s.errcmd := rfl
@[simp] theorem changeInput_phase (bytes : List Byte) (s : State) : (changeInput bytes s).phase = s.phase := rfl
@[simp] theorem changeInput_inp (bytes : List Byte) (s : State) :
    (changeInput bytes s).inp = { s.inp with bits := bitsOfBytes bytes, pos := min s.inp.pos (bitsOfBytes bytes).length } := rfl
@[simp] theorem changeInput_out (bytes : List Byte) (s : State) : (changeInput bytes s).out = s.out := rfl
@[simp] theorem changeInput_port (bytes : List Byte) (s : State) : (changeInput bytes s).port = s.port := rfl
@[simp] theorem changeInput_draws (bytes : List Byte) (s : State) : (changeInput bytes s).draws = s.draws := rfl

/-! ### bindOutput -/

@[simp] theorem bindOutput_freq (s : State) : (bindOutput s).freq = s.freq := rfl
@[simp] theorem bindOutput_tree (s : State) : (bindOutput s).tree = s.tree := rfl
@[simp] theorem bindOutput_code (s : State) : (bindOutput s).code = s.code := rfl
@[simp] theorem bindOutput_pq (s : State) : (bindOutput s).pq = s.pq := rfl
@[simp] theorem bindOutput_seq (s : State) : (bindOutput s).seq = s.seq := rfl
@[simp] theorem bindOutput_cur (s : State) : (bindOutput s).cur = s.cur := rfl
@[simp] theorem bindOutput_nnode (s : State) : (bindOutput s).nnode = s.nnode := rfl
@[simp] theorem bindOutput_stack (s : State) : (bindOutput s).stack = s.stack := rfl
@[simp] theorem bindOutput_status (s : State) : (bindOutput s).status = s.status := rfl
@[simp] theorem bindOutput_errcode (s : State) : (bindOutput s).errcode = s.errcode := rfl
@[simp] theorem bindOutput_errcmd (s : State) : (bindOutput s).errcmd = s.errcmd := rfl
@[simp] theorem bindOutput_phase (s : State) : (bindOutput s).phase = s.phase := rfl
@[simp] theorem bindOutput_inp (s : State) : (bindOutput s).inp = s.inp := rfl
@[simp] theorem bindOutput_out (s : State) : (bindOutput s).out = { bits := [], closed := false, bound := true } := rfl
@[simp] theorem bindOutput_port (s : State) : (bindOutput s).port = s.port := rfl
@[simp] theorem bindOutput_draws (s : State) : (bindOutput s).draws = s.draws := rfl

end Sys2Proof.Machine
end

