-- ==== Sys2Proof/Laws/Ops.lean ====
section
/-! SUPPORT. What the shared operations do: sequencing, the stream transactions, the byte loop, and the frame of a command
around its body. -/

namespace Sys2Proof.Machine

variable {α β γ : Type}

/-! ### Sequencing -/

@[simp] theorem Res.bind_ok (a : α) (s : State) (k : α → State → Res β) : (Res.ok a s).bind k = k a s := rfl

@[simp] theorem Res.bind_raised (e : FaultKind) (s : State) (k : α → State → Res β) :
    (Res.raised e s).bind k = .raised e s := rfl

@[simp] theorem Res.bind_refused (r : Refusal) (k : α → State → Res β) : (Res.refused r).bind k = .refused r := rfl

theorem Res.bind_assoc (r : Res α) (k : α → State → Res β) (l : β → State → Res γ) :
    (r.bind k).bind l = r.bind fun a s => (k a s).bind l := by
  cases r <;> rfl

@[simp] theorem require_true (e : FaultKind) (s : State) : require true e s = .ok () s := rfl

@[simp] theorem require_false (e : FaultKind) (s : State) : require false e s = .raised e s := rfl

/-- The state a piece of work ends in, with a value or with a fault, is related to the state `s`. -/
def Res.within (R : State → State → Prop) (s : State) : Res α → Prop
  | .ok _ t => R s t
  | .raised _ t => R s t
  | .refused _ => True

/-- A relation that is transitive holds across two pieces of work if it holds across each. -/
theorem Res.within_bind {R : State → State → Prop} (trans : ∀ a b c, R a b → R b c → R a c) {s : State} {r : Res α}
    {k : α → State → Res β} (h : r.within R s) (hk : ∀ a t, r = .ok a t → (k a t).within R t) :
    (r.bind k).within R s := by
  cases r with
  | ok a t =>
    have := hk a t rfl
    rw [Res.bind_ok]
    cases hr : k a t with
    | ok b u => rw [hr] at this; exact trans _ _ _ h this
    | raised e u => rw [hr] at this; exact trans _ _ _ h this
    | refused r => trivial
  | raised e t => exact h
  | refused r => trivial

/-! ### The input -/

/-- The state with `IN.pos` moved on by `n`. -/
def advance (n : Nat) (s : State) : State := { s with inp := { s.inp with pos := s.inp.pos + n } }

/-- The state with `IN.pos` at the end. -/
def toEnd (s : State) : State := { s with inp := { s.inp with pos := s.inp.bits.length } }

theorem ahead_length (s : State) : s.ahead.length = s.inp.bits.length - s.inp.pos := by simp [State.ahead]

@[simp] theorem ahead_advance (n : Nat) (s : State) : (advance n s).ahead = s.ahead.drop n := by
  simp [State.ahead, advance]

@[simp] theorem ahead_toEnd (s : State) : (toEnd s).ahead = [] := by simp [State.ahead, toEnd]

@[simp] theorem advance_isOpen (n : Nat) (s : State) : (advance n s).inp.isOpen = s.inp.isOpen := rfl

@[simp] theorem toEnd_isOpen (s : State) : (toEnd s).inp.isOpen = s.inp.isOpen := rfl

@[simp] theorem advance_bits (n : Nat) (s : State) : (advance n s).inp.bits = s.inp.bits := rfl

@[simp] theorem advance_pos (n : Nat) (s : State) : (advance n s).inp.pos = s.inp.pos + n := rfl

@[simp] theorem advance_zero (s : State) : advance 0 s = s := rfl

@[simp] theorem advance_advance (m n : Nat) (s : State) : advance m (advance n s) = advance (n + m) s := by
  simp [advance, Nat.add_assoc]

@[simp] theorem toEnd_advance (n : Nat) (s : State) : toEnd (advance n s) = toEnd s := rfl

theorem inRead_refused {w : Nat} {s : State} (h : s.inp.isOpen = false) : inRead w s = .refused .inputNotOpen := by
  simp [inRead, h]

/-- A read with enough bits left gives the bits at `IN.pos` and moves on (20_memory.md R53). -/
theorem inRead_some {w : Nat} {s : State} (ho : s.inp.isOpen = true) (hw : 1 ≤ w) (h : w ≤ s.ahead.length) :
    inRead w s = .ok (some (BitVec.ofNat w (valOf (s.ahead.take w)))) (advance w s) := by
  have : s.inp.pos + w ≤ s.inp.bits.length := by rw [ahead_length] at h; omega
  simp [inRead, ho, this, State.ahead, advance]

/-- A read with too few bits left is `EOI` and moves to the end (20_memory.md R54). -/
theorem inRead_none {w : Nat} {s : State} (ho : s.inp.isOpen = true) (h : s.ahead.length < w) :
    inRead w s = .ok none (toEnd s) := by
  have : ¬ s.inp.pos + w ≤ s.inp.bits.length := by rw [ahead_length] at h; omega
  simp [inRead, ho, this, toEnd]

/-- A read where the bits of a number stand gives the number. -/
theorem inRead_bitsOf {w : Nat} {s : State} {v : BitVec w} {after : BitString} (ho : s.inp.isOpen = true) (hw : 1 ≤ w)
    (h : s.ahead = bitsOf w v.toNat ++ after) : inRead w s = .ok (some v) (advance w s) := by
  rw [inRead_some ho hw (by simp [h]), h, ofNat_valOf_take_bitsOf]

/-- Everything `InRead` can do. -/
theorem inRead_cases (w : Nat) (s : State) :
    (s.inp.isOpen = false ∧ inRead w s = .refused .inputNotOpen) ∨
      (s.inp.isOpen = true ∧ s.inp.pos + w ≤ s.inp.bits.length ∧ ∃ v, inRead w s = .ok (some v) (advance w s)) ∨
      (s.inp.isOpen = true ∧ s.inp.bits.length < s.inp.pos + w ∧ inRead w s = .ok none (toEnd s)) := by
  cases ho : s.inp.isOpen with
  | false => exact .inl ⟨rfl, inRead_refused ho⟩
  | true =>
    by_cases h : s.inp.pos + w ≤ s.inp.bits.length
    · exact .inr (.inl ⟨rfl, h, BitVec.ofNat w (valOf ((s.inp.bits.drop s.inp.pos).take w)),
        by simp [inRead, ho, h, advance]⟩)
    · exact .inr (.inr ⟨rfl, by omega, by simp [inRead, ho, h, toEnd]⟩)

/-! ### The output -/

/-- The state with bits appended to `OUT`. -/
def append (bits : BitString) (s : State) : State := { s with out := { s.out with bits := s.out.bits ++ bits } }

@[simp] theorem append_isOpen (bits : BitString) (s : State) : (append bits s).out.isOpen = s.out.isOpen := rfl

@[simp] theorem append_nil (s : State) : append [] s = s := by simp [append]

@[simp] theorem append_append (a b : BitString) (s : State) : append b (append a s) = append (a ++ b) s := by
  simp [append]

@[simp] theorem append_inp (bits : BitString) (s : State) : (append bits s).inp = s.inp := rfl

@[simp] theorem append_ahead (bits : BitString) (s : State) : (append bits s).ahead = s.ahead := rfl

/-- A write to an open output appends (20_memory.md R55). -/
theorem outWrite_open {w v : Nat} {s : State} (h : s.out.isOpen = true) :
    outWrite w v s = .ok () (append (bitsOf w v) s) := by
  have h' : (s.out.bound && !s.out.closed) = true := h
  simp [outWrite, h', append]

theorem outWrite_refused {w v : Nat} {s : State} (h : s.out.isOpen = false) :
    outWrite w v s = .refused .outputNotOpen := by
  have h' : (s.out.bound && !s.out.closed) = false := h
  simp [outWrite, h']

@[simp] theorem padBits_length (n k : Nat) : (padBits n k).length = k := by simp [padBits]

theorem padLength_lt (len : Nat) : padLength len ≤ 7 := by unfold padLength; omega

theorem padLength_fills (len : Nat) : (len + padLength len) % 8 = 0 := by unfold padLength; omega

@[simp] theorem padLength_of_whole {len : Nat} (h : len % 8 = 0) : padLength len = 0 := by unfold padLength; omega

/-- Both streams closed, the output padded (46_stream_control.md R211). -/
def closedStreams (s : State) : State :=
  { s with out := s.out.close s.draws, inp := { s.inp with isOpen := false }, draws := s.draws + 1 }

theorem closeStreams_open {s : State} (h : s.out.isOpen = true) : closeStreams s = .ok () (closedStreams s) := by
  have h' : (s.out.bound && !s.out.closed) = true := h
  simp [closeStreams, outClose, h', inClose, closedStreams]

theorem closeStreams_refused {s : State} (h : s.out.isOpen = false) : closeStreams s = .refused .outputNotOpen := by
  have h' : (s.out.bound && !s.out.closed) = false := h
  simp [closeStreams, outClose, h']

/-! ### The byte loop -/

/-- The byte loop as a recursion over the bytes it reads. -/
def overBytes (body : Byte → State → Res Unit) : List Byte → State → Res Unit
  | [], s => .ok () (toEnd s)
  | b :: bs, s => (body b (advance 8 s)).bind fun _ s => overBytes body bs s

/-- The byte loop reads the bytes that stand ahead, if its body leaves the input alone. -/
theorem eachByte_eq (body : Byte → State → Res Unit)
    (hb : ∀ b s t, body b s = .ok () t → t.inp = s.inp) (bytes : List Byte) (tail : BitString) (htail : tail.length < 8)
    (n : Nat) (s : State) (ho : s.inp.isOpen = true) (h : s.ahead = bitsOfBytes bytes ++ tail) (hn : bytes.length < n) :
    eachByte body n s = overBytes body bytes s := by
  induction bytes generalizing n s with
  | nil =>
    obtain ⟨n, rfl⟩ : ∃ m, n = m + 1 := ⟨n - 1, by simp at hn; omega⟩
    simp [eachByte, overBytes, inRead_none ho (by simpa [h, bitsOfBytes] using htail)]
  | cons b bs ih =>
    obtain ⟨n, rfl⟩ : ∃ m, n = m + 1 := ⟨n - 1, by simp at hn; omega⟩
    rw [bitsOfBytes, List.append_assoc] at h
    simp only [eachByte, overBytes, inRead_bitsOf ho (by omega) h, Res.bind_ok]
    cases hr : body b (advance 8 s) with
    | ok a t =>
      have ht := hb _ _ _ hr
      simp only [Res.bind_ok]
      apply ih
      · rw [ht]; exact ho
      · have : t.ahead = (advance 8 s).ahead := by simp [State.ahead, ht]
        rw [this, ahead_advance, h, List.drop_left' (by simp)]
      · simp at hn; omega
    | raised e t => rfl
    | refused r => rfl

theorem bytes_lt_readFuel {s : State} {bytes : List Byte} {tail : BitString} (h : s.ahead = bitsOfBytes bytes ++ tail) :
    bytes.length < readFuel s := by
  have := congrArg List.length h
  rw [ahead_length] at this
  simp at this
  unfold readFuel; omega

/-! ### The frame of a command -/

theorem gate_ready {a : Bool} {s : State} (h : s.ready) (k : State → Host.Outcome State Fault Refusal) :
    gate a s k = k s := by
  simp [gate, h.1, h.2]

theorem gate_acting {s : State} (h : s.status.busy = false) (k : State → Host.Outcome State Fault Refusal) :
    gate true s k = k s := by
  simp [gate, h]

theorem gate_busy {a : Bool} {s : State} (h : s.status.busy = true) (k : State → Host.Outcome State Fault Refusal) :
    gate a s k = .next s := by
  simp [gate, h]

theorem gate_error {s : State} (hb : s.status.busy = false) (he : s.status.err = true)
    (k : State → Host.Outcome State Fault Refusal) : gate false s k = .next (ignored s) := by
  simp [gate, hb, he]

theorem runCommand_ready {c : Cmd} {s : State} (h : s.ready) (body : State → Res Unit) :
    runCommand c body s = settle (unwind c (body (accept c s))) := gate_ready h _

@[simp] theorem settle_ok (s : State) : settle (.ok () s) = .next (finish s) := rfl

@[simp] theorem settle_raised (e : FaultKind) (s : State) :
    settle (.raised e s) = .next (faultEntry e s.phase.opcode s) := rfl

@[simp] theorem settle_refused (r : Refusal) : settle (.refused r) = .refused r := rfl

@[simp] theorem unwind_refused (c : Cmd) (r : Refusal) : unwind c (.refused r) = .refused r := rfl

theorem unwind_primitive {c : Cmd} (h : c.composite = false) (r : Res Unit) : unwind c r = r := by
  cases r <;> simp [unwind, h]

theorem unwind_composite_ok {c : Cmd} (h : c.composite = true) (s : State) :
    unwind c (.ok () s) = .ok () (cleardata s) := by
  simp [unwind, h]

theorem unwind_composite_raised {c : Cmd} (h : c.composite = true) (e : FaultKind) {s : State}
    (ho : s.out.isOpen = true) : unwind c (.raised e s) = .raised e (cleardata (closedStreams s)) := by
  simp [unwind, h, closeStreams_open ho]

/-- A composite command that meets a fault closes the streams, clears the data and records the fault (44_encoder.md R179,
45_decoder.md R199). -/
theorem settle_composite_raised {c : Cmd} (h : c.composite = true) (e : FaultKind) {s : State}
    (ho : s.out.isOpen = true) : ∃ t, settle (unwind c (.raised e s)) = .next t ∧ s.abortsTo e s.phase.opcode t :=
  ⟨_, by rw [unwind_composite_raised h e ho, settle_raised], padBits s.draws (padLength s.out.bits.length),
    by simpa using padLength_lt _, by simp [padLength_fills], rfl⟩

end Sys2Proof.Machine
end

