-- ==== Sys2Proof/Laws/Units.lean ====
section
/-! SUPPORT. What the bodies of the commands do to the state: one lemma for each unit of the block. -/

namespace Sys2Proof.Machine

/-! ### The counter -/

/-- The table after counting bytes into it. -/
def countInto (freq : Vector Count 256) (bytes : List Byte) : Vector Count 256 :=
  bytes.foldl (fun f b => f.set b.toNat (satInc Config.cntMax (f[b.toNat]'b.isLt)) b.isLt) freq

theorem overBytes_bump (bytes : List Byte) (s : State) :
    overBytes (fun b s => .ok () (bumpFreq b s)) bytes s = .ok () { toEnd s with freq := countInto s.freq bytes } := by
  induction bytes generalizing s with
  | nil => rfl
  | cons b bs ih =>
    rw [overBytes, Res.bind_ok, ih]
    rfl

/-- COUNT counts the bytes ahead into a zeroed table (40_frequency_counter.md R110, R111). -/
theorem countBody_eq {s : State} (ho : s.inp.isOpen = true) {bytes : List Byte} {tail : BitString}
    (h : s.ahead = bitsOfBytes bytes ++ tail) (ht : tail.length < 8) :
    countBody s =
      .ok () (markFreq { toEnd (countInit s) with freq := countInto (Vector.replicate 256 0#32) bytes }) := by
  rw [countBody, eachByte_eq _ (by rintro b s t ⟨⟩; rfl) bytes tail ht _ (countInit s) ho h (bytes_lt_readFuel h),
    overBytes_bump]
  rfl

theorem satInc_toNat (c : Count) : (satInc Config.cntMax c).toNat = min (c.toNat + 1) (2 ^ 32 - 1) := by
  have hm : Config.cntMax.toNat = 2 ^ 32 - 1 := by decide
  unfold satInc
  split
  · next h => rw [BitVec.lt_def, hm] at h; simp only [BitVec.toNat_add, BitVec.toNat_ofNat]; omega
  · next h => rw [BitVec.lt_def, hm] at h; rw [hm]; omega

/-- Each entry goes up by the number of occurrences of its byte and saturates (40_frequency_counter.md R112, R113). -/
theorem countInto_toNat (freq : Vector Count 256) (bytes : List Byte) (b : Byte) :
    ((countInto freq bytes)[b.toNat]'b.isLt).toNat = min ((freq[b.toNat]'b.isLt).toNat + bytes.count b) (2 ^ 32 - 1) := by
  induction bytes generalizing freq with
  | nil => have := (freq[b.toNat]'b.isLt).isLt; simp [countInto]; omega
  | cons x bs ih =>
    have := ih (freq.set x.toNat (satInc Config.cntMax (freq[x.toNat]'x.isLt)) x.isLt)
    rw [countInto, List.foldl_cons]
    rw [countInto] at this
    rw [this, List.count_cons]
    by_cases hx : x = b
    · subst hx
      simp [satInc_toNat]; omega
    · have : x.toNat ≠ b.toNat := fun h => hx (BitVec.eq_of_toNat_eq h)
      simp [hx, this]

/-! ### The serializer and the encoder -/

/-- WRTREE's walk appends the header of the tree (43_tree_codec.md R151). -/
theorem writeTree_eq (t : CodeTree) {s : State} (ho : s.out.isOpen = true) :
    writeTree t s = .ok () (append (encTree t) s) := by
  induction t generalizing s with
  | leaf y => simp [writeTree, outWrite_open, ho, CodeTree.encTree_leaf, bitsOf]
  | node l r hl hr => simp [writeTree, outWrite_open, ho, hl, hr, CodeTree.encTree_node, bitsOf]

/-- The transactions of a code append exactly its bits (44_encoder.md R175). -/
theorem writeCode_eq (n : Nat) (c : BitString) (hn : c.length ≤ n) {s : State} (ho : s.out.isOpen = true) :
    writeCode n c s = .ok () (append c s) := by
  induction n generalizing c s with
  | zero => simp_all [writeCode]
  | succ n ih =>
    cases c with
    | nil => simp [writeCode]
    | cons b bs =>
      have hlen : (List.take Config.rwMax (b :: bs)).length = min Config.rwMax (b :: bs).length := List.length_take
      rw [writeCode, ← hlen, outWrite_open ho, bitsOf_valOf, Res.bind_ok,
        ih _ (by simp [Config.rwMax] at *; omega) (s := append _ s) ho, append_append, List.take_append_drop]

/-- `emit` of a symbol with a code appends the code; without one it is NoCodeError (44_encoder.md R173, R176). -/
theorem emitSymbol_eq (y : Sym) {s : State} (ho : s.out.isOpen = true) :
    emitSymbol y s =
      match codeAt s y with
      | none => .raised .noCode s
      | some c => .ok () (append c s) := by
  unfold emitSymbol
  cases codeAt s y with
  | none => rfl
  | some c => exact writeCode_eq _ _ le_rfl ho

theorem emitSymbol_some {y : Sym} {s : State} (ho : s.out.isOpen = true) (h : codeAt s y ≠ none) :
    emitSymbol y s = .ok () (append (codeIn s.code y) s) := by
  rw [emitSymbol_eq y ho]
  cases hc : codeAt s y with
  | none => exact absurd hc h
  | some c => rw [codeAt] at hc; simp [codeIn, hc]

theorem emitSymbol_inp (y : Sym) (s t : State) (h : emitSymbol y s = .ok () t) : t.inp = s.inp := by
  cases ho : s.out.isOpen with
  | true =>
    rw [emitSymbol_eq y ho] at h
    cases hc : codeAt s y with
    | none => simp [hc] at h
    | some c => simp only [hc, Res.ok.injEq, true_and] at h; rw [← h]; rfl
  | false =>
    unfold emitSymbol at h
    cases hc : codeAt s y with
    | none => simp [hc] at h
    | some c =>
      simp only [hc] at h
      cases c with
      | nil => simp only [List.length_nil, writeCode, Res.ok.injEq, true_and] at h; rw [← h]
      | cons b bs => simp [writeCode, outWrite_refused ho] at h

/-- One pass of ENCBODY at a byte (44_encoder.md R173). -/
theorem encodeNext_byte {s : State} {b : Byte} {after : BitString} (hi : s.inp.isOpen = true)
    (ho : s.out.isOpen = true) (h : s.ahead = bitsOf 8 b.toNat ++ after) :
    encodeNext s =
      match codeAt s (symOfByte b) with
      | none => .raised .noCode (advance 8 s)
      | some c => .ok false (append c (advance 8 s)) := by
  have hc : codeAt (advance 8 s) (symOfByte b) = codeAt s (symOfByte b) := rfl
  simp only [encodeNext, inRead_bitsOf hi (by omega) h, Res.bind_ok, emitSymbol_eq (s := advance 8 s) _ ho, hc]
  cases codeAt s (symOfByte b) <;> rfl

/-- One pass of ENCBODY at the end of the input (44_encoder.md R173). -/
theorem encodeNext_end {s : State} (hi : s.inp.isOpen = true) (ho : s.out.isOpen = true) (h : s.ahead.length < 8) :
    encodeNext s =
      match codeAt s Config.eob with
      | none => .raised .noCode (toEnd s)
      | some c => .ok true (append c (toEnd s)) := by
  have hc : codeAt (toEnd s) Config.eob = codeAt s Config.eob := rfl
  simp only [encodeNext, inRead_none hi h, Res.bind_ok, emitSymbol_eq (s := toEnd s) _ ho, hc]
  cases codeAt s Config.eob <;> rfl

/-- The encoder's loop appends the code of every byte (44_encoder.md R174). -/
theorem overBytes_emit (bytes : List Byte) {s : State} (ho : s.out.isOpen = true)
    (h : ∀ b ∈ bytes, codeAt s (symOfByte b) ≠ none) :
    overBytes (fun b s => emitSymbol (symOfByte b) s) bytes s = .ok () (append (codesIn s.code bytes) (toEnd s)) := by
  induction bytes generalizing s with
  | nil => simp [overBytes, codesIn]
  | cons b bs ih =>
    have hb : codeAt (advance 8 s) (symOfByte b) ≠ none := h b (by simp)
    rw [overBytes, emitSymbol_some (s := advance 8 s) ho hb, Res.bind_ok,
      ih (s := append _ (advance 8 s)) ho fun x hx => h x (by simp [hx])]
    simp [codesIn, append, advance, toEnd]

/-! ### The decoder -/

theorem needTree_some {α : Type} {s : State} {t : CodeTree} (hv : s.status.treeValid = true) (ht : s.tree = some t)
    (k : CodeTree → State → Res α) : needTree s k = k t s := by
  simp [needTree, validTree, hv, ht]

theorem needTree_none {α : Type} {s : State} (hv : s.status.treeValid = false) (k : CodeTree → State → Res α) :
    needTree s k = .raised .sequence s := by
  simp [needTree, validTree, hv]

/-- `CUR <- u`. -/
def point (u : CodeTree) (s : State) : State := { s with cur := u }

@[simp] theorem point_cur (u : CodeTree) (s : State) : (point u s).cur = u := rfl

@[simp] theorem point_inp (u : CodeTree) (s : State) : (point u s).inp = s.inp := rfl

@[simp] theorem point_out (u : CodeTree) (s : State) : (point u s).out = s.out := rfl

@[simp] theorem point_ahead (u : CodeTree) (s : State) : (point u s).ahead = s.ahead := rfl

@[simp] theorem point_point (u v : CodeTree) (s : State) : point v (point u s) = point v s := rfl

@[simp] theorem point_self (s : State) : point s.cur s = s := rfl

theorem ofNat_one_toNat (b : Bool) : (BitVec.ofNat 1 (valOf [b]) == 1#1) = b := by cases b <;> decide

theorem inRead_one {s : State} {b : Bool} {after : BitString} (ho : s.inp.isOpen = true) (h : s.ahead = b :: after) :
    inRead 1 s = .ok (some (BitVec.ofNat 1 (valOf [b]))) (advance 1 s) := by
  rw [inRead_some ho le_rfl (by simp [h])]; simp [h]

/-- Moving along bits that stay inside the tree writes nothing (45_decoder.md R193). -/
theorem decodeLoop_inside (root : CodeTree) (n : Nat) (part after : BitString) (u : CodeTree) {s : State}
    (ho : s.inp.isOpen = true) (hf : s.cur.follow part = some u) (hu : u.isLeaf = false)
    (h : s.ahead = part ++ after) :
    decodeLoop root (n + part.length) s = decodeLoop root n (point u (advance part.length s)) := by
  induction part generalizing s with
  | nil => simp at hf; subst hf; simp
  | cons b bs ih =>
    cases hc : s.cur with
    | leaf y => simp [hc] at hf
    | node l r =>
      obtain ⟨w, hw⟩ : ∃ w, s.cur.child b = w := ⟨_, rfl⟩
      have hfw : w.follow bs = some u := by rw [← hw, hc]; rw [hc] at hf; cases b <;> simpa [CodeTree.child] using hf
      have hwn : ∃ l' r', w = .node l' r' := by
        cases w with
        | node l' r' => exact ⟨l', r', rfl⟩
        | leaf y =>
          cases bs with
          | nil => simp at hfw; subst hfw; simp [CodeTree.isLeaf] at hu
          | cons c bs => simp at hfw
      obtain ⟨l', r', rfl⟩ := hwn
      rw [List.length_cons, ← Nat.add_assoc]
      simp only [decodeLoop, inRead_one ho (by simpa using h), Res.bind_ok, ofNat_one_toNat, decodeBit]
      have hcur : (advance 1 s).cur.child b = .node l' r' := hw
      simp only [hcur, Res.bind_ok, Bool.false_eq_true, if_false]
      have := @ih (point (.node l' r') (advance 1 s)) ho hfw (by simp [h])
      simp only [point, advance] at this ⊢
      rw [this]
      simp [Nat.add_comm 1, Nat.add_assoc]

/-- One complete code: the last bit reaches a leaf. -/
theorem decodeLoop_code (root : CodeTree) (n : Nat) (path after : BitString) (y : Sym) {s : State}
    (ho : s.inp.isOpen = true) (hi : s.cur.isLeaf = false) (hf : s.cur.isCode path y) (h : s.ahead = path ++ after) :
    decodeLoop root (n + path.length) s =
      if y = Config.eob then .ok () (point (.leaf y) (advance path.length s))
      else (outWrite 8 y.val (point (.leaf y) (advance path.length s))).bind fun _ s => decodeLoop root n (point root s) := by
  obtain ⟨init, b, rfl⟩ : ∃ init b, path = init ++ [b] := by
    have := CodeTree.isCode_pos hi hf
    exact ⟨path.dropLast, path.getLast (by rintro rfl; simp at this), (List.dropLast_append_getLast _).symm⟩
  unfold CodeTree.isCode at hf
  rw [CodeTree.follow_append] at hf
  obtain ⟨u, hu, hub⟩ := Option.bind_eq_some_iff.mp hf
  have hul : u.isLeaf = false := by cases u <;> simp_all [CodeTree.isLeaf]
  have hstep := decodeLoop_inside root (n + 1) init ([b] ++ after) u ho hu hul (by simpa using h)
  rw [List.length_append, List.length_singleton, Nat.add_comm init.length 1, ← Nat.add_assoc, hstep]
  have hah : (point u (advance init.length s)).ahead = b :: after := by simp [h]
  have hchild : u.child b = .leaf y := by cases u <;> cases b <;> simp_all [CodeTree.child]
  simp only [decodeLoop, inRead_one (s := point u (advance init.length s)) ho hah, Res.bind_ok, ofNat_one_toNat, decodeBit]
  have hcur : (advance 1 (point u (advance init.length s))).cur.child b = .leaf y := hchild
  have heq : { advance 1 (point u (advance init.length s)) with cur := .leaf y } =
      point (.leaf y) (advance (1 + init.length) s) := by
    simp [point, advance, Nat.add_comm 1, Nat.add_assoc]
  simp only [hcur, heq]
  split
  · simp
  · cases outWrite 8 y.val (point (.leaf y) (advance (1 + init.length) s)) <;> simp [point]

/-- Complete codes of bytes: each byte is written and `CUR` is the root again (45_decoder.md R197). -/
theorem decodeLoop_items (t : CodeTree) (ht : t.isLeaf = false) (n : Nat) (items : List (BitString × Byte))
    (after : BitString) {s : State} (ho : s.inp.isOpen = true) (hout : s.out.isOpen = true) (hcur : s.cur = t)
    (hi : ∀ q ∈ items, t.isCode q.1 (symOfByte q.2)) (h : s.ahead = items.flatMap (·.1) ++ after) :
    decodeLoop t (n + (items.flatMap (·.1)).length) s =
      decodeLoop t n (append (bitsOfBytes (items.map (·.2))) (advance (items.flatMap (·.1)).length s)) := by
  induction items generalizing s with
  | nil => simp [bitsOfBytes]
  | cons q items ih =>
    have hq : s.cur.isCode q.1 (symOfByte q.2) := by rw [hcur]; exact hi q (by simp)
    have hne : symOfByte q.2 ≠ Config.eob := by
      intro he
      have := congrArg Fin.val he
      have hlt := q.2.isLt
      simp [symOfByte, Config.eob] at this
      omega
    simp only [List.flatMap_cons, List.append_assoc] at h
    rw [List.flatMap_cons, List.length_append, Nat.add_comm q.1.length, ← Nat.add_assoc,
      decodeLoop_code t _ q.1 _ _ ho (by rw [hcur]; exact ht) hq h, if_neg hne,
      outWrite_open (s := point (.leaf (symOfByte q.2)) (advance q.1.length s)) hout, Res.bind_ok]
    rw [ih (s := point t (append (bitsOf 8 (symOfByte q.2).val) (point (.leaf (symOfByte q.2)) (advance q.1.length s))))
      ho hout rfl (fun x hx => hi x (by simp [hx])) (by simp [h])]
    congr 1
    simp [append, advance, point, bitsOfBytes, symOfByte, ← hcur]
    omega

/-- The bits run out: TruncatedStreamError (45_decoder.md R194). -/
theorem decodeLoop_eoi (root : CodeTree) (n : Nat) {s : State} (ho : s.inp.isOpen = true) (h : s.ahead = []) :
    decodeLoop root (n + 1) s = .raised .truncatedStream (toEnd s) := by
  simp [decodeLoop, inRead_none ho (w := 1) (by simp [h])]

theorem ahead_lt_readFuel (s : State) : s.ahead.length < readFuel s := by
  rw [ahead_length]; unfold readFuel; omega

/-! ### The header reader -/

/-- One node counted. -/
def tally (n : Nat) (s : State) : State := { s with nnode := s.nnode + BitVec.ofNat 10 n }

theorem tally_nnode {n : Nat} {s : State} (h : s.nnode.toNat + n ≤ Config.nodeCap) :
    (tally n s).nnode.toNat = s.nnode.toNat + n := by
  unfold Config.nodeCap at h
  simp only [tally, BitVec.toNat_add, BitVec.toNat_ofNat]; omega

theorem takeMarker_one {s : State} {b : Bool} {after : BitString} (ho : s.inp.isOpen = true)
    (hn : s.nnode.toNat < Config.nodeCap) (h : s.ahead = b :: after) :
    takeMarker s = .ok (BitVec.ofNat 1 (valOf [b])) (tally 1 (advance 1 s)) := by
  have : ¬ (advance 1 s).nnode.toNat = Config.nodeCap := by simp [advance]; omega
  simp [takeMarker, inRead_one ho h, this, tally]

theorem readNode_internal {s : State} {after : BitString} (ho : s.inp.isOpen = true)
    (hn : s.nnode.toNat < Config.nodeCap) (h : s.ahead = false :: after) :
    readNode s = .ok .internal (tally 1 (advance 1 s)) := by
  rw [readNode, takeMarker_one ho hn h, Res.bind_ok, if_neg (by decide)]

theorem readNode_leaf {s : State} {y : Sym} {after : BitString} (ho : s.inp.isOpen = true)
    (hn : s.nnode.toNat < Config.nodeCap) (h : s.ahead = true :: (bitsOf 9 y.val ++ after)) :
    readNode s = .ok (.leaf y) (tally 1 (advance 10 s)) := by
  have hy : (BitVec.ofNat 9 y.val).toNat = y.val := Nat.mod_eq_of_lt (by have := y.isLt; omega)
  have h9 : (tally 1 (advance 1 s)).ahead = bitsOf 9 (BitVec.ofNat 9 y.val).toNat ++ after := by
    have : (tally 1 (advance 1 s)).ahead = (advance 1 s).ahead := rfl
    rw [this, ahead_advance, h, hy]; rfl
  rw [readNode, takeMarker_one ho hn h, Res.bind_ok, if_pos (by decide), takeField,
    inRead_bitsOf (s := tally 1 (advance 1 s)) ho (by omega) h9]
  simp [checkField, symOfField, hy, advance, tally]

/-- Reading a header gives its tree and takes exactly its bits (43_tree_codec.md R158, R160). -/
theorem readTree_eq (t : CodeTree) (n : Nat) {s : State} {after : BitString} (ho : s.inp.isOpen = true)
    (hd : t.depth < n) (hn : s.nnode.toNat + t.nodes ≤ Config.nodeCap) (h : s.ahead = encTree t ++ after) :
    readTree n s = .ok t (tally t.nodes (advance (encTree t).length s)) := by
  induction t generalizing n s after with
  | leaf y =>
    obtain ⟨n, rfl⟩ : ∃ m, n = m + 1 := ⟨n - 1, by omega⟩
    rw [CodeTree.encTree_leaf] at h ⊢
    simp only [CodeTree.nodes] at hn
    rw [readTree, readNode_leaf ho (by omega) (by simpa using h)]
    simp [CodeTree.nodes]
  | node l r hl hr =>
    obtain ⟨n, rfl⟩ : ∃ m, n = m + 1 := ⟨n - 1, by omega⟩
    have := l.nodes_pos
    simp only [CodeTree.nodes, CodeTree.depth] at hn hd
    rw [CodeTree.encTree_node] at h ⊢
    have h1 : (tally 1 (advance 1 s)).ahead = encTree l ++ (encTree r ++ after) := by
      have : (tally 1 (advance 1 s)).ahead = (advance 1 s).ahead := rfl
      rw [this, ahead_advance, h]; simp
    have hn1 := tally_nnode (n := 1) (s := advance 1 s) (by simp [advance]; omega)
    have hs1 : (advance 1 s).nnode = s.nnode := rfl
    rw [hs1] at hn1
    rw [readTree, readNode_internal ho (by omega) h, Res.bind_ok]
    simp only
    rw [hl n (s := tally 1 (advance 1 s)) ho (by omega) (by omega) h1, Res.bind_ok]
    have hn2 := tally_nnode (n := l.nodes) (s := advance (encTree l).length (tally 1 (advance 1 s)))
      (by have : (advance (encTree l).length (tally 1 (advance 1 s))).nnode = (tally 1 (advance 1 s)).nnode := rfl
          rw [this]; omega)
    have hs2 : (advance (encTree l).length (tally 1 (advance 1 s))).nnode = (tally 1 (advance 1 s)).nnode := rfl
    rw [hs2] at hn2
    rw [hr n (s := tally l.nodes (advance (encTree l).length (tally 1 (advance 1 s)))) (after := after) ho (by omega)
      (by omega)
      (by have : (tally l.nodes (advance (encTree l).length (tally 1 (advance 1 s)))).ahead =
            (advance (encTree l).length (tally 1 (advance 1 s))).ahead := rfl
          rw [this, ahead_advance, h1]; simp), Res.bind_ok]
    congr 1
    simp only [tally, advance, CodeTree.nodes, List.length_cons, List.length_append, Nat.add_assoc, BitVec.add_assoc]
    congr 1
    · congr 1
      rw [← BitVec.ofNat_add, ← BitVec.ofNat_add]; congr 1; omega
    · congr 1; omega

end Sys2Proof.Machine
end

