-- ==== Sys2Proof/Laws/Memory.lean ====
section
/-! SUPPORT. The streams under every operation: the input is read-only, the output append-only, and the form of the two
streams is kept (20_memory.md R50, R53 to R57; 10_state.md R38). -/

namespace Sys2Proof.Machine

variable {α β : Type}

/-- What every operation on the streams keeps: the bits of the input, the written bits of the output, a closed output, the
host's list, and the form of both streams. -/
structure StreamStep (s t : State) : Prop where
  bits : t.inp.bits = s.inp.bits
  written : s.out.bits <+: t.out.bits
  shut : s.out.closed = true → t.out = s.out
  port : t.port = s.port
  form : Memory.wf s.inp s.out = true → Memory.wf t.inp t.out = true

theorem StreamStep.refl (s : State) : StreamStep s s := ⟨rfl, List.prefix_rfl, fun _ => rfl, rfl, id⟩

theorem StreamStep.trans (a b c : State) (h : StreamStep a b) (k : StreamStep b c) : StreamStep a c where
  bits := k.bits.trans h.bits
  written := h.written.trans k.written
  shut hc := (k.shut (by rw [h.shut hc]; exact hc)).trans (h.shut hc)
  port := k.port.trans h.port
  form hw := k.form (h.form hw)

/-- An update that leaves the streams and the host's list alone. -/
theorem StreamStep.of_eq {s t : State} (hi : t.inp = s.inp) (ho : t.out = s.out) (hp : t.port = s.port) :
    StreamStep s t :=
  ⟨by rw [hi], by rw [ho], fun _ => ho, hp, by rw [hi, ho]; exact id⟩

theorem Memory.wf_iff (i : InStream) (o : OutStream) :
    Memory.wf i o = true ↔
      i.bits.length % 8 = 0 ∧ i.pos ≤ i.bits.length ∧ (o.closed = true → o.bits.length % 8 = 0) := by
  cases h : o.closed <;> simp [Memory.wf, h, and_assoc]

/-- The streams of the reset state have their form. -/
theorem reset_memory_wf : Memory.wf State.reset.inp State.reset.out = true := by decide

theorem bindInput_wf (bytes : List Byte) (s : State) (h : Memory.wf s.inp s.out = true) :
    Memory.wf (bindInput bytes s).inp (bindInput bytes s).out = true := by
  rw [Memory.wf_iff] at *
  simp [bindInput]; exact h.2.2

theorem changeInput_wf (bytes : List Byte) (s : State) (h : Memory.wf s.inp s.out = true) :
    Memory.wf (changeInput bytes s).inp (changeInput bytes s).out = true := by
  rw [Memory.wf_iff] at *
  simp [changeInput]; exact h.2.2

theorem bindOutput_wf (s : State) (h : Memory.wf s.inp s.out = true) :
    Memory.wf (bindOutput s).inp (bindOutput s).out = true := by
  rw [Memory.wf_iff] at *
  simp [bindOutput]; exact ⟨h.1, h.2.1⟩

theorem streamStep_advance {n : Nat} {s : State} (h : s.inp.pos + n ≤ s.inp.bits.length) : StreamStep s (advance n s) :=
  ⟨rfl, List.prefix_rfl, fun _ => rfl, rfl, by simp only [Memory.wf_iff]; exact fun hw => ⟨hw.1, h, hw.2.2⟩⟩

theorem streamStep_toEnd (s : State) : StreamStep s (toEnd s) :=
  ⟨rfl, List.prefix_rfl, fun _ => rfl, rfl, by simp only [Memory.wf_iff]; exact fun hw => ⟨hw.1, le_rfl, hw.2.2⟩⟩

theorem streamStep_append {b : BitString} {s : State} (h : s.out.isOpen = true) : StreamStep s (append b s) := by
  have hc : s.out.closed = false := by simp [OutStream.isOpen] at h; exact h.2
  exact ⟨rfl, List.prefix_append _ _, by simp [hc], rfl, by
    simp only [Memory.wf_iff]; exact fun hw => ⟨hw.1, hw.2.1, by simp [append, hc]⟩⟩

theorem inRead_streamStep (w : Nat) (s : State) : (inRead w s).within StreamStep s := by
  obtain ⟨-, h⟩ | ⟨-, hp, v, h⟩ | ⟨-, -, h⟩ := inRead_cases w s <;> rw [h]
  · trivial
  · exact streamStep_advance hp
  · exact streamStep_toEnd s

theorem outWrite_streamStep (w v : Nat) (s : State) : (outWrite w v s).within StreamStep s := by
  cases h : s.out.isOpen with
  | false => rw [outWrite_refused h]; trivial
  | true => rw [outWrite_open h]; exact streamStep_append h

theorem inRewind_streamStep (s : State) : (inRewind s).within StreamStep s := by
  unfold inRewind
  split
  · exact ⟨rfl, List.prefix_rfl, fun _ => rfl, rfl, by
      simp only [Memory.wf_iff]; exact fun hw => ⟨hw.1, Nat.zero_le _, hw.2.2⟩⟩
  · trivial

theorem inClose_streamStep (s : State) : StreamStep s (inClose s) :=
  ⟨rfl, List.prefix_rfl, fun _ => rfl, rfl, by simp only [Memory.wf_iff]; exact id⟩

/-- A closed output is whole bytes (20_memory.md R57). -/
theorem close_length (o : OutStream) (n : Nat) : (o.close n).bits.length % 8 = 0 := by
  simp [OutStream.close, padLength_fills]

theorem close_prefix (o : OutStream) (n : Nat) : o.bits <+: (o.close n).bits := List.prefix_append _ _

theorem streamStep_closedStreams {s : State} (h : s.out.isOpen = true) : StreamStep s (closedStreams s) := by
  have hc : s.out.closed = false := by simp [OutStream.isOpen] at h; exact h.2
  exact ⟨rfl, close_prefix _ _, by simp [hc], rfl, by
    simp only [Memory.wf_iff]; exact fun hw => ⟨hw.1, hw.2.1, fun _ => close_length _ _⟩⟩

theorem closeStreams_streamStep (s : State) : (closeStreams s).within StreamStep s := by
  cases h : s.out.isOpen with
  | false => rw [closeStreams_refused h]; trivial
  | true => rw [closeStreams_open h]; exact streamStep_closedStreams h

theorem outClose_streamStep (s : State) : (outClose s).within StreamStep s := by
  cases h : s.out.isOpen with
  | false =>
    have h' : (s.out.bound && !s.out.closed) = false := h
    simp [outClose, h', Res.within]
  | true =>
    have h' : (s.out.bound && !s.out.closed) = true := h
    have hc : s.out.closed = false := by simp [OutStream.isOpen] at h; exact h.2
    simp only [outClose, h', if_true, Res.within]
    exact ⟨rfl, close_prefix _ _, by simp [hc], rfl, by
      simp only [Memory.wf_iff]; exact fun hw => ⟨hw.1, hw.2.1, fun _ => close_length _ _⟩⟩

theorem cutIn_bits (c : Cmd) (n : Nat) (i : InStream) : (cutIn c n i).bits = i.bits := by
  unfold cutIn; split <;> rfl

theorem cutIn_pos_le (c : Cmd) (n : Nat) (i : InStream) (h : i.pos ≤ i.bits.length) :
    (cutIn c n i).pos ≤ (cutIn c n i).bits.length := by
  unfold cutIn; split
  · exact Nat.min_le_right _ _
  · exact h

theorem cutOut_prefix (c : Cmd) (n : Nat) (o : OutStream) : o.bits <+: (cutOut c n o).bits := by
  unfold cutOut; split
  · simp only
    split
    · exact (List.prefix_append _ (Config.cutBits n)).trans
        (close_prefix { o with bits := o.bits ++ Config.cutBits n } n)
    · exact List.prefix_append _ _
  · exact List.prefix_rfl

theorem cutOut_shut (c : Cmd) (n : Nat) (o : OutStream) (h : o.closed = true) : cutOut c n o = o := by
  simp [cutOut, h]

theorem cutOut_whole (c : Cmd) (n : Nat) (o : OutStream) (h : o.closed = true → o.bits.length % 8 = 0)
    (hc : (cutOut c n o).closed = true) : (cutOut c n o).bits.length % 8 = 0 := by
  unfold cutOut at *
  split at hc
  · next hg =>
    simp only at hc ⊢
    rw [if_pos hg]
    split at hc
    · next hq => rw [if_pos hq]; exact close_length _ _
    · simp_all
  · next hg => rw [if_neg hg]; exact h hc

/-- Reset keeps the form of the streams, also in the middle of a command. -/
theorem applyReset_streamStep (s : State) : StreamStep s (applyReset s) := by
  unfold applyReset
  split
  · exact .of_eq rfl rfl rfl
  · exact ⟨cutIn_bits _ _ _, cutOut_prefix _ _ _, cutOut_shut _ _ _, rfl, by
      simp only [Memory.wf_iff]
      exact fun hw => ⟨by rw [cutIn_bits]; exact hw.1, cutIn_pos_le _ _ _ hw.2.1, cutOut_whole _ _ _ hw.2.2⟩⟩

/-! ### The units -/

theorem streamStep_bind {s : State} {r : Res α} {k : α → State → Res β} (h : r.within StreamStep s)
    (hk : ∀ a t, r = .ok a t → (k a t).within StreamStep t) : (r.bind k).within StreamStep s :=
  Res.within_bind StreamStep.trans h hk

/-- A change that leaves the streams alone, then work. -/
theorem streamStep_after {s t : State} {r : Res α} (h : StreamStep s t) (hr : r.within StreamStep t) :
    r.within StreamStep s := by
  cases r with
  | ok a u => exact h.trans _ _ _ hr
  | raised e u => exact h.trans _ _ _ hr
  | refused r => trivial

theorem eachByte_streamStep (body : Byte → State → Res Unit) (hb : ∀ b s, (body b s).within StreamStep s) (n : Nat)
    (s : State) : (eachByte body n s).within StreamStep s := by
  induction n generalizing s with
  | zero => exact .refl s
  | succ n ih =>
    refine streamStep_bind (inRead_streamStep 8 s) fun v t _ => ?_
    cases v with
    | none => exact .refl t
    | some b => exact streamStep_bind (hb b t) fun _ u _ => ih u

theorem require_streamStep (c : Bool) (e : FaultKind) (s : State) : (require c e s).within StreamStep s := by
  cases c <;> exact .refl s

theorem needTree_streamStep {s : State} {k : CodeTree → State → Res α}
    (hk : ∀ t, validTree s = some t → (k t s).within StreamStep s) : (needTree s k).within StreamStep s := by
  unfold needTree
  split
  · exact .refl s
  · next t h => exact hk t h

theorem countBody_streamStep (s : State) : (countBody s).within StreamStep s := by
  have hb : ∀ b t, (Res.ok () (bumpFreq b t)).within StreamStep t := fun b t =>
    (.of_eq rfl rfl rfl : StreamStep t (bumpFreq b t))
  exact streamStep_bind
    (streamStep_after (.of_eq rfl rfl rfl : StreamStep s (countInit s)) (eachByte_streamStep _ hb _ _))
    fun _ _ _ => .of_eq rfl rfl rfl

theorem buildBody_streamStep (s : State) : (buildBody s).within StreamStep s :=
  streamStep_bind (require_streamStep _ _ _) fun _ _ _ => .of_eq rfl rfl rfl

theorem gencodesBody_streamStep (s : State) : (gencodesBody s).within StreamStep s :=
  needTree_streamStep fun _ _ =>
    streamStep_bind
      (streamStep_after (.of_eq rfl rfl rfl : StreamStep s (dropCode s)) (require_streamStep _ _ (dropCode s)))
      fun _ _ _ => .of_eq rfl rfl rfl

theorem writeTree_streamStep (t : CodeTree) (s : State) : (writeTree t s).within StreamStep s := by
  induction t generalizing s with
  | leaf y => exact streamStep_bind (outWrite_streamStep _ _ _) fun _ _ _ => outWrite_streamStep _ _ _
  | node l r hl hr =>
    exact streamStep_bind (outWrite_streamStep _ _ _) fun _ _ _ => streamStep_bind (hl _) fun _ _ _ => hr _

theorem wrtreeBody_streamStep (s : State) : (wrtreeBody s).within StreamStep s :=
  needTree_streamStep fun _ _ => writeTree_streamStep _ _

theorem writeCode_streamStep (n : Nat) (c : BitString) (s : State) : (writeCode n c s).within StreamStep s := by
  induction n generalizing c s with
  | zero => exact .refl s
  | succ n ih =>
    cases c with
    | nil => exact .refl s
    | cons b bs => exact streamStep_bind (outWrite_streamStep _ _ _) fun _ _ _ => ih _ _

theorem emitSymbol_streamStep (y : Sym) (s : State) : (emitSymbol y s).within StreamStep s := by
  unfold emitSymbol
  split
  · exact .refl s
  · exact writeCode_streamStep _ _ _

theorem encbodyBody_streamStep (s : State) : (encbodyBody s).within StreamStep s :=
  streamStep_bind (require_streamStep _ _ _) fun _ _ _ =>
    streamStep_bind (eachByte_streamStep _ (fun _ _ => emitSymbol_streamStep _ _) _ _) fun _ _ _ =>
      emitSymbol_streamStep _ _

theorem encodeNext_streamStep (s : State) : (encodeNext s).within StreamStep s := by
  refine streamStep_bind (inRead_streamStep 8 s) fun v t _ => ?_
  cases v with
  | none => exact streamStep_bind (emitSymbol_streamStep _ _) fun _ u _ => .refl u
  | some b => exact streamStep_bind (emitSymbol_streamStep _ _) fun _ u _ => .refl u

theorem takeMarker_streamStep (s : State) : (takeMarker s).within StreamStep s := by
  refine streamStep_bind (inRead_streamStep 1 s) fun m t _ => ?_
  cases m with
  | none => exact .refl t
  | some m =>
    simp only
    split
    · exact .refl t
    · exact .of_eq rfl rfl rfl

theorem takeField_streamStep (s : State) : (takeField s).within StreamStep s :=
  streamStep_bind (inRead_streamStep 9 s) fun f t _ => by cases f <;> exact .refl t

theorem checkField_streamStep (f : BitVec 9) (s : State) : (checkField f s).within StreamStep s := by
  unfold checkField; split <;> exact .refl s

theorem readNode_streamStep (s : State) : (readNode s).within StreamStep s := by
  refine streamStep_bind (takeMarker_streamStep s) fun m t _ => ?_
  split
  · exact streamStep_bind (takeField_streamStep t) fun f u _ =>
      streamStep_bind (checkField_streamStep f u) fun _ v _ => .refl v
  · exact .refl t

theorem readTree_streamStep (n : Nat) (s : State) : (readTree n s).within StreamStep s := by
  induction n generalizing s with
  | zero => exact streamStep_bind (readNode_streamStep s) fun _ t _ => .refl t
  | succ n ih =>
    refine streamStep_bind (readNode_streamStep s) fun k t _ => ?_
    cases k with
    | leaf y => exact .refl t
    | internal => exact streamStep_bind (ih t) fun _ u _ => streamStep_bind (ih u) fun _ v _ => .refl v

theorem rdtreeBody_streamStep (s : State) : (rdtreeBody s).within StreamStep s :=
  streamStep_bind
    (streamStep_after (.of_eq rfl rfl rfl : StreamStep s (rdtreeInit s)) (readTree_streamStep _ _))
    fun _ _ _ => .of_eq rfl rfl rfl

theorem acceptNode_streamStep (k : NodeToken) (s : State) : (acceptNode k s).within StreamStep s := by
  cases k with
  | internal => exact .of_eq rfl rfl rfl
  | leaf y => unfold acceptNode; simp only; split <;> exact .of_eq rfl rfl rfl

theorem checkMagic_streamStep (v : Option (BitVec 32)) (s : State) : (checkMagic v s).within StreamStep s := by
  unfold checkMagic; split <;> exact .refl s

theorem rdmagicBody_streamStep (s : State) : (rdmagicBody s).within StreamStep s :=
  streamStep_bind (inRead_streamStep 32 s) fun v t _ => checkMagic_streamStep v t

theorem decodeBit_streamStep (root : CodeTree) (b : Bool) (s : State) : (decodeBit root b s).within StreamStep s := by
  unfold decodeBit
  split
  · exact .of_eq rfl rfl rfl
  · next y _ =>
    split
    · exact .of_eq rfl rfl rfl
    · exact streamStep_bind
        (streamStep_after (.of_eq rfl rfl rfl : StreamStep s { s with cur := .leaf y }) (outWrite_streamStep _ _ _))
        fun _ _ _ => .of_eq rfl rfl rfl

theorem decodeLoop_streamStep (root : CodeTree) (n : Nat) (s : State) :
    (decodeLoop root n s).within StreamStep s := by
  induction n generalizing s with
  | zero => exact .refl s
  | succ n ih =>
    refine streamStep_bind (inRead_streamStep 1 s) fun b t _ => ?_
    cases b with
    | none => exact .refl t
    | some b =>
      refine streamStep_bind (decodeBit_streamStep root _ t) fun fin u _ => ?_
      cases fin
      · exact ih u
      · exact .refl u

theorem decodeToken_streamStep (root : CodeTree) (p : BitString) (s : State) :
    (decodeToken root p s).within StreamStep s := by
  induction p generalizing s with
  | nil => exact .refl s
  | cons b bs ih =>
    refine streamStep_bind (inRead_streamStep 1 s) fun v t _ => ?_
    cases v with
    | none => exact .refl t
    | some v =>
      refine streamStep_bind (decodeBit_streamStep root _ t) fun fin u _ => ?_
      cases fin
      · exact ih u
      · exact .refl u

theorem decbodyInit_streamStep (s : State) : (decbodyInit s).within StreamStep s :=
  needTree_streamStep fun _ _ => streamStep_bind (require_streamStep _ _ _) fun _ _ _ => .of_eq rfl rfl rfl

theorem decbodyBody_streamStep (s : State) : (decbodyBody s).within StreamStep s :=
  streamStep_bind (decbodyInit_streamStep s) fun _ _ _ => decodeLoop_streamStep _ _ _

/-- Every primitive command keeps the form of the streams. -/
theorem primitiveBody_streamStep (c : Cmd) (s : State) : (primitiveBody c s).within StreamStep s := by
  cases c with
  | count => exact countBody_streamStep s
  | build => exact buildBody_streamStep s
  | gencodes => exact gencodesBody_streamStep s
  | wrmagic => exact outWrite_streamStep _ _ _
  | wrtree => exact wrtreeBody_streamStep s
  | encbody => exact encbodyBody_streamStep s
  | rdmagic => exact rdmagicBody_streamStep s
  | rdtree => exact rdtreeBody_streamStep s
  | decbody => exact decbodyBody_streamStep s
  | rewind => exact inRewind_streamStep s
  | close => exact closeStreams_streamStep s
  | compress => exact .refl s
  | decompress => exact .refl s
  | clear => exact .refl s

theorem runSteps_streamStep (c : Cmd) (ps : List Cmd) (s : State) : (runSteps c ps s).within StreamStep s := by
  induction ps generalizing s with
  | nil => exact .refl s
  | cons p ps ih =>
    exact streamStep_bind
      (streamStep_after (.of_eq rfl rfl rfl : StreamStep s (atStep c p s)) (primitiveBody_streamStep p _))
      fun _ _ _ => ih _

theorem unwind_streamStep (c : Cmd) {r : Res Unit} {s : State} (h : r.within StreamStep s) :
    (unwind c r).within StreamStep s := by
  cases r with
  | ok a t =>
    simp only [unwind]
    split
    · exact h.trans _ _ _ (.of_eq rfl rfl rfl)
    · exact h
  | raised e t =>
    simp only [unwind]
    split
    · exact streamStep_after h (streamStep_bind (closeStreams_streamStep t) fun _ _ _ => .of_eq rfl rfl rfl)
    · exact h
  | refused r => trivial

theorem settle_streamStep {r : Res Unit} {s t : State} (h : r.within StreamStep s) (ht : settle r = .next t) :
    StreamStep s t := by
  cases r with
  | ok a u => simp only [settle, Host.Outcome.next.injEq] at ht; subst ht; exact h.trans _ _ _ (.of_eq rfl rfl rfl)
  | raised e u => simp only [settle, Host.Outcome.next.injEq] at ht; subst ht; exact h.trans _ _ _ (.of_eq rfl rfl rfl)
  | refused r => simp [settle] at ht

/-- What an accepted or refused offer comes to. -/
theorem gate_cases {a : Bool} {s t : State} {k : State → Host.Outcome State Fault Refusal}
    (h : gate a s k = .next t) :
    (s.status.busy = true ∧ t = s) ∨
      (s.status.busy = false ∧ s.status.err = true ∧ a = false ∧ t = ignored s) ∨
      (s.status.busy = false ∧ (s.status.err = true → a = true) ∧ k s = .next t) := by
  unfold gate at h
  cases hb : s.status.busy <;> cases he : s.status.err <;> cases a <;> simp_all

theorem runCommand_streamStep {c : Cmd} {body : State → Res Unit} (hb : ∀ s, (body s).within StreamStep s) {s t : State}
    (h : runCommand c body s = .next t) : StreamStep s t := by
  obtain ⟨-, rfl⟩ | ⟨-, -, -, rfl⟩ | ⟨-, -, h⟩ := gate_cases h
  · exact .refl _
  · exact .of_eq rfl rfl rfl
  · exact settle_streamStep
      (unwind_streamStep c (streamStep_after (.of_eq rfl rfl rfl : StreamStep s (accept c s)) (hb _))) h

end Sys2Proof.Machine
end

