-- ==== Sys2Proof/Laws/Frames.lean ====
section
/-! SUPPORT. The frame of every unit: which elements of the state it may change (10_state.md R39). -/

namespace Sys2Proof.Machine

variable {α β : Type}

/-- The elements of the state. -/
inductive Field where
  | freq | tree | code | pq | seq | cur | nnode | stack | busy | done | err | freqValid | treeValid | codeValid
  | errcode | errcmd | phase | inp | out | port | draws
  deriving DecidableEq, Repr

/-- An element has the same value in two states. -/
def Field.same (f : Field) (s t : State) : Prop :=
  match f with
  | .freq => t.freq = s.freq
  | .tree => t.tree = s.tree
  | .code => t.code = s.code
  | .pq => t.pq = s.pq
  | .seq => t.seq = s.seq
  | .cur => t.cur = s.cur
  | .nnode => t.nnode = s.nnode
  | .stack => t.stack = s.stack
  | .busy => t.status.busy = s.status.busy
  | .done => t.status.done = s.status.done
  | .err => t.status.err = s.status.err
  | .freqValid => t.status.freqValid = s.status.freqValid
  | .treeValid => t.status.treeValid = s.status.treeValid
  | .codeValid => t.status.codeValid = s.status.codeValid
  | .errcode => t.errcode = s.errcode
  | .errcmd => t.errcmd = s.errcmd
  | .phase => t.phase = s.phase
  | .inp => t.inp = s.inp
  | .out => t.out = s.out
  | .port => t.port = s.port
  | .draws => t.draws = s.draws

/-- Every element but those listed is unchanged. -/
def OnlyChanges (c : List Field) (s t : State) : Prop := ∀ f, f ∉ c → f.same s t

theorem Field.same_refl (f : Field) (s : State) : f.same s s := by cases f <;> rfl

theorem Field.same_trans {f : Field} {s t u : State} (h : f.same s t) (k : f.same t u) : f.same s u := by
  cases f <;> exact Eq.trans k h

theorem OnlyChanges.refl (c : List Field) (s : State) : OnlyChanges c s s := fun f _ => f.same_refl s

theorem OnlyChanges.trans {c : List Field} (s t u : State) (h : OnlyChanges c s t) (k : OnlyChanges c t u) :
    OnlyChanges c s u := fun f hf => Field.same_trans (h f hf) (k f hf)

theorem OnlyChanges.mono {c d : List Field} (hs : c ⊆ d) {s t : State} (h : OnlyChanges c s t) : OnlyChanges d s t :=
  fun f hf => h f fun hc => hf (hs hc)

theorem within_mono {R S : State → State → Prop} {s : State} {r : Res α} (hRS : ∀ t, R s t → S s t)
    (h : r.within R s) : r.within S s := by
  cases r with
  | ok a t => exact hRS t h
  | raised e t => exact hRS t h
  | refused r => trivial

theorem frame_bind {c : List Field} {s : State} {r : Res α} {k : α → State → Res β}
    (h : r.within (OnlyChanges c) s) (hk : ∀ a t, r = .ok a t → (k a t).within (OnlyChanges c) t) :
    (r.bind k).within (OnlyChanges c) s :=
  Res.within_bind OnlyChanges.trans h hk

theorem frame_after {c : List Field} {s t : State} {r : Res α} (h : OnlyChanges c s t)
    (hr : r.within (OnlyChanges c) t) : r.within (OnlyChanges c) s := by
  cases r with
  | ok a u => exact h.trans _ _ _ hr
  | raised e u => exact h.trans _ _ _ hr
  | refused r => trivial

theorem frame_widen {c d : List Field} (hs : c ⊆ d) {s : State} {r : Res α} (h : r.within (OnlyChanges c) s) :
    r.within (OnlyChanges d) s := within_mono (fun _ k => k.mono hs) h

/-! ### The named updates -/

theorem advance_frame (n : Nat) (s : State) : OnlyChanges [.inp] s (advance n s) := by
  intro f hf; cases f <;> first | rfl | simp at hf

theorem toEnd_frame (s : State) : OnlyChanges [.inp] s (toEnd s) := by
  intro f hf; cases f <;> first | rfl | simp at hf

theorem append_frame (b : BitString) (s : State) : OnlyChanges [.out] s (append b s) := by
  intro f hf; cases f <;> first | rfl | simp at hf

theorem closedStreams_frame (s : State) : OnlyChanges [.inp, .out, .draws] s (closedStreams s) := by
  intro f hf; cases f <;> first | rfl | simp at hf

theorem bumpFreq_frame (b : Byte) (s : State) : OnlyChanges [.freq] s (bumpFreq b s) := by
  intro f hf; cases f <;> first | rfl | simp at hf

theorem countInit_frame (s : State) : OnlyChanges [.freq, .freqValid, .treeValid, .codeValid] s (countInit s) := by
  intro f hf; cases f <;> first | rfl | simp at hf

theorem markFreq_frame (s : State) : OnlyChanges [.freqValid] s (markFreq s) := by
  intro f hf; cases f <;> first | rfl | simp at hf

theorem dropTree_frame (s : State) : OnlyChanges [.treeValid, .codeValid] s (dropTree s) := by
  intro f hf; cases f <;> first | rfl | simp at hf

theorem putTree_frame (t : CodeTree) (s : State) : OnlyChanges [.tree, .treeValid] s (putTree t s) := by
  intro f hf; cases f <;> first | rfl | simp at hf

theorem dropCode_frame (s : State) : OnlyChanges [.codeValid] s (dropCode s) := by
  intro f hf; cases f <;> first | rfl | simp at hf

theorem rdtreeInit_frame (s : State) :
    OnlyChanges [.tree, .nnode, .stack, .treeValid, .codeValid] s (rdtreeInit s) := by
  intro f hf; cases f <;> first | rfl | simp at hf

theorem cleardata_frame (s : State) :
    OnlyChanges [.freq, .tree, .code, .pq, .seq, .nnode, .freqValid, .treeValid, .codeValid] s (cleardata s) := by
  intro f hf; cases f <;> first | rfl | simp at hf

theorem accept_frame (c : Cmd) (s : State) : OnlyChanges [.busy, .done, .phase] s (accept c s) := by
  intro f hf; cases f <;> first | rfl | simp at hf

theorem atStep_frame (c p : Cmd) (s : State) : OnlyChanges [.phase] s (atStep c p s) := by
  intro f hf; cases f <;> first | rfl | simp at hf

theorem finish_frame (s : State) : OnlyChanges [.busy, .done, .phase, .stack] s (finish s) := by
  intro f hf; cases f <;> first | rfl | simp at hf

theorem faultEntry_frame (e : FaultKind) (op : BitVec 4) (s : State) :
    OnlyChanges [.busy, .done, .err, .errcode, .errcmd, .phase, .stack] s (faultEntry e op s) := by
  intro f hf; cases f <;> first | rfl | simp at hf

theorem ignored_frame (s : State) : OnlyChanges [.done] s (ignored s) := by
  intro f hf; cases f <;> first | rfl | simp at hf

theorem pointAt_frame (u : CodeTree) (s : State) : OnlyChanges [.cur] s { s with cur := u } := by
  intro f hf; cases f <;> first | rfl | simp at hf

/-! ### The stream transactions -/

theorem inRead_frame (w : Nat) (s : State) : (inRead w s).within (OnlyChanges [.inp]) s := by
  obtain ⟨-, h⟩ | ⟨-, -, v, h⟩ | ⟨-, -, h⟩ := inRead_cases w s <;> rw [h]
  · trivial
  · exact advance_frame w s
  · exact toEnd_frame s

theorem outWrite_frame (w v : Nat) (s : State) : (outWrite w v s).within (OnlyChanges [.out]) s := by
  cases h : s.out.isOpen with
  | false => rw [outWrite_refused h]; trivial
  | true => rw [outWrite_open h]; exact append_frame _ s

theorem inRewind_frame (s : State) : (inRewind s).within (OnlyChanges [.inp]) s := by
  unfold inRewind
  split
  · intro f hf; cases f <;> first | rfl | simp at hf
  · trivial

theorem closeStreams_frame (s : State) : (closeStreams s).within (OnlyChanges [.inp, .out, .draws]) s := by
  cases h : s.out.isOpen with
  | false => rw [closeStreams_refused h]; trivial
  | true => rw [closeStreams_open h]; exact closedStreams_frame s

/-! ### The units -/

theorem require_frame (c : List Field) (b : Bool) (e : FaultKind) (s : State) :
    (require b e s).within (OnlyChanges c) s := by
  cases b <;> exact .refl _ s

theorem needTree_frame {c : List Field} {s : State} {k : CodeTree → State → Res α}
    (hk : ∀ t, (k t s).within (OnlyChanges c) s) : (needTree s k).within (OnlyChanges c) s := by
  unfold needTree
  split
  · exact .refl _ s
  · exact hk _

theorem eachByte_frame {c : List Field} (hc : [.inp] ⊆ c) (body : Byte → State → Res Unit)
    (hb : ∀ b s, (body b s).within (OnlyChanges c) s) (n : Nat) (s : State) :
    (eachByte body n s).within (OnlyChanges c) s := by
  induction n generalizing s with
  | zero => exact .refl _ s
  | succ n ih =>
    refine frame_bind (frame_widen hc (inRead_frame 8 s)) fun v t _ => ?_
    cases v with
    | none => exact .refl _ t
    | some b => exact frame_bind (hb b t) fun _ u _ => ih u

/-- What the body of each primitive command may change (10_state.md R39). -/
def bodyChanges : Cmd → List Field
  | .count => [.freq, .freqValid, .treeValid, .codeValid, .inp]
  | .build => [.tree, .treeValid, .codeValid, .pq, .seq]
  | .gencodes => [.code, .codeValid]
  | .wrmagic => [.out]
  | .wrtree => [.out]
  | .encbody => [.inp, .out]
  | .rdmagic => [.inp]
  | .rdtree => [.tree, .treeValid, .codeValid, .nnode, .stack, .inp]
  | .decbody => [.inp, .out, .cur]
  | .rewind => [.inp]
  | .close => [.inp, .out, .draws]
  | .compress | .decompress | .clear => []

theorem countBody_frame (s : State) : (countBody s).within (OnlyChanges (bodyChanges .count)) s := by
  have hb : ∀ b t, (Res.ok () (bumpFreq b t)).within (OnlyChanges (bodyChanges .count)) t := fun b t =>
    (bumpFreq_frame b t).mono (by decide)
  exact frame_bind
    (frame_after ((countInit_frame s).mono (by decide)) (eachByte_frame (by decide) _ hb _ _))
    fun _ t _ => (markFreq_frame t).mono (by decide)

theorem buildBody_frame (s : State) : (buildBody s).within (OnlyChanges (bodyChanges .build)) s := by
  refine frame_bind (require_frame _ _ _ _) fun _ t _ => ?_
  intro f hf; cases f <;> first | rfl | simp [bodyChanges] at hf

theorem gencodesBody_frame (s : State) : (gencodesBody s).within (OnlyChanges (bodyChanges .gencodes)) s := by
  refine needTree_frame fun t => frame_bind
    (frame_after ((dropCode_frame s).mono (by decide)) (require_frame _ _ _ (dropCode s))) fun _ u _ => ?_
  intro f hf; cases f <;> first | rfl | simp [bodyChanges] at hf

theorem writeTree_frame (t : CodeTree) (s : State) : (writeTree t s).within (OnlyChanges [.out]) s := by
  induction t generalizing s with
  | leaf y => exact frame_bind (outWrite_frame _ _ _) fun _ _ _ => outWrite_frame _ _ _
  | node l r hl hr => exact frame_bind (outWrite_frame _ _ _) fun _ _ _ => frame_bind (hl _) fun _ _ _ => hr _

theorem writeCode_frame (n : Nat) (c : BitString) (s : State) : (writeCode n c s).within (OnlyChanges [.out]) s := by
  induction n generalizing c s with
  | zero => exact .refl _ s
  | succ n ih =>
    cases c with
    | nil => exact .refl _ s
    | cons b bs => exact frame_bind (outWrite_frame _ _ _) fun _ _ _ => ih _ _

theorem emitSymbol_frame (y : Sym) (s : State) : (emitSymbol y s).within (OnlyChanges [.out]) s := by
  unfold emitSymbol
  split
  · exact .refl _ s
  · exact writeCode_frame _ _ _

theorem encbodyBody_frame (s : State) : (encbodyBody s).within (OnlyChanges (bodyChanges .encbody)) s :=
  frame_bind (require_frame _ _ _ _) fun _ _ _ =>
    frame_bind
      (eachByte_frame (by decide) _ (fun _ _ => frame_widen (by decide) (emitSymbol_frame _ _)) _ _)
      fun _ _ _ => frame_widen (by decide) (emitSymbol_frame _ _)

theorem encodeNext_frame (s : State) : (encodeNext s).within (OnlyChanges (bodyChanges .encbody)) s := by
  refine frame_bind (frame_widen (by decide) (inRead_frame 8 s)) fun v t _ => ?_
  cases v with
  | none => exact frame_bind (frame_widen (by decide) (emitSymbol_frame _ _)) fun _ u _ => .refl _ u
  | some b => exact frame_bind (frame_widen (by decide) (emitSymbol_frame _ _)) fun _ u _ => .refl _ u

theorem takeMarker_frame (s : State) : (takeMarker s).within (OnlyChanges [.inp, .nnode]) s := by
  refine frame_bind (frame_widen (by decide) (inRead_frame 1 s)) fun m t _ => ?_
  cases m with
  | none => exact .refl _ t
  | some m =>
    simp only
    split
    · exact .refl _ t
    · intro f hf; cases f <;> first | rfl | simp at hf

theorem takeField_frame (s : State) : (takeField s).within (OnlyChanges [.inp]) s :=
  frame_bind (inRead_frame 9 s) fun f t _ => by cases f <;> exact .refl _ t

theorem checkField_frame (c : List Field) (f : BitVec 9) (s : State) :
    (checkField f s).within (OnlyChanges c) s := by
  unfold checkField; split <;> exact .refl _ s

theorem readNode_frame (s : State) : (readNode s).within (OnlyChanges [.inp, .nnode]) s := by
  refine frame_bind (takeMarker_frame s) fun m t _ => ?_
  split
  · exact frame_bind (frame_widen (by decide) (takeField_frame t)) fun f u _ =>
      frame_bind (checkField_frame _ f u) fun _ v _ => .refl _ v
  · exact .refl _ t

theorem readTree_frame (n : Nat) (s : State) : (readTree n s).within (OnlyChanges [.inp, .nnode]) s := by
  induction n generalizing s with
  | zero => exact frame_bind (readNode_frame s) fun _ t _ => .refl _ t
  | succ n ih =>
    refine frame_bind (readNode_frame s) fun k t _ => ?_
    cases k with
    | leaf y => exact .refl _ t
    | internal => exact frame_bind (ih t) fun _ u _ => frame_bind (ih u) fun _ v _ => .refl _ v

theorem rdtreeBody_frame (s : State) : (rdtreeBody s).within (OnlyChanges (bodyChanges .rdtree)) s :=
  frame_bind
    (frame_after ((rdtreeInit_frame s).mono (by decide)) (frame_widen (by decide) (readTree_frame _ _)))
    fun _ t _ => (putTree_frame _ t).mono (by decide)

theorem acceptNode_frame (k : NodeToken) (s : State) :
    (acceptNode k s).within (OnlyChanges [.stack, .tree, .treeValid]) s := by
  cases k with
  | internal => intro f hf; cases f <;> first | rfl | simp at hf
  | leaf y =>
    unfold acceptNode; simp only
    split <;> (intro f hf; cases f <;> first | rfl | simp at hf)

theorem checkMagic_frame (c : List Field) (v : Option (BitVec 32)) (s : State) :
    (checkMagic v s).within (OnlyChanges c) s := by
  unfold checkMagic; split <;> exact .refl _ s

theorem rdmagicBody_frame (s : State) : (rdmagicBody s).within (OnlyChanges [.inp]) s :=
  frame_bind (inRead_frame 32 s) fun v t _ => checkMagic_frame _ v t

theorem decodeBit_frame (root : CodeTree) (b : Bool) (s : State) :
    (decodeBit root b s).within (OnlyChanges [.out, .cur]) s := by
  unfold decodeBit
  split
  · exact (pointAt_frame _ s).mono (by decide)
  · next y _ =>
    split
    · exact (pointAt_frame _ s).mono (by decide)
    · exact frame_bind
        (frame_after ((pointAt_frame (.leaf y) s).mono (by decide)) (frame_widen (by decide) (outWrite_frame _ _ _)))
        fun _ t _ => (pointAt_frame root t).mono (by decide)

theorem decodeLoop_frame (root : CodeTree) (n : Nat) (s : State) :
    (decodeLoop root n s).within (OnlyChanges [.inp, .out, .cur]) s := by
  induction n generalizing s with
  | zero => exact .refl _ s
  | succ n ih =>
    refine frame_bind (frame_widen (by decide) (inRead_frame 1 s)) fun b t _ => ?_
    cases b with
    | none => exact .refl _ t
    | some b =>
      refine frame_bind (frame_widen (by decide) (decodeBit_frame root _ t)) fun fin u _ => ?_
      cases fin
      · exact ih u
      · exact .refl _ u

theorem decodeToken_frame (root : CodeTree) (p : BitString) (s : State) :
    (decodeToken root p s).within (OnlyChanges [.inp, .out, .cur]) s := by
  induction p generalizing s with
  | nil => exact .refl _ s
  | cons b bs ih =>
    refine frame_bind (frame_widen (by decide) (inRead_frame 1 s)) fun v t _ => ?_
    cases v with
    | none => exact .refl _ t
    | some v =>
      refine frame_bind (frame_widen (by decide) (decodeBit_frame root _ t)) fun fin u _ => ?_
      cases fin
      · exact ih u
      · exact .refl _ u

theorem decbodyInit_frame (s : State) : (decbodyInit s).within (OnlyChanges [.cur]) s :=
  needTree_frame fun t => frame_bind (require_frame _ _ _ s) fun _ u _ => pointAt_frame t u

theorem decbodyBody_frame (s : State) : (decbodyBody s).within (OnlyChanges (bodyChanges .decbody)) s :=
  frame_bind (frame_widen (by decide) (decbodyInit_frame s)) fun _ _ _ =>
    frame_widen (by decide) (decodeLoop_frame _ _ _)

theorem primitiveBody_frame (c : Cmd) (s : State) : (primitiveBody c s).within (OnlyChanges (bodyChanges c)) s := by
  cases c with
  | count => exact countBody_frame s
  | build => exact buildBody_frame s
  | gencodes => exact gencodesBody_frame s
  | wrmagic => exact outWrite_frame _ _ _
  | wrtree => exact needTree_frame fun _ => writeTree_frame _ _
  | encbody => exact encbodyBody_frame s
  | rdmagic => exact rdmagicBody_frame s
  | rdtree => exact rdtreeBody_frame s
  | decbody => exact decbodyBody_frame s
  | rewind => exact inRewind_frame s
  | close => exact closeStreams_frame s
  | compress => exact .refl _ s
  | decompress => exact .refl _ s
  | clear => exact .refl _ s

/-- No step of a composite command touches the flags of the command port, the error registers or the host's list. -/
theorem runSteps_frame (c : Cmd) (ps : List Cmd) (s : State) :
    (runSteps c ps s).within
      (OnlyChanges
        [.freq, .tree, .code, .pq, .seq, .cur, .nnode, .stack, .freqValid, .treeValid, .codeValid, .phase, .inp, .out,
          .draws]) s := by
  induction ps generalizing s with
  | nil => exact .refl _ s
  | cons p ps ih =>
    exact frame_bind
      (frame_after ((atStep_frame c p s).mono (by decide))
        (frame_widen (by cases p <;> decide) (primitiveBody_frame p _)))
      fun _ _ _ => ih _

/-- Everything a primitive command can come to: the offer waits, is ignored, or runs to its end or to a fault. -/
theorem runCommand_cases {c : Cmd} (hc : c.composite = false) {body : State → Res Unit} {s t : State}
    (h : runCommand c body s = .next t) :
    (s.status.busy = true ∧ t = s) ∨
      (s.status.busy = false ∧ s.status.err = true ∧ c.actsOnErr = false ∧ t = ignored s) ∨
      (s.status.busy = false ∧ (s.status.err = true → c.actsOnErr = true) ∧
        ((∃ u, body (accept c s) = .ok () u ∧ t = finish u) ∨
          ∃ e u, body (accept c s) = .raised e u ∧ t = faultEntry e u.phase.opcode u)) := by
  obtain h | h | ⟨hb, he, h⟩ := gate_cases h
  · exact .inl h
  · exact .inr (.inl h)
  · refine .inr (.inr ⟨hb, he, ?_⟩)
    rw [unwind_primitive hc] at h
    cases hr : body (accept c s) with
    | ok a u => cases a; rw [hr] at h; simp only [settle_ok, Host.Outcome.next.injEq] at h; exact .inl ⟨u, rfl, h.symm⟩
    | raised e u => rw [hr] at h; simp only [settle_raised, Host.Outcome.next.injEq] at h; exact .inr ⟨e, u, rfl, h.symm⟩
    | refused r => rw [hr] at h; simp at h

/-- Everything a composite command can come to. -/
theorem runCommand_cases_composite {c : Cmd} (hc : c.composite = true) {body : State → Res Unit} {s t : State}
    (h : runCommand c body s = .next t) :
    (s.status.busy = true ∧ t = s) ∨ (s.status.busy = false ∧ s.status.err = true ∧ t = ignored s) ∨
      (s.ready ∧
        ((∃ u, body (accept c s) = .ok () u ∧ t = finish (cleardata u)) ∨
          ∃ e u, body (accept c s) = .raised e u ∧ u.out.isOpen = true ∧
            t = faultEntry e u.phase.opcode (cleardata (closedStreams u)))) := by
  obtain h | ⟨h1, h2, -, h3⟩ | ⟨hb, he, h⟩ := gate_cases h
  · exact .inl h
  · exact .inr (.inl ⟨h1, h2, h3⟩)
  · have he : s.status.err = false := by
      cases hs : s.status.err with
      | false => rfl
      | true => have := he hs; cases c <;> simp [Cmd.composite, Cmd.actsOnErr] at hc this
    refine .inr (.inr ⟨⟨hb, he⟩, ?_⟩)
    cases hr : body (accept c s) with
    | ok a u =>
      cases a
      rw [hr, unwind_composite_ok hc] at h
      simp only [settle_ok, Host.Outcome.next.injEq] at h
      exact .inl ⟨u, rfl, h.symm⟩
    | raised e u =>
      cases ho : u.out.isOpen with
      | true =>
        rw [hr, unwind_composite_raised hc e ho] at h
        simp only [settle_raised, Host.Outcome.next.injEq] at h
        exact .inr ⟨e, u, rfl, ho, h.symm⟩
      | false => rw [hr] at h; simp [unwind, hc, closeStreams_refused ho] at h
    | refused r => rw [hr] at h; simp at h

end Sys2Proof.Machine
end

