-- ==== Sys2Proof/Laws/Reader.lean ====
section
/-! SUPPORT. Everything the readers can do: a node of a header, a header, a bit of a body (43_tree_codec.md R154 to R157,
45_decoder.md R193). -/

namespace Sys2Proof.Machine

/-- Everything the marker read can do while the input is open. -/
theorem takeMarker_cases {s : State} (ho : s.inp.isOpen = true) :
    (s.ahead = [] ∧ takeMarker s = .raised .truncatedHeader (toEnd s)) ∨
      ∃ b rest, s.ahead = b :: rest ∧
        ((s.nnode.toNat = Config.nodeCap ∧ takeMarker s = .raised .treeOverflow (advance 1 s)) ∨
          (s.nnode.toNat ≠ Config.nodeCap ∧
            takeMarker s = .ok (BitVec.ofNat 1 (valOf [b])) (tally 1 (advance 1 s)))) := by
  cases h : s.ahead with
  | nil => exact .inl ⟨rfl, by simp [takeMarker, inRead_none ho (w := 1) (by simp [h])]⟩
  | cons b rest =>
    refine .inr ⟨b, rest, rfl, ?_⟩
    have hn : (advance 1 s).nnode = s.nnode := rfl
    by_cases hc : s.nnode.toNat = Config.nodeCap
    · exact .inl ⟨hc, by simp [takeMarker, inRead_one ho h, hn, hc]⟩
    · exact .inr ⟨hc, by simp [takeMarker, inRead_one ho h, hn, hc, tally]⟩

/-- Everything the field read can do while the input is open. -/
theorem takeField_cases {s : State} (ho : s.inp.isOpen = true) :
    (s.ahead.length < 9 ∧ takeField s = .raised .truncatedHeader (toEnd s)) ∨
      (9 ≤ s.ahead.length ∧ takeField s = .ok (BitVec.ofNat 9 (valOf (s.ahead.take 9))) (advance 9 s)) := by
  by_cases h : s.ahead.length < 9
  · exact .inl ⟨h, by simp [takeField, inRead_none ho h]⟩
  · exact .inr ⟨by omega, by simp [takeField, inRead_some ho (by omega) (by omega : 9 ≤ s.ahead.length)]⟩

/-- Everything the range test of a symbol field can do. -/
theorem checkField_cases (f : BitVec 9) (s : State) :
    (256 < f.toNat ∧ checkField f s = .raised .invalidSymbol s) ∨
      ∃ y : Sym, y.val = f.toNat ∧ checkField f s = .ok y s := by
  by_cases h : f.toNat < 257
  · exact .inr ⟨⟨f.toNat, h⟩, rfl, by simp [checkField, symOfField, h]⟩
  · exact .inl ⟨by omega, by simp [checkField, symOfField, h]⟩

/-- The three faults of a header (43_tree_codec.md R155 to R157). -/
def FaultKind.ofHeader (e : FaultKind) : Prop := e = .truncatedHeader ∨ e = .invalidSymbol ∨ e = .treeOverflow

/-- Everything the read of one node can do while the input is open. A node read is one whose token stands ahead. -/
theorem readNode_cases {s : State} (ho : s.inp.isOpen = true) :
    (∃ e u, readNode s = .raised e u ∧ e.ofHeader) ∨
      (s.nnode.toNat ≠ Config.nodeCap ∧
        ((∃ rest, s.ahead = false :: rest ∧ readNode s = .ok .internal (tally 1 (advance 1 s))) ∨
          ∃ y rest, s.ahead = true :: (bitsOf 9 y.val ++ rest) ∧
            readNode s = .ok (.leaf y) (tally 1 (advance 10 s)))) := by
  rw [readNode]
  obtain ⟨-, h⟩ | ⟨b, rest, hb, ⟨-, h⟩ | ⟨hn, h⟩⟩ := takeMarker_cases ho
  · exact .inl ⟨_, _, by rw [h]; rfl, .inl rfl⟩
  · exact .inl ⟨_, _, by rw [h]; rfl, .inr (.inr rfl)⟩
  · rw [h, Res.bind_ok]
    cases b with
    | false => exact .inr ⟨hn, .inl ⟨rest, hb, by rw [if_neg (by decide)]⟩⟩
    | true =>
      rw [if_pos (by decide)]
      have ha : (tally 1 (advance 1 s)).ahead = rest := by
        have : (tally 1 (advance 1 s)).ahead = (advance 1 s).ahead := rfl
        rw [this, ahead_advance, hb]; rfl
      obtain ⟨-, hf⟩ | ⟨h9, hf⟩ := takeField_cases (s := tally 1 (advance 1 s)) ho
      · exact .inl ⟨_, _, by rw [hf]; rfl, .inl rfl⟩
      · rw [hf, Res.bind_ok]
        obtain ⟨-, hc⟩ | ⟨y, hy, hc⟩ := checkField_cases
          (BitVec.ofNat 9 (valOf ((tally 1 (advance 1 s)).ahead.take 9))) (advance 9 (tally 1 (advance 1 s)))
        · exact .inl ⟨_, _, by rw [hc]; rfl, .inr (.inl rfl)⟩
        · refine .inr ⟨hn, .inr ⟨y, rest.drop 9, ?_, ?_⟩⟩
          · rw [ha] at h9 hy
            have hlen : (rest.take 9).length = 9 := by rw [List.length_take]; omega
            have hlt := valOf_lt (rest.take 9)
            rw [hlen] at hlt
            have hv : y.val = valOf (rest.take 9) := by
              rw [hy, BitVec.toNat_ofNat, Nat.mod_eq_of_lt hlt]
            have := bitsOf_valOf (rest.take 9)
            rw [hlen] at this
            rw [hb, hv, this, List.take_append_drop]
          · rw [hc]
            simp [tally, advance, Nat.add_assoc]

theorem advance_open {n : Nat} {s : State} (h : s.inp.isOpen = true) : (tally 1 (advance n s)).inp.isOpen = true := h

/-- Everything the header reader can do while the input is open: a tree whose header stands ahead and whose nodes fit
under the cap, or one of the three header faults. -/
theorem readTree_cases (n : Nat) {s : State} (ho : s.inp.isOpen = true) (hn : s.nnode.toNat ≤ Config.nodeCap) :
    (∃ e u, readTree n s = .raised e u ∧ e.ofHeader) ∨
      ∃ t rest, s.ahead = encTree t ++ rest ∧ s.nnode.toNat + t.nodes ≤ Config.nodeCap ∧
        readTree n s = .ok t (tally t.nodes (advance (encTree t).length s)) := by
  induction n generalizing s with
  | zero =>
    rw [readTree]
    obtain ⟨e, u, h, he⟩ | ⟨-, ⟨rest, -, h⟩ | ⟨y, rest, -, h⟩⟩ := readNode_cases ho
    · exact .inl ⟨e, u, by rw [h]; rfl, he⟩
    · exact .inl ⟨_, _, by rw [h]; rfl, .inr (.inr rfl)⟩
    · exact .inl ⟨_, _, by rw [h]; rfl, .inr (.inr rfl)⟩
  | succ n ih =>
    rw [readTree]
    obtain ⟨e, u, h, he⟩ | ⟨hc, ⟨rest, ha, h⟩ | ⟨y, rest, ha, h⟩⟩ := readNode_cases ho
    · exact .inl ⟨e, u, by rw [h]; rfl, he⟩
    · have h1n := tally_nnode (n := 1) (s := advance 1 s) (by change s.nnode.toNat + 1 ≤ _; omega)
      change _ = s.nnode.toNat + 1 at h1n
      rw [h, Res.bind_ok]
      simp only
      obtain ⟨e, u, hl, he⟩ | ⟨l, restl, hal, hnl, hl⟩ := ih (s := tally 1 (advance 1 s)) ho (by omega)
      · exact .inl ⟨e, u, by rw [hl]; rfl, he⟩
      · rw [hl, Res.bind_ok]
        have h2n := tally_nnode (n := l.nodes) (s := advance (encTree l).length (tally 1 (advance 1 s))) (by
          change (tally 1 (advance 1 s)).nnode.toNat + _ ≤ _; omega)
        change _ = (tally 1 (advance 1 s)).nnode.toNat + _ at h2n
        obtain ⟨e, u, hr, he⟩ | ⟨r, restr, har, hnr, hr⟩ :=
          ih (s := tally l.nodes (advance (encTree l).length (tally 1 (advance 1 s)))) ho (by omega)
        · exact .inl ⟨e, u, by rw [hr]; rfl, he⟩
        · have e1 : (tally 1 (advance 1 s)).ahead = rest := by
            have : (tally 1 (advance 1 s)).ahead = (advance 1 s).ahead := rfl
            rw [this, ahead_advance, ha]; rfl
          have e2 : (tally l.nodes (advance (encTree l).length (tally 1 (advance 1 s)))).ahead = restl := by
            have : (tally l.nodes (advance (encTree l).length (tally 1 (advance 1 s)))).ahead =
              (advance (encTree l).length (tally 1 (advance 1 s))).ahead := rfl
            rw [this, ahead_advance, hal]; simp
          refine .inr ⟨.node l r, restr, ?_, ?_, ?_⟩
          · rw [ha, CodeTree.encTree_node, ← e1, hal, ← e2, har]; simp
          · rw [CodeTree.nodes]; omega
          · rw [hr, Res.bind_ok]
            congr 1
            simp only [tally, advance, CodeTree.encTree_node, CodeTree.nodes, List.length_cons, List.length_append,
              Nat.add_assoc, BitVec.add_assoc]
            congr 1
            · congr 1
              rw [← BitVec.ofNat_add, ← BitVec.ofNat_add]; congr 1; omega
            · congr 1; omega
    · refine .inr ⟨.leaf y, rest, by rw [ha, CodeTree.encTree_leaf]; rfl, by simp only [CodeTree.nodes]; omega, ?_⟩
      rw [h]
      simp [CodeTree.encTree_leaf, CodeTree.nodes]

/-! ### Node tokens -/

theorem encode_leaf_instr (y : Sym) : encode (NodeToken.leaf y).instr = true :: bitsOf 9 y.val := by
  have : (BitVec.ofNat 9 y.val).toNat = y.val := Nat.mod_eq_of_lt (by have := y.isLt; omega)
  simp only [NodeToken.instr, encode, this]

@[simp] theorem tokenBits_nil : tokenBits [] = [] := rfl

@[simp] theorem tokenBits_cons (k : NodeToken) (l : List NodeToken) :
    tokenBits (k :: l) = encode k.instr ++ tokenBits l := rfl

@[simp] theorem tokenBits_append (l m : List NodeToken) : tokenBits (l ++ m) = tokenBits l ++ tokenBits m := by
  simp [tokenBits]

theorem tally_zero (s : State) : tally 0 s = s := by simp [tally]

/-- After `m` nodes in `b` bits and `n` more in `c` bits. -/
theorem tally_tally (m n b c : Nat) (s : State) :
    tally n (advance c (tally m (advance b s))) = tally (m + n) (advance (b + c) s) := by
  simp [tally, advance, BitVec.add_assoc, Nat.add_assoc, BitVec.ofNat_add]

/-- A node token that stands ahead is read as that token (30_encoding.md R86, R87). -/
theorem readNode_token {s : State} {k : NodeToken} {after : BitString} (ho : s.inp.isOpen = true)
    (hn : s.nnode.toNat < Config.nodeCap) (h : s.ahead = encode k.instr ++ after) :
    readNode s = .ok k (tally 1 (advance (encode k.instr).length s)) := by
  cases k with
  | internal => exact readNode_internal ho hn h
  | leaf y =>
    rw [encode_leaf_instr] at h ⊢
    simpa using readNode_leaf ho hn h

/-- Everything the header reader does on node tokens: some first ones are a whole tree, with one leaf more than internal
nodes, or it reads them all and meets what stands after them. -/
theorem readTree_tokens (n : Nat) (l : List NodeToken) {s : State} {after : BitString} (ho : s.inp.isOpen = true)
    (hf : Config.nodeCap ≤ n + s.nnode.toNat) (hc : s.nnode.toNat + l.length ≤ Config.nodeCap)
    (h : s.ahead = tokenBits l ++ after) :
    (∃ l₁ l₂ t, l = l₁ ++ l₂ ∧ l₁.countP (fun x => x ≠ .internal) = l₁.count .internal + 1 ∧
        readTree n s = .ok t (tally l₁.length (advance (tokenBits l₁).length s))) ∨
      ∀ e u, readNode (tally l.length (advance (tokenBits l).length s)) = .raised e u → readTree n s = .raised e u := by
  induction n generalizing l s with
  | zero =>
    have : l = [] := List.eq_nil_of_length_eq_zero (by omega)
    subst this
    exact .inr fun e u hr => by rw [List.length_nil, tokenBits_nil, tally_zero] at hr; rw [readTree, show readNode s = _ from hr]; rfl
  | succ n ih =>
    cases l with
    | nil =>
      exact .inr fun e u hr => by
        rw [List.length_nil, tokenBits_nil, tally_zero] at hr; rw [readTree, show readNode s = _ from hr]; rfl
    | cons k l =>
      rw [List.length_cons] at hc
      rw [tokenBits_cons, List.append_assoc] at h
      have hk := readNode_token ho (by omega) h
      rw [readTree, hk, Res.bind_ok]
      cases k with
      | leaf y => exact .inl ⟨[.leaf y], l, .leaf y, rfl, rfl, by simp⟩
      | internal =>
        have n1 := tally_nnode (n := 1) (s := advance (encode NodeToken.internal.instr).length s)
          (by change s.nnode.toNat + 1 ≤ _; omega)
        change _ = s.nnode.toNat + 1 at n1
        have a1 : (tally 1 (advance (encode NodeToken.internal.instr).length s)).ahead = tokenBits l ++ after :=
          (ahead_advance _ _).trans (by rw [h, List.drop_left])
        obtain ⟨l₁, l₂, t, rfl, hcount, hl⟩ | hl := ih l
          (s := tally 1 (advance (encode NodeToken.internal.instr).length s)) ho (by omega) (by omega) a1
        · simp only [hl, Res.bind_ok, tally_tally]
          rw [List.length_append] at hc
          have n2 := tally_nnode (n := 1 + l₁.length)
            (s := advance ((encode NodeToken.internal.instr).length + (tokenBits l₁).length) s)
            (by change s.nnode.toNat + _ ≤ _; omega)
          change _ = s.nnode.toNat + _ at n2
          have a2 : (tally (1 + l₁.length)
              (advance ((encode NodeToken.internal.instr).length + (tokenBits l₁).length) s)).ahead =
                tokenBits l₂ ++ after :=
            (ahead_advance _ _).trans (by
              rw [h, tokenBits_append, ← List.drop_drop, List.drop_left, List.append_assoc, List.drop_left])
          obtain ⟨m₁, m₂, r, rfl, hcount', hr⟩ | hr := ih l₂
            (s := tally (1 + l₁.length) (advance ((encode NodeToken.internal.instr).length + (tokenBits l₁).length) s)) ho
            (by omega) (by omega) a2
          · refine .inl ⟨.internal :: (l₁ ++ m₁), m₂, .node t r, by simp, ?_, ?_⟩
            · rw [List.countP_cons_of_neg (by simp), List.countP_append, List.count_cons_self, List.count_append]
              omega
            · simp only [hr, Res.bind_ok, tally_tally]
              congr 2
              · simp; omega
              · congr 1; simp; omega
          · refine .inr fun e u hu => ?_
            rw [hr e u]
            · rfl
            · rw [tally_tally, ← hu]
              congr 2
              · simp; omega
              · congr 1; simp; omega
        · refine .inr fun e u hu => ?_
          rw [hl e u]
          · rfl
          · rw [tally_tally, ← hu]
            congr 2
            · simp; omega
            · congr 1; simp

/-- On an unfinished header the reader meets what stands after it (43_tree_codec.md R155 to R157). -/
theorem readTree_unfinished {l : List NodeToken} (hl : unfinished l) {s u : State} {e : FaultKind} {after : BitString}
    (ho : s.inp.isOpen = true) (hs : s.nnode = 0#10) (hc : l.length ≤ Config.nodeCap)
    (h : s.ahead = tokenBits l ++ after)
    (hr : readNode (tally l.length (advance (tokenBits l).length s)) = .raised e u) :
    readTree Config.nodeCap s = .raised e u := by
  obtain ⟨l₁, l₂, t, rfl, hcount, -⟩ | ht :=
    readTree_tokens Config.nodeCap l ho (by omega) (by rw [hs]; simpa using hc) h
  · have := hl l₁.length (by simp)
    rw [List.take_left] at this
    omega
  · exact ht e u hr

/-! ### The traversal stack -/

/-- Everything a finished subtree does to the pending nodes: all are closed and the tree is whole, or one gets its left
subtree; no node is lost. -/
theorem plug_cases (t : CodeTree) (k : List Frame) :
    (∃ t', plug t k = (some t', []) ∧ t'.nodes = t.nodes + stackNodes k) ∨
      ∃ l k', plug t k = (none, .right l :: k') ∧ stackNodes (.right l :: k') = t.nodes + stackNodes k := by
  induction k generalizing t with
  | nil => exact .inl ⟨t, rfl, rfl⟩
  | cons f k ih =>
    cases f with
    | left => exact .inr ⟨t, k, rfl, by simp only [stackNodes]; omega⟩
    | right l =>
      obtain ⟨t', h, hn⟩ | ⟨l', k', h, hn⟩ := ih (.node l t)
      · exact .inl ⟨t', h, by rw [hn]; simp only [CodeTree.nodes, stackNodes]; omega⟩
      · exact .inr ⟨l', k', h, by rw [hn]; simp only [CodeTree.nodes, stackNodes]; omega⟩

/-! ### One bit of a body -/

/-- Everything one bit of a body can do below an internal node. -/
theorem decodeBit_cases (root : CodeTree) (b : Bool) (s : State) :
    (∃ l r, s.cur.child b = .node l r ∧ decodeBit root b s = .ok false (point (.node l r) s)) ∨
      (s.cur.child b = .leaf Config.eob ∧ decodeBit root b s = .ok true (point (.leaf Config.eob) s)) ∨
      ∃ y, y ≠ Config.eob ∧ s.cur.child b = .leaf y ∧
        ((s.out.isOpen = true ∧ decodeBit root b s = .ok false (point root (append (bitsOf 8 y.val) s))) ∨
          (s.out.isOpen = false ∧ decodeBit root b s = .refused .outputNotOpen)) := by
  unfold decodeBit
  cases hc : s.cur.child b with
  | node l r => exact .inl ⟨l, r, rfl, rfl⟩
  | leaf y =>
    by_cases hy : y = Config.eob
    · subst hy; exact .inr (.inl ⟨rfl, by simp [point]⟩)
    · refine .inr (.inr ⟨y, hy, rfl, ?_⟩)
      simp only [if_neg hy]
      cases ho : s.out.isOpen with
      | true => exact .inl ⟨rfl, by rw [outWrite_open (s := { s with cur := .leaf y }) ho]; rfl⟩
      | false => exact .inr ⟨rfl, by rw [outWrite_refused (s := { s with cur := .leaf y }) ho]; rfl⟩

end Sys2Proof.Machine
end

