-- ==== Sys2Proof/Laws/Invariant.lean ====
section
/-! SUPPORT. The part of the invariant that is about data, under every unit (10_state.md R25, R28 to R30). -/

namespace Sys2Proof.Machine

variable {α β : Type}

/-- The data clauses of the invariant. -/
structure DataOk (s : State) : Prop where
  memory : Memory.wf s.inp s.out = true
  tree : s.status.treeValid = true → ∃ t, s.tree = some t ∧ t.bounded
  code : s.status.codeValid = true →
    s.status.treeValid = true ∧ ∃ t, s.tree = some t ∧ t.isLeaf = false ∧ s.code = codesOf t
  queue : s.pq = []

theorem State.Inv.dataOk {s : State} (h : s.Inv) : DataOk s := ⟨h.memory, h.tree, h.code, h.queue⟩

/-- A change of other elements, and of the streams as their operations change them. -/
theorem DataOk.of_frame {c : List Field} {s t : State} (h : DataOk s) (hs : StreamStep s t) (hf : OnlyChanges c s t)
    (hc : ∀ f ∈ c, f ∉ [Field.tree, .treeValid, .codeValid, .code, .pq]) : DataOk t := by
  have e : ∀ f, f ∈ [Field.tree, .treeValid, .codeValid, .code, .pq] → f.same s t := fun f hm =>
    hf f fun hfc => hc f hfc hm
  have e1 : t.tree = s.tree := e .tree (by decide)
  have e2 : t.status.treeValid = s.status.treeValid := e .treeValid (by decide)
  have e3 : t.status.codeValid = s.status.codeValid := e .codeValid (by decide)
  have e4 : t.code = s.code := e .code (by decide)
  have e5 : t.pq = s.pq := e .pq (by decide)
  exact ⟨hs.form h.memory, by rw [e1, e2]; exact h.tree, by rw [e1, e2, e3, e4]; exact h.code, by rw [e5]; exact h.queue⟩

/-- The same for a piece of work. -/
theorem dataOk_within {c : List Field} {s : State} {r : Res α} (h : DataOk s) (hs : r.within StreamStep s)
    (hf : r.within (OnlyChanges c) s) (hc : ∀ f ∈ c, f ∉ [Field.tree, .treeValid, .codeValid, .code, .pq]) :
    r.within (fun _ t => DataOk t) s := by
  cases r with
  | ok a t => exact h.of_frame hs hf hc
  | raised e t => exact h.of_frame hs hf hc
  | refused r => trivial

/-- With no tree valid, the data clauses ask for the streams and the queue only. -/
theorem DataOk.of_dropped {s : State} (hm : Memory.wf s.inp s.out = true) (ht : s.status.treeValid = false)
    (hc : s.status.codeValid = false) (hq : s.pq = []) : DataOk s :=
  ⟨hm, by simp [ht], by simp [hc], hq⟩

theorem cleardata_dataOk {s : State} (h : DataOk s) : DataOk (cleardata s) :=
  .of_dropped h.memory rfl rfl rfl

theorem rdtreeInit_dataOk {s : State} (h : DataOk s) : DataOk (rdtreeInit s) :=
  .of_dropped h.memory rfl rfl h.queue

/-- A bounded tree stored while no code table is valid. -/
theorem putTree_dataOk {s : State} {t : CodeTree} (h : DataOk s) (hc : s.status.codeValid = false) (ht : t.bounded) :
    DataOk (putTree t s) :=
  ⟨h.memory, fun _ => ⟨t, rfl, ht⟩, by simp [hc], h.queue⟩

theorem countBody_dataOk {s : State} (h : DataOk s) : (countBody s).within (fun _ t => DataOk t) s := by
  have hi : DataOk (countInit s) := .of_dropped h.memory rfl rfl h.queue
  have hb : ∀ b t, (Res.ok () (bumpFreq b t)).within (OnlyChanges [.freq, .inp]) t := fun b t =>
    (bumpFreq_frame b t).mono (by decide)
  have hbs : ∀ b t, (Res.ok () (bumpFreq b t)).within StreamStep t := fun b t =>
    (.of_eq rfl rfl rfl : StreamStep t (bumpFreq b t))
  have hl := dataOk_within hi (eachByte_streamStep _ hbs (readFuel s) _)
    (eachByte_frame (by decide) _ hb _ _) (by decide)
  rw [countBody]
  revert hl
  cases eachByte (fun b s => .ok () (bumpFreq b s)) (readFuel s) (countInit s) with
  | ok a t => exact fun hl => hl.of_frame (.of_eq rfl rfl rfl) (markFreq_frame t) (by decide)
  | raised e t => exact fun hl => hl
  | refused r => exact fun _ => trivial

theorem buildBody_dataOk {s : State} (h : DataOk s) : (buildBody s).within (fun _ t => DataOk t) s := by
  rw [buildBody]
  cases s.status.freqValid with
  | false => exact h
  | true => exact ⟨h.memory, fun _ => ⟨_, rfl, buildTree_bounded _⟩, by simp [putTree, dropTree], rfl⟩

theorem gencodesBody_dataOk {s : State} (h : DataOk s) : (gencodesBody s).within (fun _ t => DataOk t) s := by
  rw [gencodesBody, needTree]
  cases hv : validTree s with
  | none => exact h
  | some t =>
    have hv' : s.status.treeValid = true ∧ s.tree = some t := by simpa [validTree] using hv
    simp only
    cases ht : t.isLeaf with
    | true => exact ⟨h.memory, h.tree, by simp [dropCode], h.queue⟩
    | false => exact ⟨h.memory, h.tree, fun _ => ⟨hv'.1, t, hv'.2, ht, rfl⟩, h.queue⟩

theorem rdtreeBody_dataOk {s : State} (h : DataOk s) : (rdtreeBody s).within (fun _ t => DataOk t) s := by
  have hi := rdtreeInit_dataOk h
  have hl := dataOk_within hi (readTree_streamStep Config.nodeCap (rdtreeInit s)) (readTree_frame _ _) (by decide)
  rw [rdtreeBody]
  cases ho : s.inp.isOpen with
  | false =>
    have : readTree Config.nodeCap (rdtreeInit s) = .refused .inputNotOpen := by
      have hr : readNode (rdtreeInit s) = .refused .inputNotOpen := by
        simp [readNode, takeMarker, inRead_refused (s := rdtreeInit s) ho]
      rw [Config.nodeCap, readTree, hr]; rfl
    rw [this]; trivial
  | true =>
    obtain ⟨e, u, hr, -⟩ | ⟨t, rest, -, hn, hr⟩ :=
      readTree_cases Config.nodeCap (s := rdtreeInit s) ho (Nat.zero_le _)
    · rw [hr] at hl ⊢; exact hl
    · rw [hr] at hl ⊢
      have hb : t.bounded := by
        have : (rdtreeInit s).nnode.toNat = 0 := rfl
        rw [CodeTree.bounded]; omega
      exact putTree_dataOk hl rfl hb

/-- Every primitive command keeps the data clauses, whether it ends with or without a fault. -/
theorem primitiveBody_dataOk (c : Cmd) {s : State} (h : DataOk s) :
    (primitiveBody c s).within (fun _ t => DataOk t) s := by
  cases c with
  | count => exact countBody_dataOk h
  | build => exact buildBody_dataOk h
  | gencodes => exact gencodesBody_dataOk h
  | rdtree => exact rdtreeBody_dataOk h
  | wrmagic => exact dataOk_within h (primitiveBody_streamStep .wrmagic s) (primitiveBody_frame .wrmagic s) (by decide)
  | wrtree => exact dataOk_within h (primitiveBody_streamStep .wrtree s) (primitiveBody_frame .wrtree s) (by decide)
  | encbody => exact dataOk_within h (primitiveBody_streamStep .encbody s) (primitiveBody_frame .encbody s) (by decide)
  | rdmagic => exact dataOk_within h (primitiveBody_streamStep .rdmagic s) (primitiveBody_frame .rdmagic s) (by decide)
  | decbody => exact dataOk_within h (primitiveBody_streamStep .decbody s) (primitiveBody_frame .decbody s) (by decide)
  | rewind => exact dataOk_within h (primitiveBody_streamStep .rewind s) (primitiveBody_frame .rewind s) (by decide)
  | close => exact dataOk_within h (primitiveBody_streamStep .close s) (primitiveBody_frame .close s) (by decide)
  | compress => exact h
  | decompress => exact h
  | clear => exact h

theorem atStep_dataOk (c p : Cmd) {s : State} (h : DataOk s) : DataOk (atStep c p s) := ⟨h.memory, h.tree, h.code, h.queue⟩

theorem accept_dataOk (c : Cmd) {s : State} (h : DataOk s) : DataOk (accept c s) := ⟨h.memory, h.tree, h.code, h.queue⟩

theorem finish_dataOk {s : State} (h : DataOk s) : DataOk (finish s) := ⟨h.memory, h.tree, h.code, h.queue⟩

theorem faultEntry_dataOk (e : FaultKind) (op : BitVec 4) {s : State} (h : DataOk s) : DataOk (faultEntry e op s) :=
  ⟨h.memory, h.tree, h.code, h.queue⟩

theorem closedStreams_dataOk {s : State} (h : DataOk s) (ho : s.out.isOpen = true) : DataOk (closedStreams s) :=
  h.of_frame (streamStep_closedStreams ho) (closedStreams_frame s) (by decide)

theorem runSteps_dataOk (c : Cmd) (ps : List Cmd) {s : State} (h : DataOk s) :
    (runSteps c ps s).within (fun _ t => DataOk t) s := by
  induction ps generalizing s with
  | nil => exact h
  | cons p ps ih =>
    have hp := primitiveBody_dataOk p (atStep_dataOk c p h)
    rw [runSteps]
    revert hp
    cases primitiveBody p (atStep c p s) with
    | ok a t =>
      intro hp
      have := ih hp
      rw [Res.bind_ok]
      revert this
      cases runSteps c ps t with
      | ok b u => exact id
      | raised e u => exact id
      | refused r => exact id
    | raised e t => exact id
    | refused r => exact id

/-- The streams and the data when a composite command is wound up. -/
theorem unwind_dataOk (c : Cmd) {s : State} {r : Res Unit} (h : r.within (fun _ t => DataOk t) s) :
    (unwind c r).within (fun _ t => DataOk t) s := by
  cases r with
  | ok a t =>
    simp only [unwind]
    split
    · exact cleardata_dataOk h
    · exact h
  | raised e t =>
    simp only [unwind]
    split
    · cases ho : t.out.isOpen with
      | true => rw [closeStreams_open ho]; exact cleardata_dataOk (closedStreams_dataOk h ho)
      | false => rw [closeStreams_refused ho]; trivial
    · exact h
  | refused r => trivial

end Sys2Proof.Machine
end

