-- ==== Sys2Proof/Laws/PerInstr.lean ====
section
/-! SUPPORT. Facts about every instruction as syntax, one lemma for each constructor. -/

namespace Sys2Proof.Laws

/-- The number of bits an instruction is sent in: 4 for a command word (30_encoding.md R80), 32 for the magic (R85), 1 and
10 for the node tokens (R86, R87), 1 to 256 for a code (R89), at most 7 for a pad (R90). -/
def EncodedLength.Statement (i : Instr) : Prop :=
  i.wellFormed = true →
    match i with
    | .reserved0 | .count | .build | .gencodes | .wrmagic | .wrtree | .encbody | .rdmagic | .rdtree | .decbody
    | .rewind | .close | .compress | .decompress | .clear | .reservedF => (encode i).length = 4
    | .magic _ => (encode i).length = 32
    | .nodeInt => (encode i).length = 1
    | .nodeLeaf _ => (encode i).length = 10
    | .code _ => 1 ≤ (encode i).length ∧ (encode i).length ≤ 256
    | .pad _ => (encode i).length ≤ 7

theorem EncodedLength.reserved0 : Statement .reserved0 := fun _ => bitsOf_length 4 _

theorem EncodedLength.count : Statement .count := fun _ => bitsOf_length 4 _

theorem EncodedLength.build : Statement .build := fun _ => bitsOf_length 4 _

theorem EncodedLength.gencodes : Statement .gencodes := fun _ => bitsOf_length 4 _

theorem EncodedLength.wrmagic : Statement .wrmagic := fun _ => bitsOf_length 4 _

theorem EncodedLength.wrtree : Statement .wrtree := fun _ => bitsOf_length 4 _

theorem EncodedLength.encbody : Statement .encbody := fun _ => bitsOf_length 4 _

theorem EncodedLength.rdmagic : Statement .rdmagic := fun _ => bitsOf_length 4 _

theorem EncodedLength.rdtree : Statement .rdtree := fun _ => bitsOf_length 4 _

theorem EncodedLength.decbody : Statement .decbody := fun _ => bitsOf_length 4 _

theorem EncodedLength.rewind : Statement .rewind := fun _ => bitsOf_length 4 _

theorem EncodedLength.close : Statement .close := fun _ => bitsOf_length 4 _

theorem EncodedLength.compress : Statement .compress := fun _ => bitsOf_length 4 _

theorem EncodedLength.decompress : Statement .decompress := fun _ => bitsOf_length 4 _

theorem EncodedLength.clear : Statement .clear := fun _ => bitsOf_length 4 _

theorem EncodedLength.reservedF : Statement .reservedF := fun _ => bitsOf_length 4 _

theorem EncodedLength.magic (m : BitVec 32) : Statement (.magic m) := fun _ => bitsOf_length 32 _

theorem EncodedLength.nodeInt : Statement .nodeInt := fun _ => rfl

theorem EncodedLength.nodeLeaf (f : BitVec 9) : Statement (.nodeLeaf f) := fun _ => by simp [encode]

theorem EncodedLength.code (p : BitString) : Statement (.code p) := fun h => by
  rw [Instr.wellFormed, Bool.and_eq_true, decide_eq_true_eq, decide_eq_true_eq] at h
  exact h

theorem EncodedLength.pad (b : BitString) : Statement (.pad b) := fun h => by
  simpa [encode, Instr.wellFormed] using h

end Sys2Proof.Laws
end

