-- ==== Sys2Proof/Tests/Slice0.lean ====
section
/-! SUPPORT. Tests of single steps, each with its expected result from the spec's worked vectors (95_test_vectors.md) or its
encodings (30_encoding.md), and a concrete state and operands for the hypotheses of each statement. -/

-- One theorem at a time: each thread of the compiler takes a part of the memory it may use.
set_option Elab.async false

namespace Sys2Proof.Tests

open Sys2Proof.Machine

/-! ### Small states -/

/-- The bits of a string of 0 and 1, first bit first. -/
def bits (l : List Nat) : BitString := l.map fun n => n == 1

/-- Bytes from numbers. -/
def bytes (l : List Nat) : List Byte := l.map (BitVec.ofNat 8)

/-- The reset state with these bytes bound as `IN`. -/
def given (l : List Nat) : State := bindInput (bytes l) State.reset

/-- The reset state with these bits at `IN.pos`. -/
def givenBits (b : BitString) : State := { State.reset with inp := { bits := b, pos := 0, isOpen := true } }

/-- A state whose tree is valid. -/
def holding (t : CodeTree) (s : State) : State := putTree t s

/-- A state whose counts are valid; the given counts stand at the given byte values. -/
def counted (l : List (Byte × Nat)) (s : State) : State :=
  markFreq (l.foldl (fun s p => setFreq s p.1 (BitVec.ofNat 32 p.2)) s)

/-- A state whose code table is valid and made from a tree. -/
def coded (t : CodeTree) (s : State) : State := markCode { holding t s with code := codesOf t }

/-- A state with a command running. -/
def running (c p : Cmd) (s : State) : State := atStep c p (accept c s)

/-- A state with these host events to come. -/
def offered (evs : List HostEvent) (s : State) : State := { s with port := evs }

/-- A recorded fault. -/
def faulted (s : State) : State := faultEntry .noCode 0x6#4 s

/-- The next state, if there is one. -/
def next (o : Host.Outcome State Fault Refusal) : Option State :=
  match o with
  | .next s => some s
  | .fault _ => none
  | .refused _ => none

/-- `STATUS`, `ERRCODE`, `ERRCMD` as the host reads them. -/
def host (s : State) : Nat × Nat × Nat := (s.status.word.toNat, s.errcode.toNat, s.errcmd.toNat)

/-- `N(N(L(66), L(256)), L(65))`, the tree of V23. -/
def treeAABA : CodeTree := .node (.node (.leaf 66) (.leaf 256)) (.leaf 65)

/-- The guard tree of V20. -/
def guardTree : CodeTree := .node (.leaf 256) (.leaf 256)

/-- A chain of internal nodes that goes left at every node; `n + 1` leaves. -/
def leftChain : Nat → CodeTree
  | 0 => .leaf 256
  | n + 1 => .node (leftChain n) (.leaf 65)

/-! ### Terms the encodings do not admit -/

theorem test_wellFormed_refuses_symbol_257 : (Instr.nodeLeaf 257#9).wellFormed = false := by decide

theorem test_wellFormed_refuses_empty_code : (Instr.code []).wellFormed = false := by decide

theorem test_wellFormed_refuses_code_of_257_bits : (Instr.code (List.replicate 257 true)).wellFormed = false := by
  decide +kernel

theorem test_wellFormed_refuses_pad_of_8_bits : (Instr.pad (List.replicate 8 false)).wellFormed = false := by decide

theorem test_wellFormed_admits_the_bounds :
    (Instr.nodeLeaf 256#9).wellFormed = true ∧ (Instr.code (List.replicate 256 true)).wellFormed = true ∧
      (Instr.pad (List.replicate 7 false)).wellFormed = true := by decide +kernel

/-! ### Decoding: the words of 30_encoding.md R81, R85 to R90, bit by bit -/

theorem test_decode_command_words :
    [bits [0, 0, 0, 0], bits [0, 0, 0, 1], bits [0, 0, 1, 0], bits [0, 0, 1, 1], bits [0, 1, 0, 0], bits [0, 1, 0, 1],
        bits [0, 1, 1, 0], bits [0, 1, 1, 1]].map (fun w => wholeWord (decode .command w)) =
      [some .reserved0, some .count, some .build, some .gencodes, some .wrmagic, some .wrtree, some .encbody,
        some .rdmagic] ∧
    [bits [1, 0, 0, 0], bits [1, 0, 0, 1], bits [1, 0, 1, 0], bits [1, 0, 1, 1], bits [1, 1, 0, 0], bits [1, 1, 0, 1],
        bits [1, 1, 1, 0], bits [1, 1, 1, 1]].map (fun w => wholeWord (decode .command w)) =
      [some .rdtree, some .decbody, some .rewind, some .close, some .compress, some .decompress, some .clear,
        some .reservedF] := by decide +kernel

theorem test_decode_magic_FACE8201 :
    decode .magic (bits [1, 1, 1, 1, 1, 0, 1, 0, 1, 1, 0, 0, 1, 1, 1, 0, 1, 0, 0, 0, 0, 0, 1, 0, 0, 0, 0, 0, 0, 0, 0, 1]) =
      .ok (.magic 0xFACE8201#32, []) := by rfl

theorem test_decode_internal_node : decode .node (bits [0, 1]) = .ok (.nodeInt, [true]) := by rfl

theorem test_decode_leaf_65 : decode .node (bits [1, 0, 0, 1, 0, 0, 0, 0, 0, 1]) = .ok (.nodeLeaf 65#9, []) := by rfl

theorem test_decode_code_of_256 : decode (.code treeAABA) (bits [0, 1, 1]) = .ok (.code [false, true], [true]) := by rfl

theorem test_decode_pad_of_3_bits : decode (.pad 3) (bits [1, 0, 1]) = .ok (.pad [true, false, true], []) := by rfl

theorem test_decode_rejects_short_words :
    decode .command (bits [0, 0, 1]) = .error .shortCommand ∧ decode .magic (bits [1, 1]) = .error .shortMagic ∧
      decode .node [] = .error .shortMarker ∧ decode .node (bits [1, 0, 0]) = .error .shortSymbol ∧
      decode (.code treeAABA) (bits [0]) = .error .shortCode ∧ decode (.code (.leaf 3)) (bits [0]) = .error .emptyCode ∧
      decode (.pad 2) (bits [0]) = .error .shortPad ∧ decode (.pad 8) (List.replicate 8 false) = .error .longPad :=
  ⟨rfl, rfl, rfl, rfl, rfl, rfl, rfl, rfl⟩

theorem test_table_words :
    decodeTableWord 8 0xB = some .close ∧ decodeTableWord 16 0x241 = some (.nodeLeaf 65#9) ∧
      decodeTableWord 32 0xFACE8201 = some (.magic 0xFACE8201#32) ∧ decodeTableWord 8 0x10 = none := by decide +kernel

/-- A table word stored for the next step is run by it (log 2, log 11). -/
theorem test_withFetchWord_runs :
    (next (step (State.reset.withFetchWord 8 0xF))).map host = some (0x06, 9, 0xF) ∧
      (next (step (State.reset.withFetchWord 16 0x200))).map (fun s => s.tree) = some (some (.leaf 0)) := by
  decide +kernel

/-! ### Stream transactions (95_test_vectors.md M1 to M5) -/

theorem test_inRead_M1 :
    inRead 9 (advance 1 (given [0xA5, 0x3C])) = .ok (some 148#9) (advance 10 (given [0xA5, 0x3C])) ∧
      inRead 8 (advance 10 (given [0xA5, 0x3C])) = .ok none (toEnd (given [0xA5, 0x3C])) := ⟨rfl, rfl⟩

theorem test_outWrite_M2_M3 :
    outWrite 10 0x241 State.reset = .ok () (append (bits [1, 0, 0, 1, 0, 0, 0, 0, 0, 1]) State.reset) ∧
      outWrite 3 0xFD State.reset = .ok () (append (bits [1, 0, 1]) State.reset) := ⟨rfl, rfl⟩

theorem test_outClose_M5 : (next (exec .close State.reset)).map (fun s => (s.out.bits, s.out.closed)) = some ([], true) := by
  decide +kernel

/-! ### Commands -/

theorem test_reserved0_V93 :
    (next (exec .reserved0 (coded treeAABA (counted [] State.reset)))).map host = some (0x3E, 9, 0x0) := by
  decide +kernel

theorem test_reservedF_V93 : (next (exec .reservedF State.reset)).map host = some (0x06, 9, 0xF) := by decide +kernel

theorem test_count_V1 :
    (next (exec .count (given [0x41, 0x41, 0x42, 0x41]))).map
        (fun s => ([freqAt s 65#8, freqAt s 66#8, freqAt s 0#8], s.inp.pos, host s)) =
      some ([3#32, 1#32, 0#32], 32, (0x0A, 0, 0)) := by decide +kernel

theorem test_count_V7 : (next (exec .count (coded treeAABA (counted [] State.reset)))).map host = some (0x0A, 0, 0) := by
  decide +kernel

/-- A full counter stays full (40_frequency_counter.md R112). -/
theorem test_count_saturates : freqAt (bumpFreq 65#8 (counted [(65#8, 2 ^ 32 - 1)] State.reset)) 65#8 = BitVec.allOnes 32 := by
  decide +kernel

theorem test_build_V24 :
    (next (exec .build (counted [(65#8, 2), (66#8, 2)] State.reset))).map (fun s => (s.tree, s.seq, host s)) =
      some (some (.node (.leaf 66) (.node (.leaf 256) (.leaf 65))), 5#10, (0x1A, 0, 0)) := by decide +kernel

theorem test_build_V20 :
    (next (exec .build (counted [] State.reset))).map (fun s => (s.tree, s.seq)) = some (some guardTree, 3#10) := by
  decide +kernel

theorem test_gencodes_V30 :
    (next (exec .gencodes (holding treeAABA (counted [] State.reset)))).map
        (fun s => ([codeAt s 66, codeAt s 256, codeAt s 65, codeAt s 67], host s)) =
      some ([some (bits [0, 0]), some (bits [0, 1]), some (bits [1]), none], (0x3A, 0, 0)) := by decide +kernel

theorem test_gencodes_V34 :
    (next (exec .gencodes (holding (.node (.leaf 65) (.node (.leaf 65) (.leaf 256))) State.reset))).map
        (fun s => (codeAt s 65, codeAt s 256)) =
      some (some (bits [1, 0]), some (bits [1, 1])) := by decide +kernel

theorem test_wrmagic_writes_32_bits :
    (next (exec .wrmagic State.reset)).map (fun s => (s.out.bits.length, host s)) = some (32, (0x02, 0, 0)) := by
  decide +kernel

theorem test_wrtree_V52 :
    (next (exec .wrtree (holding treeAABA State.reset))).map (fun s => s.out.bits) =
      some (bits [0, 0, 1, 0, 0, 1, 0, 0, 0, 0, 1, 0, 1, 1, 0, 0, 0, 0, 0, 0, 0, 0, 1, 0, 0, 1, 0, 0, 0, 0, 0, 1]) := by
  decide +kernel

theorem test_wrtree_V64 : (next (exec .wrtree State.reset)).map host = some (0x06, 8, 0x5) := by decide +kernel

theorem test_encbody_V42 :
    (next (exec .encbody (coded treeAABA (given [0x41, 0x41, 0x42, 0x41])))).map (fun s => (s.out.bits, s.inp.pos)) =
      some (bits [1, 1, 0, 0, 1, 0, 1], 32) := by decide +kernel

theorem test_encbody_V44 :
    (next (exec .encbody (coded (.node (.leaf 256) (.leaf 65)) (given [0x41, 0x42])))).map
        (fun s => (s.out.bits, s.inp.pos, s.errcode, s.errcmd)) =
      some (bits [1], 16, 7#4, 0x6#4) := by decide +kernel

/-- The input changed under a watched ENCBODY, and the byte it then meets (70_reset_and_hazards.md R271, V44). -/
theorem test_changeIn_before_encbody :
    (next (step (offered [.changeIn (bytes [0x43])] (running .encbody .encbody (coded treeAABA (given [0x41])))))).map
        (fun s => (s.inp.bits, s.inp.pos)) = some (bitsOf 8 0x43, 0) ∧
      (next (step (running .encbody .encbody (coded treeAABA (given [0x43]))))).map (fun s => (host s, s.inp.pos)) =
        some ((0x36, 7, 0x6), 8) := by decide +kernel

theorem test_rdmagic_V71 : (next (exec .rdmagic (given [0xFA, 0xCE, 0x82]))).map
    (fun s => (host s, s.inp.pos)) = some ((0x06, 1, 0x7), 24) := by decide +kernel

theorem test_rdtree_V52 :
    (next (exec .rdtree (given [0x24, 0x2C, 0x02, 0x41]))).map (fun s => (s.tree, s.nnode, s.inp.pos, host s)) =
      some (some treeAABA, 5#10, 32, (0x12, 0, 0)) := by decide +kernel

theorem test_rdtree_V57 :
    (next (exec .rdtree (given [0x24]))).map (fun s => (s.tree, s.nnode, s.inp.pos, host s)) =
      some (none, 3#10, 8, (0x06, 2, 0x8)) := by decide +kernel

/-- A symbol field cut short is EOI before it is out of range (43_tree_codec.md R157). -/
theorem test_rdtree_cut_field :
    (next (exec .rdtree (givenBits (bits [1, 1, 1])))).map (fun s => (s.tree, s.inp.pos, host s)) =
      some (none, 3, (0x06, 2, 0x8)) := by decide +kernel

theorem test_decbody_V84 :
    (next (exec .decbody (holding treeAABA (givenBits (bits [1, 1, 0, 0, 1, 0, 1, 0]))))).map
        (fun s => (s.out.bits, s.inp.pos, s.cur)) =
      some (bitsOfBytes (bytes [0x41, 0x41, 0x42, 0x41]), 7, .leaf 256) := by decide +kernel

theorem test_decbody_V83 :
    (next (exec .decbody (holding (.node (.leaf 65) (.leaf 66)) (givenBits (bits [0, 1, 0]))))).map
        (fun s => (s.out.bits, s.inp.pos, host s)) =
      some (bitsOfBytes (bytes [0x41, 0x42, 0x41]), 3, (0x16, 3, 0x9)) := by decide +kernel

theorem test_rewind_V90 :
    (next (exec .rewind (advance 32 (counted [] (given [0x41, 0x41, 0x42, 0x41]))))).map (fun s => (s.inp.pos, host s)) =
      some (0, (0x0A, 0, 0)) := by decide +kernel

theorem test_close_V91 :
    (next (exec .close (append (List.replicate 71 true) State.reset))).map
        (fun s => (s.out.bits.length, s.out.closed, s.inp.isOpen)) = some (72, true, false) := by decide +kernel

theorem test_clear_V92 :
    (next (exec .clear (faulted (coded treeAABA (counted [(65#8, 3)] State.reset))))).map
        (fun s => (host s, freqAt s 65#8, s.tree, codeAt s 65)) = some ((0, 0, 0), 0#32, none, none) := by decide +kernel

/-- V48 without its magic, whose value the model leaves open, and without its pad. -/
theorem test_compress_V48 :
    (next (exec .compress (given [0x41, 0x41, 0x42, 0x41]))).map
        (fun s => (s.out.bits.length, (s.out.bits.drop 32).take 39, s.inp.pos, host s)) =
      some (72, bits [0, 0, 1, 0, 0, 1, 0, 0, 0, 0, 1, 0, 1, 1, 0, 0, 0, 0, 0, 0, 0, 0, 1, 0, 0, 1, 0, 0, 0, 0, 0, 1,
        1, 1, 0, 0, 1, 0, 1], 32, (0x02, 0, 0)) := by decide +kernel

theorem test_compress_V46 :
    (next (exec .compress (given []))).map (fun s => (s.out.bits.length, (s.out.bits.drop 53).take 1)) =
      some (56, bits [1]) := by decide +kernel

theorem test_decompress_V71 :
    (next (exec .decompress (given []))).map (fun s => (host s, s.inp.pos, s.out.closed)) =
      some ((0x06, 1, 0x7), 0, true) := by decide +kernel

/-- V80 for V48: the steps of DECOMPRESS after the magic. -/
theorem test_decompress_V80 :
    (next (settle (unwind .decompress (runSteps .decompress [.rdtree, .decbody, .close]
        (advance 32 (given [0xFA, 0xCE, 0x82, 0x01, 0x24, 0x2C, 0x02, 0x41, 0xCA])))))).map
        (fun s => (s.out.bits, s.out.closed, s.inp.pos)) =
      some (bitsOfBytes (bytes [0x41, 0x41, 0x42, 0x41]), true, 71) := by decide +kernel

/-! ### Wire tokens -/

theorem test_nodeInt_V57 :
    (next (exec .nodeInt (running .rdtree .rdtree (given [0x24])))).map (fun s => (s.stack, s.nnode, s.inp.pos)) =
      some ([.left], 1#10, 1) := by decide +kernel

theorem test_nodeLeaf_V55 :
    (next (exec (.nodeLeaf 256#9) (running .rdtree .rdtree (given [0xC0, 0x00])))).map
        (fun s => (s.tree, s.inp.pos, host s)) = some (some (.leaf 256), 10, (0x12, 0, 0)) := by decide +kernel

theorem test_nodeLeaf_V59 :
    (next (exec (.nodeLeaf 257#9) (running .rdtree .rdtree (given [0xC0, 0x40])))).map
        (fun s => (s.tree, s.inp.pos, host s)) = some (none, 10, (0x06, 4, 0x8)) := by decide +kernel

theorem test_code_V84 :
    (next (exec (.code [false, false])
        (point treeAABA (holding treeAABA (running .decbody .decbody (givenBits (bits [0, 0, 1]))))))).map
        (fun s => (s.out.bits, s.inp.pos, s.cur)) = some (bitsOf 8 0x42, 2, treeAABA) := by decide +kernel

theorem test_pad_has_no_effect : exec (.pad [true]) State.reset = .next State.reset := rfl

theorem checkMagic_magic (s : State) : checkMagic (some Config.magic) s = .ok () s := by simp [checkMagic]

/-- The magic field under RDMAGIC (45_decoder.md R190). -/
theorem test_magic_ends_rdmagic :
    (next (exec (.magic Config.magic) (running .rdmagic .rdmagic (given [0, 0, 0, 0])))).map
        (fun s => (s.inp.pos, host s)) = some (32, (0x02, 0, 0)) := by
  have h : exec (.magic Config.magic) (running .rdmagic .rdmagic (given [0, 0, 0, 0])) =
      turn .rdmagic .rdmagic
        ((checkMagic (some Config.magic) (advance 32 (running .rdmagic .rdmagic (given [0, 0, 0, 0])))).bind
          fun _ s => .ok true s) := rfl
  rw [h, checkMagic_magic]
  decide +kernel

theorem test_rdmagic_reads_magic :
    (next (exec .rdmagic (givenBits (bitsOf 32 Config.magic.toNat)))).map (fun s => (s.inp.pos, host s)) =
      some (32, (0x02, 0, 0)) := by
  have h : exec .rdmagic (givenBits (bitsOf 32 Config.magic.toNat)) =
      settle (unwind .rdmagic ((inRead 32 (accept .rdmagic (givenBits (bitsOf 32 Config.magic.toNat)))).bind
        fun v s => checkMagic v s)) := rfl
  have hr := inRead_bitsOf (s := accept .rdmagic (givenBits (bitsOf 32 Config.magic.toNat))) (v := Config.magic)
    (after := []) rfl (by decide) (by simp [State.ahead, accept, givenBits])
  rw [h, hr, Res.bind_ok, checkMagic_magic]
  rfl

/-! ### Witnesses: a concrete state and operands for the hypotheses of each statement -/

theorem next_of_isSome {o : Host.Outcome State Fault Refusal} (h : (next o).isSome = true) : ∃ t, o = .next t := by
  cases o with
  | next t => exact ⟨t, rfl⟩
  | fault f => cases f
  | refused r => simp [next] at h

/-- RDTREE at its first node. -/
def readingHeader (s : State) : State := rdtreeInit (running .rdtree .rdtree s)

/-- DECBODY at the root of a tree. -/
def readingBody (c : Cmd) (t : CodeTree) (s : State) : State := point t (holding t (running c .decbody s))

/-- The output closed. -/
def shut (s : State) : State := { s with out := { s.out with closed := true } }

/-- The input closed. -/
def unread (s : State) : State := inClose s

theorem given_ready (l : List Nat) : (given l).ready := ⟨rfl, rfl⟩

theorem given_memory (l : List Nat) : Memory.wf (given l).inp (given l).out = true :=
  bindInput_wf _ _ reset_memory_wf

theorem givenBits_ready (b : BitString) : (givenBits b).ready := ⟨rfl, rfl⟩

theorem holding_ready (t : CodeTree) (s : State) (h : s.ready) : (holding t s).ready := h

theorem witness_ResetGivesListedValues :
    ∃ (s : State) (rest : List HostEvent), s.port = .reset :: rest ∧ s.status.busy = false ∧ s.phase = .idle :=
  ⟨offered [.reset] (faulted (given [0x41])), [], rfl, rfl, rfl⟩

theorem witness_ResetAbandonsRunningCommand :
    ∃ (s : State) (rest : List HostEvent) (c p : Cmd), s.port = .reset :: rest ∧ s.status.busy = true ∧
      s.phase = .run c p ∧ Memory.wf s.inp s.out = true :=
  ⟨offered [.reset] (readingHeader (given [0x24])), [], .rdtree, .rdtree, rfl, rfl, rfl, by decide⟩

/-- An idle block that met no fault, with an input and host events to come. -/
theorem offered_given_inv (evs : List HostEvent) (l : List Nat) : (offered evs (given l)).Inv where
  memory := given_memory l
  busy := by simp [offered, given, bindInput, State.reset]
  done := by simp [offered, given, bindInput, State.reset]
  noError := by simp [offered, given, bindInput, State.reset]
  error := by simp [offered, given, bindInput, State.reset]
  tree := by simp [offered, given, bindInput, State.reset]
  code := by simp [offered, given, bindInput, State.reset]
  queue := rfl
  stackEmpty := fun _ => rfl
  inSequence := by simp [offered, given, bindInput, State.reset]
  runsOnError := by simp [offered, given, bindInput, State.reset]
  reading := by simp [offered, given, bindInput, State.reset]
  decoding := by simp [offered, given, bindInput, State.reset]

/-- RDTREE at its first node. -/
theorem readingHeader_inv (l : List Nat) : (readingHeader (given l)).Inv where
  memory := given_memory l
  busy := ⟨fun _ => nofun, fun _ => rfl⟩
  done := fun _ => rfl
  noError := fun _ => ⟨rfl, rfl⟩
  error := nofun
  tree := nofun
  code := nofun
  queue := rfl
  stackEmpty := fun _ => rfl
  inSequence := by rintro c p ⟨⟩; decide
  runsOnError := nofun
  reading := fun _ _ => ⟨rfl, rfl, rfl, rfl, Nat.zero_le _⟩
  decoding := nofun

/-- A fault recorded in an idle block. -/
theorem faulted_inv (evs : List HostEvent) (l : List Nat) : (offered evs (faulted (given l))).Inv where
  memory := given_memory l
  busy := ⟨nofun, fun h => absurd rfl h⟩
  done := nofun
  noError := nofun
  error := fun _ => ⟨show 1 ≤ 7 by decide, show 7 ≤ 9 by decide⟩
  tree := nofun
  code := nofun
  queue := rfl
  stackEmpty := fun _ => rfl
  inSequence := nofun
  runsOnError := nofun
  reading := nofun
  decoding := nofun

theorem witness_StepKeepsInvariant :
    (∃ s t : State, s.Inv ∧ step s = .next t ∧ s.status.busy = false) ∧
      ∃ s t : State, s.Inv ∧ step s = .next t ∧ s.status.busy = true := by
  obtain ⟨t, ht⟩ := next_of_isSome (o := step (offered [.start 0x8#4] (given [0x24]))) (by decide +kernel)
  obtain ⟨u, hu⟩ := next_of_isSome (o := step (readingHeader (given [0x24]))) (by decide +kernel)
  exact ⟨⟨_, t, offered_given_inv _ _, ht, rfl⟩, _, u, readingHeader_inv _, hu, rfl⟩

theorem witness_StepRunsOfferedCommand :
    ∃ (s : State) (w : BitVec 4) (rest : List HostEvent), s.status.busy = false ∧ s.port = .command w :: rest :=
  ⟨offered [.command 0xF#4, .wait] State.reset, 0xF#4, [.wait], rfl, rfl⟩

theorem witness_StepRunsTokenAtPosition :
    ∀ evs, evs = [] ∨ evs = [.command 0x1#4] ∨ evs = [.wait] →
      ∃ (s : State) (c : Context) (i : Instr) (after : BitString), s.port = evs ∧ s.status.busy = true ∧
        readerContext s = some c ∧ s.inp.isOpen = true ∧ decode c s.ahead = .ok (i, after) :=
  fun evs _ =>
    ⟨offered evs (readingHeader (given [0x24])), .node, .nodeInt, bits [0, 1, 0, 0, 1, 0, 0], rfl, rfl, rfl, rfl, rfl⟩

theorem witness_BusyBlockAcceptsNothing :
    (∃ s : State, s.status.busy = false ∧ s.port = []) ∧
      ∃ (s t : State) (w : BitVec 4) (rest : List HostEvent), s.status.busy = true ∧ s.port = .command w :: rest ∧
        step s = .next t := by
  obtain ⟨t, ht⟩ := next_of_isSome (o := step (offered [.command 0xE#4] (readingHeader (given [0x24])))) (by decide +kernel)
  exact ⟨⟨State.reset, rfl, rfl⟩, _, t, 0xE#4, [], rfl, rfl, ht⟩

theorem witness_WatchedCommandEndsAlike : ∃ s : State, s.Inv ∧ s.status.busy = false :=
  ⟨_, offered_given_inv [] [0x41], rfl⟩

theorem witness_EveryCommandRunsToItsEnd : (given [0x41]).ready ∧ (given [0x41]).inp.isOpen = true ∧
    (given [0x41]).out.isOpen = true := ⟨given_ready _, rfl, rfl⟩

theorem witness_HostBindsAndChangesStreams :
    (∀ ev : HostEvent, (offered [ev] State.reset).status.busy = false ∧ (offered [ev] State.reset).port = ev :: []) ∧
      (∀ c p : Cmd, ∀ ev : HostEvent, (offered [ev] (running c p State.reset)).status.busy = true ∧
        (offered [ev] (running c p State.reset)).port = ev :: [] ∧
        (offered [ev] (running c p State.reset)).phase = .run c p) :=
  ⟨fun _ => ⟨rfl, rfl⟩, fun _ _ _ => ⟨rfl, rfl, rfl⟩⟩

/-- A change that only repeats counted bytes, and one that brings a byte that was not counted. -/
theorem witness_InputChangedBetweenPasses : ∃ (s : State) (old new new' : List Byte), s.ready ∧ s.out.isOpen = true ∧
    s.inp = { bits := bitsOfBytes old, pos := 0, isOpen := true } ∧ (∀ b ∈ new, b ∈ old) ∧ new.length = 3 ∧
    ∃ b ∈ new', b ∉ old :=
  ⟨given [0x41], bytes [0x41], bytes [0x41, 0x41, 0x41], bytes [0x43], given_ready _, rfl, rfl, by decide, rfl, 0x43#8,
    by decide, by decide⟩

theorem witness_DecodeEncodeAgree :
    (Instr.clear.wellFormed = true ∧ Context.command.admits .clear) ∧
      (Context.magic.admits (.magic (BitVec.allOnes 32))) ∧ (Context.node.admits .nodeInt) ∧
      ((Instr.nodeLeaf 256#9).wellFormed = true ∧ Context.node.admits (.nodeLeaf 256#9)) ∧
      ((Instr.code (List.replicate 256 false)).wellFormed = true ∧
        (Context.code (leftChain 256)).admits (.code (List.replicate 256 false))) ∧
      ((Instr.code [true]).wellFormed = true ∧ (Context.code guardTree).admits (.code [true])) ∧
      ((Instr.pad []).wellFormed = true ∧ (Context.pad 0).admits (.pad [])) ∧
      ((Instr.pad (List.replicate 7 true)).wellFormed = true ∧ (Context.pad 7).admits (.pad (List.replicate 7 true))) :=
  ⟨⟨rfl, trivial⟩, ⟨_, rfl⟩, .inl rfl, ⟨rfl, .inr ⟨_, rfl⟩⟩, ⟨by decide +kernel, _, 256, rfl, by decide +kernel⟩,
    ⟨rfl, _, 256, rfl, rfl⟩, ⟨rfl, _, rfl, rfl⟩, rfl, _, rfl, rfl⟩

theorem witness_HeaderIsUniquelyParsed :
    ∃ (t u : CodeTree) (x y : BitString), encTree t ++ x = encTree u ++ y := ⟨treeAABA, treeAABA, [true], [true], rfl⟩

theorem witness_FieldsTravelMostSignificantFirst :
    (∃ (s t u : State) (w v : Nat) (after : BitString), 1 ≤ w ∧ w ≤ 32 ∧ outWrite w v s = .ok () t ∧
        u.inp.isOpen = true ∧ u.ahead = t.out.bits.drop s.out.bits.length ++ after ∧ w = 32) ∧
      ∃ (s t u : State) (a b v x : Nat), 1 ≤ a ∧ 1 ≤ b ∧ a + b ≤ 32 ∧ x < 2 ^ b ∧ outWrite a v s = .ok () t ∧
        outWrite b x t = .ok () u ∧ a + b = 32 ∧ x = 2 ^ b - 1 :=
  ⟨⟨State.reset, append (bitsOf 32 0xFACE8201) State.reset, givenBits (bitsOf 32 0xFACE8201 ++ [true]), 32, 0xFACE8201,
      [true], by decide, le_rfl, rfl, rfl, by decide +kernel, rfl⟩,
    State.reset, _, _, 23, 9, 1, 511, by decide, by decide, le_rfl, by decide, rfl, rfl, rfl, rfl⟩

theorem witness_CountTabulatesInput :
    (∃ (s : State) (l : List Byte) (tail : BitString), s.ready ∧ s.inp.isOpen = true ∧ s.ahead = bitsOfBytes l ++ tail ∧
        tail = []) ∧
      ∃ (s : State) (l : List Byte) (tail : BitString), s.ready ∧ s.inp.isOpen = true ∧
        s.ahead = bitsOfBytes l ++ tail ∧ tail.length = 7 :=
  ⟨⟨given [0x41], bytes [0x41], [], given_ready _, rfl, rfl, rfl⟩,
    givenBits (bitsOf 8 0x41 ++ List.replicate 7 true), bytes [0x41], List.replicate 7 true, givenBits_ready _, rfl, rfl, rfl⟩

theorem witness_BuildMakesTree : ∃ s : State, s.ready ∧ s.status.freqValid = true :=
  ⟨markFreq State.reset, ⟨rfl, rfl⟩, rfl⟩

/-- The zeroed table. -/
def noCounts : Vector Count 256 := Vector.replicate 256 0#32

theorem witness_QueueOrderIsStrict : ∃ (freq : Vector Count 256) (n : Nat) (q : Queue) (e f : Entry) (rest rest' : List Entry),
    q = combine n (startQueue freq) ∧ removeMin q.entries = some (e, rest) ∧ removeMin rest = some (f, rest') ∧
      e.weight = f.weight :=
  ⟨noCounts, 0, _, ⟨1#41, 0#10, .leaf 256⟩, ⟨1#41, 1#10, .leaf 256⟩, [⟨1#41, 1#10, .leaf 256⟩], [], rfl,
    by decide +kernel, by decide, rfl⟩

theorem witness_WeightsAreExact :
    (∃ (freq : Vector Count 256) (n : Nat), ∃ e, e ∈ (combine n (startQueue freq)).entries) ∧
      ∃ a b : Entry, a.weight.toNat < b.weight.toNat ∧ b.weight = BitVec.allOnes 41 :=
  ⟨⟨noCounts, 1, ⟨2#41, 2#10, guardTree⟩, by decide +kernel⟩, ⟨1#41, 0#10, .leaf 0⟩, ⟨BitVec.allOnes 41, 1#10, .leaf 1⟩,
    by decide, rfl⟩

theorem witness_LeftSubtreeIsNotHeavier :
    ∃ (freq : Vector Count 256) (l r : CodeTree), CodeTree.node l r ∈ (buildTree freq).subtrees :=
  ⟨noCounts, .leaf 256, .leaf 256, by decide +kernel⟩

/-- The table with one count above 0. -/
def oneCount (b : Byte) (c : Count) : Vector Count 256 := noCounts.set b.toNat c b.isLt

theorem oneCount_others (b : Byte) (c : Count) : ∀ x : Byte, x ≠ b → (oneCount b c)[x.toNat]'x.isLt = 0#32 := by
  intro x hx
  have hne : b.toNat ≠ x.toNat := fun h => hx (BitVec.eq_of_toNat_eq h.symm)
  simp [oneCount, noCounts, hne]

theorem witness_TreesOfAtMostOneByte :
    (∀ b : Byte, noCounts[b.toNat]'b.isLt = 0#32) ∧
      (∀ b, b = 0#8 ∨ b = 255#8 → ∃ freq : Vector Count 256,
        (∀ c : Byte, c ≠ b → freq[c.toNat]'c.isLt = 0#32) ∧ freq[b.toNat]'b.isLt = 1#32) ∧
      (∀ c, c = 2#32 ∨ c = BitVec.allOnes 32 → ∃ (freq : Vector Count 256) (b : Byte),
        (∀ x : Byte, x ≠ b → freq[x.toNat]'x.isLt = 0#32) ∧ freq[b.toNat]'b.isLt = c ∧ 1#32 < c) := by
  refine ⟨fun b => by simp [noCounts], fun b _ => ⟨oneCount b 1#32, oneCount_others b _, by simp [oneCount]⟩, ?_⟩
  rintro c (rfl | rfl)
  · exact ⟨oneCount 65#8 2#32, 65#8, oneCount_others _ _, by simp [oneCount], by decide⟩
  · exact ⟨oneCount 65#8 (BitVec.allOnes 32), 65#8, oneCount_others _ _, by simp [oneCount], by decide⟩

theorem witness_GencodesTabulatesPaths : ∃ (s : State) (t : CodeTree), s.ready ∧ s.status.treeValid = true ∧
    s.tree = some t ∧ t.isLeaf = false := ⟨holding treeAABA State.reset, treeAABA, ⟨rfl, rfl⟩, rfl, rfl, rfl⟩

theorem witness_CodesAreNonemptyPathsAndPrefixFree :
    treeAABA.isLeaf = false ∧ (codesOf treeAABA)[66] = some [false, false] ∧ [false, false] <+: [false, false] := by
  decide +kernel

theorem witness_LoneLeafIsRefused : ∃ (s : State) (y : Sym), s.ready ∧ s.status.treeValid = true ∧
    s.tree = some (.leaf y) := ⟨holding (.leaf 256) State.reset, 256, ⟨rfl, rfl⟩, rfl, rfl⟩

theorem witness_MissingInputIsSequenceError :
    (State.reset.ready ∧ State.reset.status.freqValid = false ∧ State.reset.status.treeValid = false ∧
        State.reset.status.codeValid = false) ∧
      ∃ s t : State, s.ready ∧ exec .decompress s = .next t ∧ t.status.err = true := by
  refine ⟨⟨⟨rfl, rfl⟩, rfl, rfl, rfl⟩, given [], ?_⟩
  obtain ⟨t, ht⟩ := next_of_isSome (o := exec .decompress (given [])) (by decide +kernel)
  have hw : (next (exec .decompress (given []))).map (fun s => s.status.err) = some true := by decide +kernel
  rw [ht] at hw
  exact ⟨t, given_ready _, ht, by simpa [next] using hw⟩

theorem witness_ReservedWordsAreIllegal : (given []).ready := given_ready _

theorem witness_CommandsUnderErrorHaveNoEffect :
    ∃ s : State, s.status.busy = false ∧ s.status.err = true ∧ s.out.isOpen = true ∧
      (0xA#4 ≠ 0xB#4 ∧ 0xA#4 ≠ 0xE#4) ∧ (0xC#4 ≠ 0xB#4 ∧ 0xC#4 ≠ 0xE#4) ∧ (0x0#4 ≠ 0xB#4 ∧ 0xF#4 ≠ 0xE#4) :=
  ⟨faulted State.reset, rfl, rfl, rfl, by decide, by decide, by decide⟩

theorem witness_RecordedFaultStays :
    ∃ s t : State, s.Inv ∧ s.status.err = true ∧ step s = .next t ∧ (∀ rest, s.port ≠ .reset :: rest) ∧
      (s.status.busy = false → ∀ rest, s.port ≠ .command 0xE#4 :: rest ∧ s.port ≠ .start 0xE#4 :: rest) := by
  obtain ⟨t, ht⟩ := next_of_isSome (o := step (offered [.command 0xB#4] (faulted (given [0x41])))) (by decide +kernel)
  exact ⟨_, t, faulted_inv _ _, rfl, ht, nofun, fun _ rest => ⟨by simp [offered], nofun⟩⟩

theorem witness_ClosedStreamsAreRefused :
    ((unread (coded treeAABA State.reset)).ready ∧ (unread (coded treeAABA State.reset)).inp.isOpen = false ∧
        (unread (coded treeAABA State.reset)).status.codeValid = true ∧
        (unread (coded treeAABA State.reset)).status.treeValid = true ∧
        (unread (coded treeAABA State.reset)).tree = some treeAABA ∧ treeAABA.isLeaf = false) ∧
      (∃ (s : State) (t : CodeTree) (b : Byte) (after c path tail : BitString), s.ready ∧ s.status.busy = false ∧ s.out.isOpen = false ∧
        s.inp.isOpen = true ∧ s.status.treeValid = true ∧ s.tree = some t ∧ t.isLeaf = false ∧ s.status.codeValid = true ∧
        s.ahead = bitsOf 8 b.toNat ++ after ∧ codeAt s (symOfByte b) = some c ∧ c ≠ [] ∧
        t.isCode path (symOfByte b) ∧ s.ahead = path ++ tail) ∧
      ∃ (s : State) (c : BitString), s.ready ∧ s.out.isOpen = false ∧ s.inp.isOpen = true ∧ s.status.codeValid = true ∧
        s.ahead.length < 8 ∧ codeAt s Config.eob = some c ∧ c ≠ [] :=
  ⟨⟨⟨rfl, rfl⟩, rfl, rfl, rfl, rfl, rfl⟩,
    ⟨shut (coded (.node (.leaf 65) (.leaf 256)) (given [0x41])), .node (.leaf 65) (.leaf 256), 0x41#8, [], [false],
      [false], bits [1, 0, 0, 0, 0, 0, 1], ⟨rfl, rfl⟩, rfl, rfl, rfl, rfl, rfl, rfl, rfl, rfl, by decide +kernel, by decide, rfl, rfl⟩,
    shut (coded treeAABA State.reset), [false, true], ⟨rfl, rfl⟩, rfl, rfl, rfl, by decide, by decide +kernel, by decide⟩

theorem witness_WrtreeAppendsHeader : ∃ (s : State) (t : CodeTree), s.ready ∧ s.out.isOpen = true ∧
    s.status.treeValid = true ∧ s.tree = some t := ⟨holding (.leaf 0) State.reset, .leaf 0, ⟨rfl, rfl⟩, rfl, rfl, rfl⟩

/-- The largest legal header (V62): 513 nodes. -/
theorem leftChain_256_nodes : (leftChain 256).nodes = 513 := by decide +kernel

theorem witness_RdtreeReadsHeader : ∃ (s : State) (t : CodeTree) (after : BitString), s.ready ∧ s.inp.isOpen = true ∧
    s.ahead = encTree t ++ after ∧ t.bounded ∧ t.nodes = 513 :=
  ⟨givenBits (encTree (leftChain 256) ++ [true]), leftChain 256, [true], givenBits_ready _, rfl, rfl,
    le_of_eq leftChain_256_nodes, leftChain_256_nodes⟩

/-- Node tokens of an unfinished header: `n` internal ones, then `k` leaves. -/
def spine (n k : Nat) : List NodeToken := List.replicate n .internal ++ List.replicate k (.leaf 3)

theorem spine_length (n k : Nat) : (spine n k).length = n + k := by simp [spine]

theorem spine_unfinished {n k : Nat} (h : k ≤ n) : unfinished (spine n k) := by
  intro m hm
  simp only [spine, List.length_append, List.length_replicate] at hm
  simp only [spine, List.take_append, List.take_replicate, List.length_replicate, List.countP_append, List.count_append,
    List.countP_replicate, List.count_replicate]
  simp
  omega

/-- No token at all, and 513 of them with more than 256 internal ones and some leaves; a field cut after the bits `11`, as
the first node and as the last that fits, and one cut after eight bits. -/
theorem witness_RdtreeMeetsEndOfInput :
    (∀ l, l = [] ∨ l = spine 300 213 → ∃ s : State, s.ready ∧ s.inp.isOpen = true ∧ unfinished l ∧ l.length ≤ 513 ∧
        s.ahead = tokenBits l) ∧
      ∀ l part, (l = [] ∨ l = spine 256 256) → (part = [] ∨ part = [true, true] ∨ part = List.replicate 8 true) →
        ∃ s : State, s.ready ∧ s.inp.isOpen = true ∧ unfinished l ∧ l.length < 513 ∧ part.length < 9 ∧
          s.ahead = tokenBits l ++ true :: part := by
  have h0 : unfinished [] := spine_unfinished (n := 0) (k := 0) le_rfl
  refine ⟨?_, ?_⟩
  · rintro l (rfl | rfl)
    · exact ⟨givenBits [], givenBits_ready _, rfl, h0, by decide, rfl⟩
    · exact ⟨givenBits (tokenBits (spine 300 213)), givenBits_ready _, rfl, spine_unfinished (by decide),
        by rw [spine_length], rfl⟩
  · rintro l part hl hp
    have hpl : part.length < 9 := by rcases hp with rfl | rfl | rfl <;> decide
    refine ⟨givenBits (tokenBits l ++ true :: part), givenBits_ready _, rfl, ?_, ?_, hpl, rfl⟩
    · rcases hl with rfl | rfl
      · exact h0
      · exact spine_unfinished le_rfl
    · rcases hl with rfl | rfl
      · decide
      · rw [spine_length]; decide

/-- Overflow with leaves before it and at either marker; a bad symbol as the first node and as the last that fits. -/
theorem witness_RdtreeStopsAtOverflowOrBadSymbol :
    (∀ marker : Bool, ∃ (s : State) (l : List NodeToken) (after : BitString), s.ready ∧ s.inp.isOpen = true ∧
        unfinished l ∧ l.length = 513 ∧ s.ahead = tokenBits l ++ marker :: after) ∧
      ∀ n, n = 0 ∨ n = 512 → ∃ (s : State) (l : List NodeToken) (after : BitString) (f : BitVec 9), s.ready ∧
        s.inp.isOpen = true ∧ unfinished l ∧ l.length = n ∧ l.length < 513 ∧ 256 < f.toNat ∧
        s.ahead = tokenBits l ++ encode (.nodeLeaf f) ++ after := by
  refine ⟨fun marker => ⟨givenBits (tokenBits (spine 257 256) ++ marker :: [true]), spine 257 256, [true],
    givenBits_ready _, rfl, spine_unfinished (by decide), spine_length _ _, rfl⟩, ?_⟩
  rintro n (rfl | rfl)
  · exact ⟨givenBits (tokenBits [] ++ encode (.nodeLeaf 257#9) ++ [true]), [], [true], 257#9, givenBits_ready _, rfl,
      spine_unfinished (n := 0) (k := 0) le_rfl, rfl, by decide, by decide, rfl⟩
  · exact ⟨givenBits (tokenBits (spine 256 256) ++ encode (.nodeLeaf 511#9) ++ [true]), spine 256 256, [true], 511#9,
      givenBits_ready _, rfl, spine_unfinished le_rfl, spine_length _ _, by rw [spine_length]; decide, by decide, rfl⟩

theorem witness_RdtreeEndsWithTreeOrFault : (given [0x24]).ready ∧ (given [0x24]).inp.isOpen = true :=
  ⟨given_ready _, rfl⟩

theorem witness_HeaderDescribesItsTree :
    ∃ (s t u : State) (tree : CodeTree) (after : BitString), s.ready ∧ s.status.treeValid = true ∧ s.tree = some tree ∧
      tree.bounded ∧ exec .wrtree s = .next t ∧ u.ready ∧ u.inp.isOpen = true ∧
      u.ahead = t.out.bits.drop s.out.bits.length ++ after := by
  obtain ⟨t, ht⟩ := next_of_isSome (o := exec .wrtree (holding treeAABA State.reset)) (by decide +kernel)
  exact ⟨holding treeAABA State.reset, t, givenBits (t.out.bits.drop 0 ++ [false]), treeAABA, [false], ⟨rfl, rfl⟩, rfl,
    rfl, by unfold CodeTree.bounded; decide, ht, givenBits_ready _, rfl, rfl⟩

theorem witness_WrmagicAppendsMagic : State.reset.ready ∧ State.reset.out.isOpen = true := ⟨⟨rfl, rfl⟩, rfl⟩

theorem witness_EncbodyAppendsCodes :
    ∃ (s : State) (l : List Byte) (tail : BitString), s.ready ∧ s.inp.isOpen = true ∧ s.out.isOpen = true ∧
      s.status.codeValid = true ∧ s.ahead = bitsOfBytes l ++ tail ∧ tail.length = 7 ∧
      (∀ b ∈ l, codeAt s (symOfByte b) ≠ none) ∧ codeAt s Config.eob ≠ none ∧ l ≠ [] :=
  ⟨coded treeAABA (givenBits (bitsOfBytes (bytes [0x41, 0x42]) ++ List.replicate 7 true)), bytes [0x41, 0x42],
    List.replicate 7 true, ⟨rfl, rfl⟩, rfl, rfl, rfl, rfl, rfl, by decide +kernel, by decide +kernel, by decide⟩

theorem witness_EncbodyStopsAtMissingCode :
    (∃ (s : State) (l : List Byte) (b : Byte) (after : BitString), s.ready ∧ s.inp.isOpen = true ∧ s.out.isOpen = true ∧
        s.status.codeValid = true ∧ (∀ x ∈ l, codeAt s (symOfByte x) ≠ none) ∧
        s.ahead = bitsOfBytes l ++ bitsOf 8 b.toNat ++ after ∧ codeAt s (symOfByte b) = none ∧ l ≠ []) ∧
      ∃ (s : State) (l : List Byte) (tail : BitString), s.ready ∧ s.inp.isOpen = true ∧ s.out.isOpen = true ∧
        s.status.codeValid = true ∧ (∀ x ∈ l, codeAt s (symOfByte x) ≠ none) ∧ s.ahead = bitsOfBytes l ++ tail ∧
        tail.length = 7 ∧ codeAt s Config.eob = none :=
  ⟨⟨coded treeAABA (given [0x41, 0x43]), bytes [0x41], 0x43#8, [], ⟨rfl, rfl⟩, rfl, rfl, rfl, by decide +kernel, rfl,
      by decide +kernel, by decide⟩,
    coded (.node (.leaf 65) (.leaf 66)) (givenBits (bitsOfBytes (bytes [0x41]) ++ List.replicate 7 true)), bytes [0x41],
    List.replicate 7 true, ⟨rfl, rfl⟩, rfl, rfl, rfl, by decide +kernel, rfl, rfl, by decide +kernel⟩

theorem witness_CompressWritesStream :
    ∃ (s : State) (l : List Byte), s.ready ∧ s.inp = { bits := bitsOfBytes l, pos := 0, isOpen := true } ∧
      s.out.isOpen = true ∧ l ≠ [] :=
  ⟨given [0x41, 0x42], bytes [0x41, 0x42], given_ready _, rfl, rfl, by decide⟩

theorem witness_CompressOfNothing : (given []).ready ∧ (given []).inp = { bits := [], pos := 0, isOpen := true } ∧
    (given []).out.isOpen = true ∧ (given []).out.bits = [] := ⟨given_ready _, rfl, rfl, rfl⟩

/-- A value other than the magic. -/
theorem other_magic : Config.magic + 1#32 ≠ Config.magic := by
  intro h
  have := congrArg BitVec.toNat h
  have hlt := Config.magic.isLt
  simp only [BitVec.toNat_add, BitVec.toNat_ofNat] at this
  omega

theorem witness_RdmagicChecksMagic :
    (∃ s : State, s.ready ∧ s.inp.isOpen = true ∧ ∃ after, s.ahead = bitsOf 32 Config.magic.toNat ++ after) ∧
      (∃ s : State, s.ready ∧ s.inp.isOpen = true ∧
        ∃ (m : BitVec 32) (after : BitString), m ≠ Config.magic ∧ s.ahead = bitsOf 32 m.toNat ++ after) ∧
      ∃ s : State, s.ready ∧ s.inp.isOpen = true ∧ s.ahead.length < 32 ∧ s.ahead.length = 31 :=
  ⟨⟨givenBits (bitsOf 32 Config.magic.toNat ++ []), givenBits_ready _, rfl, [], rfl⟩,
    ⟨givenBits (bitsOf 32 (Config.magic + 1#32).toNat ++ []), givenBits_ready _, rfl, _, [], other_magic, rfl⟩,
    givenBits (List.replicate 31 true), givenBits_ready _, rfl, by decide, rfl⟩

theorem isCode_65 : treeAABA.isCode [true] (symOfByte 0x41#8) := rfl

theorem isCode_eob : treeAABA.isCode [false, true] Config.eob := rfl

theorem witness_DecbodyWritesBytes :
    ∃ (s : State) (t : CodeTree) (items : List (BitString × Byte)) (e after : BitString), s.ready ∧ s.inp.isOpen = true ∧
      s.out.isOpen = true ∧ s.status.treeValid = true ∧ s.tree = some t ∧ t.isLeaf = false ∧
      (∀ q ∈ items, t.isCode q.1 (symOfByte q.2)) ∧ t.isCode e Config.eob ∧
      s.ahead = items.flatMap (·.1) ++ e ++ after ∧ items ≠ [] :=
  ⟨holding treeAABA (givenBits (bits [1, 0, 1, 0])), treeAABA, [([true], 0x41#8)], [false, true], [false], ⟨rfl, rfl⟩, rfl,
    rfl, rfl, rfl, rfl, by simp [isCode_65], isCode_eob, rfl, by simp⟩

theorem witness_DecbodyMeetsEndOfInput :
    ∃ (s : State) (t sub : CodeTree) (items : List (BitString × Byte)) (part : BitString), s.ready ∧
      s.inp.isOpen = true ∧ s.out.isOpen = true ∧ s.inp.pos ≤ s.inp.bits.length ∧ s.status.treeValid = true ∧
      s.tree = some t ∧ t.isLeaf = false ∧ (∀ q ∈ items, t.isCode q.1 (symOfByte q.2)) ∧ t.follow part = some sub ∧
      sub.isLeaf = false ∧ s.ahead = items.flatMap (·.1) ++ part ∧ part ≠ [] :=
  ⟨holding treeAABA (givenBits (bits [1, 0])), treeAABA, .node (.leaf 66) (.leaf 256), [([true], 0x41#8)], [false],
    ⟨rfl, rfl⟩, rfl, rfl, by decide, rfl, rfl, rfl, by simp [isCode_65], rfl, rfl, rfl, by decide⟩

theorem witness_DecompressReadsStream :
    ∃ (s : State) (t : CodeTree) (items : List (BitString × Byte)) (e after : BitString), s.ready ∧ s.inp.isOpen = true ∧
      s.out.isOpen = true ∧ s.out.bits = [] ∧ t.bounded ∧ t.isLeaf = false ∧
      (∀ q ∈ items, t.isCode q.1 (symOfByte q.2)) ∧ t.isCode e Config.eob ∧
      s.ahead = bitsOf 32 Config.magic.toNat ++ encTree t ++ items.flatMap (·.1) ++ e ++ after :=
  ⟨givenBits (bitsOf 32 Config.magic.toNat ++ encTree treeAABA ++ [([true], 0x41#8)].flatMap (·.1) ++ [false, true] ++ [true]),
    treeAABA, [([true], 0x41#8)], [false, true], [true], givenBits_ready _, rfl, rfl, rfl,
    by unfold CodeTree.bounded; decide, rfl, by simp [isCode_65], isCode_eob, rfl⟩

theorem witness_CompositeCommandsCloseOnEveryExit :
    ((given [0x41]).ready ∧ (given [0x41]).inp.isOpen = true ∧ (given [0x41]).out.isOpen = true ∧
        (given [0x41]).out.bits = []) ∧
      ∃ (s : State) (missed l : List Byte), s.ready ∧ s.out.isOpen = true ∧
        s.inp = { bits := bitsOfBytes (missed ++ l), pos := 8 * missed.length, isOpen := true } ∧ ∃ b ∈ missed, b ∉ l :=
  ⟨⟨given_ready _, rfl, rfl, rfl⟩, advance 8 (given [0x41, 0x42]), bytes [0x41], bytes [0x42], ⟨rfl, rfl⟩, rfl, rfl,
    0x41#8, by decide, by decide⟩

theorem witness_DecompressInvertsCompress :
    ∃ (s t u : State) (l : List Byte) (after : BitString), s.ready ∧
      s.inp = { bits := bitsOfBytes l, pos := 0, isOpen := true } ∧ s.out.isOpen = true ∧ s.out.bits = [] ∧
      exec .compress s = .next t ∧ u.ready ∧ u.inp = { bits := t.out.bits ++ after, pos := 0, isOpen := true } ∧
      u.out.isOpen = true ∧ u.out.bits = [] := by
  obtain ⟨t, ht⟩ := next_of_isSome (o := exec .compress (given [0x41])) (by decide +kernel)
  exact ⟨given [0x41], t, givenBits (t.out.bits ++ [true]), bytes [0x41], [true], given_ready _, rfl, rfl, rfl, ht,
    givenBits_ready _, rfl, rfl, rfl⟩

theorem witness_InvocationsShareNothing :
    ∃ (s t s' : State) (i : Instr), (i = .compress ∨ i = .decompress) ∧ s.ready ∧ t.ready ∧ s.inp = t.inp ∧
      s.out = t.out ∧ s.port = t.port ∧ s.draws = t.draws ∧ s.errcode = t.errcode ∧ s.errcmd = t.errcmd ∧
      exec i s = .next s' ∧ s.tree ≠ t.tree := by
  obtain ⟨s', hs⟩ := next_of_isSome (o := exec .compress (given [0x41])) (by decide +kernel)
  exact ⟨given [0x41], coded treeAABA (given [0x41]), s', .compress, .inl rfl, given_ready _, ⟨rfl, rfl⟩, rfl, rfl, rfl,
    rfl, rfl, rfl, hs, by decide⟩

theorem witness_RewindReturnsToStart : (advance 8 (given [0x41])).ready ∧ (advance 8 (given [0x41])).inp.isOpen = true :=
  ⟨⟨rfl, rfl⟩, rfl⟩

theorem witness_ClosePadsAndCloses :
    (State.reset.status.busy = false ∧ State.reset.out.isOpen = true) ∧
      ((faulted State.reset).status.busy = false ∧ (faulted State.reset).out.isOpen = true) := ⟨⟨rfl, rfl⟩, rfl, rfl⟩

theorem witness_ClearGivesResetValues : (faulted State.reset).status.busy = false := rfl

/-- RDTREE with a given node count. -/
def atNode (n : Nat) (s : State) : State := { readingHeader s with nnode := BitVec.ofNat 10 n }

theorem witness_InternalNodeToken : ∀ n, n = 0 ∨ n = 512 ∨ n = 513 → ∀ c : Cmd,
    (atStep c .rdtree (atNode n (given [0x24]))).phase = .run c .rdtree ∧
      (atStep c .rdtree (atNode n (given [0x24]))).inp.isOpen = true ∧
      (atStep c .rdtree (atNode n (given [0x24]))).inp.pos < (atStep c .rdtree (atNode n (given [0x24]))).inp.bits.length ∧
      (atStep c .rdtree (atNode n (given [0x24]))).nnode.toNat = n ∧
      (atStep c .rdtree (atNode n (given [0x24]))).out.isOpen = true := by
  rintro n (rfl | rfl | rfl) c <;> exact ⟨rfl, rfl, show 0 < 8 by decide, rfl, rfl⟩

/-- RDTREE inside a command with pending nodes. -/
def pending (c : Cmd) (k : List Frame) (s : State) : State := { atStep c .rdtree (atNode 512 s) with stack := k }

theorem witness_LeafToken (c : Cmd) (k : List Frame) :
    (pending c k (given [0xC0, 0x00])).phase = .run c .rdtree ∧ (pending c k (given [0xC0, 0x00])).inp.isOpen = true ∧
      (pending c k (given [0xC0, 0x00])).inp.pos + 10 ≤ (pending c k (given [0xC0, 0x00])).inp.bits.length ∧
      (pending c k (given [0xC0, 0x00])).nnode.toNat < 513 ∧ (pending c k (given [0xC0, 0x00])).stack = k ∧
      (pending c k (given [0xC0, 0x00])).out.isOpen = true ∧
      (atStep c .rdtree (atNode 513 (given [0xC0, 0x00]))).nnode.toNat = 513 ∧
      (atStep c .rdtree (atNode 513 (given [0xC0, 0x00]))).phase = .run c .rdtree ∧
      (∃ y : Sym, (256#9).toNat = y.val) ∧ (256#9).toNat ≤ 256 ∧ 256 < (257#9).toNat ∧
      (∃ (done : List CodeTree) (k' : List Frame), [Frame.right (.leaf 1), .left, .left] = done.map Frame.right ++ .left :: k') ∧
      (∃ done : List CodeTree, ([] : List Frame) = done.map Frame.right) ∧
      ∃ done : List CodeTree, done ≠ [] ∧ [Frame.right (.leaf 1)] = done.map Frame.right :=
  ⟨rfl, rfl, show 10 ≤ 16 by decide, show 512 < 513 by decide, rfl, rfl, rfl, rfl, ⟨256, rfl⟩, by decide, by decide,
    ⟨[.leaf 1], [.left], rfl⟩, ⟨[], rfl⟩, [.leaf 1], by simp, rfl⟩

theorem witness_MagicToken : ∀ c, c = Cmd.rdmagic ∨ c = .decompress →
    (running c .rdmagic (given [0, 0, 0, 0])).phase = .run c .rdmagic ∧
      (running c .rdmagic (given [0, 0, 0, 0])).inp.isOpen = true ∧
      (running c .rdmagic (given [0, 0, 0, 0])).inp.pos + 32 ≤ (running c .rdmagic (given [0, 0, 0, 0])).inp.bits.length ∧
      (running c .rdmagic (given [0, 0, 0, 0])).out.isOpen = true ∧ Config.magic + 1#32 ≠ Config.magic := by
  rintro c (rfl | rfl) <;> exact ⟨rfl, rfl, by decide, rfl, other_magic⟩

theorem witness_CodeToken : ∀ c, c = Cmd.decbody ∨ c = .decompress → ∃ (s : State) (t : CodeTree) (path eob : BitString),
    s.phase = .run c .decbody ∧ s.inp.isOpen = true ∧ s.out.isOpen = true ∧
      s.inp.pos + path.length ≤ s.inp.bits.length ∧ s.inp.pos + eob.length ≤ s.inp.bits.length ∧
      s.status.treeValid = true ∧ s.tree = some t ∧ s.cur = t ∧ t.isLeaf = false ∧
      (∃ b : Byte, t.isCode path (symOfByte b)) ∧ t.isCode eob Config.eob := by
  rintro c (rfl | rfl)
  · exact ⟨readingBody .decbody treeAABA (given [0x80]), treeAABA, [true], [false, true], rfl, rfl, rfl, by decide,
      by decide, rfl, rfl, rfl, rfl, ⟨0x41#8, isCode_65⟩, isCode_eob⟩
  · exact ⟨readingBody .decompress treeAABA (given [0x80]), treeAABA, [true], [false, true], rfl, rfl, rfl, by decide,
      by decide, rfl, rfl, rfl, rfl, ⟨0x41#8, isCode_65⟩, isCode_eob⟩

theorem witness_UnreadTokensHaveNoEffect : (∀ c, State.reset.phase ≠ .run c .rdtree) ∧
    (∀ c, State.reset.phase ≠ .run c .rdmagic) ∧ ∀ c, State.reset.phase ≠ .run c .decbody := ⟨nofun, nofun, nofun⟩

theorem witness_CommandsTouchOnlyTheirState : ∀ c : Cmd, ∃ s t : State, exec (decodeCommand c.opcode) s = .next t ∧ s.ready := by
  intro c
  have h : (next (exec (decodeCommand c.opcode) (given [0x41]))).isSome = true := by cases c <;> decide +kernel
  obtain ⟨t, ht⟩ := next_of_isSome h
  exact ⟨_, t, ht, given_ready _⟩

theorem witness_InputReadOnlyOutputAppendOnly :
    ∃ s t : State, step s = .next t ∧ (∀ l rest, s.port ≠ .bindIn l :: rest ∧ s.port ≠ .changeIn l :: rest) ∧
      (∀ rest, s.port ≠ .bindOut :: rest) ∧ s.out.closed = true := by
  obtain ⟨t, ht⟩ := next_of_isSome (o := step (offered [.command 0x1#4] (shut (given [0x41])))) (by decide +kernel)
  exact ⟨_, t, ht, fun _ _ => ⟨nofun, nofun⟩, nofun, rfl⟩

end Sys2Proof.Tests
end

section
/-! PROOFS. The statements of 10_state.md: the code table GENCODES makes (R28) and the values after reset (R40). -/

namespace Sys2Proof.Machine

/-! ### The code table -/

/-- An entry of the table of a tree is a code of its symbol (10_state.md R28 b). -/
theorem codesOf_isCode {t : CodeTree} {y : Sym} {c : BitString} (h : (codesOf t)[y.val]'y.isLt = some c) :
    t.isCode c y :=
  lastPath_isCode (by rwa [codesOf_get] at h)

/-- Exactly the symbols of the leaves have an entry (10_state.md R28 a). -/
theorem codesOf_ne_none (t : CodeTree) (y : Sym) : (codesOf t)[y.val]'y.isLt ≠ none ↔ y ∈ t.symbols := by
  rw [codesOf_get, ne_eq, lastPath_none, not_not]

/-- Two codes of a tree of which one starts the other have the same symbol (10_state.md R28 c). -/
theorem isCode_sym_eq_of_prefix {t : CodeTree} {y z : Sym} {c d : BitString} (hc : t.isCode c y) (hd : t.isCode d z)
    (h : c <+: d) : y = z := by
  obtain ⟨x, hx⟩ := h
  have hcd : c ++ x = d ++ [] := by rw [hx, List.append_nil]
  obtain ⟨-, hyz, -⟩ := t.isCode_unique c d x [] y z hc hd hcd
  exact hyz

/-! ### Reset -/

/-- The step of an idle block with an event at the port is what the host does, the event taken off. -/
theorem step_of_event {s : State} {ev : HostEvent} {rest : List HostEvent} (hport : s.port = ev :: rest)
    (hbusy : s.status.busy = false) : step s = hostActs ev { s with port := rest } := by
  simp [step, hport, hbusy]

/-- With no command running, reset leaves no draw to the streams (70_reset_and_hazards.md R263). -/
theorem applyReset_of_idle {s : State} (h : s.phase = .idle) : applyReset s = resetBlock s := by
  rw [applyReset, h]

@[simp] theorem freqAt_reset (b : Byte) : freqAt State.reset b = 0#32 := by simp [freqAt, State.reset]

@[simp] theorem codeAt_reset (y : Sym) : codeAt State.reset y = none := by simp [codeAt, State.reset]

@[simp] theorem freqAt_resetBlock (s : State) (b : Byte) : freqAt (resetBlock s) b = 0#32 := freqAt_reset b

@[simp] theorem codeAt_resetBlock (s : State) (y : Sym) : codeAt (resetBlock s) y = none := codeAt_reset y

/-- The step that takes a reset off the port of an idle block. -/
theorem step_reset_of_idle {s : State} {rest : List HostEvent} (hport : s.port = .reset :: rest)
    (hbusy : s.status.busy = false) (hphase : s.phase = .idle) :
    step s = .next (resetBlock { s with port := rest }) := by
  rw [step_of_event hport hbusy]
  exact congrArg Host.Outcome.next (applyReset_of_idle hphase)

end Sys2Proof.Machine

namespace Sys2Proof.Proofs

open Sys2Proof.Machine

/-- Settles O24: the entries of the table are codes of the tree, so no entry is empty where the root is internal, and
the prefix freedom of the tree's codes is that of the table. -/
theorem codesAreNonemptyPathsAndPrefixFree : Obligations.CodesAreNonemptyPathsAndPrefixFree := by
  intro t ht
  refine ⟨codesOf_ne_none t, fun y c hc => ?_, fun y z c d hc hd hcd => ?_⟩
  · have hcode := codesOf_isCode hc
    exact ⟨hcode, CodeTree.isCode_pos ht hcode⟩
  · exact isCode_sym_eq_of_prefix (codesOf_isCode hc) (codesOf_isCode hd) hcd

/-- Settles O1: the step ends in `resetBlock`, which takes all but the streams, the port and the draws from the start
state. -/
theorem resetGivesListedValues : Obligations.ResetGivesListedValues := by
  refine ⟨fun s rest hport hbusy hphase => ?_, freqAt_reset, codeAt_reset, rfl, rfl, rfl, rfl, rfl, rfl, rfl, rfl,
    rfl⟩
  exact ⟨_, step_reset_of_idle hport hbusy hphase, freqAt_resetBlock _, codeAt_resetBlock _, rfl, rfl, rfl, rfl, rfl,
    rfl, rfl, rfl, rfl, rfl, rfl, rfl⟩

end Sys2Proof.Proofs
end

section
/-! PROOFS. The statements of 30_encoding.md: tree headers (R88), reserved command words (R82) and the words offered while
`ERR = 1` (R83). -/

namespace Sys2Proof.Machine

/-! ### Command words -/

/-- The opcode map (30_encoding.md R81, R82): every word but the two reserved ones is the opcode of the command it
selects. -/
theorem ofWord_map_opcode (w : BitVec 4) :
    (Cmd.ofWord w).map Cmd.opcode = if w = 0x0#4 ∨ w = 0xF#4 then none else some w := by
  revert w; decide

/-- A command word is reserved or the opcode of a command. -/
theorem reserved_or_opcode (w : BitVec 4) : (w = 0x0#4 ∨ w = 0xF#4) ∨ ∃ c : Cmd, c.opcode = w := by
  by_cases hw : w = 0x0#4 ∨ w = 0xF#4
  · exact .inl hw
  · have h := ofWord_map_opcode w
    rw [if_neg hw] at h
    obtain ⟨c, -, hc⟩ := Option.map_eq_some_iff.mp h
    exact .inr ⟨c, hc⟩

/-- CLOSE and CLEAR alone act while `ERR = 1` (30_encoding.md R83). -/
theorem opcode_of_actsOnErr {c : Cmd} (h : c.actsOnErr = true) : c.opcode = 0xB#4 ∨ c.opcode = 0xE#4 := by
  cases c with
  | close => exact .inl rfl
  | clear => exact .inr rfl
  | _ => cases h

/-- A primitive command but CLEAR is its body between acceptance and end (00_scope.md R19, 30_encoding.md R80). -/
theorem exec_primitive {c : Cmd} (hc : c.composite = false) (hclear : c ≠ .clear) (s : State) :
    exec (decodeCommand c.opcode) s = runCommand c (primitiveBody c) s := by
  cases c with
  | compress | decompress => cases hc
  | clear => exact absurd rfl hclear
  | _ => rfl

/-- A composite command is its steps after `cleardata` (44_encoder.md R178, 45_decoder.md R198). -/
theorem exec_composite {c : Cmd} (hc : c.composite = true) (s : State) :
    exec (decodeCommand c.opcode) s = runCommand c (fun s => runSteps c (stepsOf c) (cleardata s)) s := by
  cases c with
  | compress | decompress => rfl
  | _ => cases hc

theorem exec_clear (s : State) : exec .clear s = gate true s fun s => .next (clearAll s) := rfl

theorem exec_close (s : State) : exec .close s = runCommand .close closeStreams s := rfl

theorem runCommand_error {c : Cmd} {s : State} (hb : s.status.busy = false) (he : s.status.err = true)
    (hc : c.actsOnErr = false) (body : State → Res Unit) : runCommand c body s = .next (ignored s) := by
  rw [runCommand, hc, gate_error hb he]

theorem runCommand_acting {c : Cmd} {s : State} (hb : s.status.busy = false) (hc : c.actsOnErr = true)
    (body : State → Res Unit) : runCommand c body s = settle (unwind c (body (accept c s))) := by
  rw [runCommand, hc, gate_acting hb]

/-- While `ERR = 1` a command other than CLOSE and CLEAR is ignored (30_encoding.md R83). -/
theorem exec_opcode_error {c : Cmd} {s : State} (hb : s.status.busy = false) (he : s.status.err = true)
    (hc : c.actsOnErr = false) : exec (decodeCommand c.opcode) s = .next (ignored s) := by
  cases hcomp : c.composite with
  | false =>
    have hclear : c ≠ .clear := by rintro rfl; cases hc
    rw [exec_primitive hcomp hclear, runCommand_error hb he hc]
  | true => rw [exec_composite hcomp, runCommand_error hb he hc]

/-! ### Reserved words, and the commands that act on a recorded fault -/

theorem exec_reserved0 (s : State) : exec .reserved0 s = illegalCommand 0x0#4 s := rfl

theorem exec_reservedF (s : State) : exec .reservedF s = illegalCommand 0xF#4 s := rfl

theorem illegalCommand_ready {s : State} (h : s.ready) (w : BitVec 4) :
    illegalCommand w s = .next (faultEntry .illegalCommand w s) := gate_ready h _

theorem illegalCommand_error {s : State} (hb : s.status.busy = false) (he : s.status.err = true) (w : BitVec 4) :
    illegalCommand w s = .next (ignored s) := gate_error hb he _

/-- While `ERR = 1` a word other than CLOSE and CLEAR is ignored (30_encoding.md R83). -/
theorem exec_word_error {s : State} (hb : s.status.busy = false) (he : s.status.err = true) {w : BitVec 4}
    (hclose : w ≠ 0xB#4) (hclear : w ≠ 0xE#4) : exec (decodeCommand w) s = .next (ignored s) := by
  obtain (rfl | rfl) | ⟨c, rfl⟩ := reserved_or_opcode w
  · exact illegalCommand_error hb he 0x0#4
  · exact illegalCommand_error hb he 0xF#4
  · have hc : c.actsOnErr = false := by
      rw [Bool.eq_false_iff]
      exact fun h => (opcode_of_actsOnErr h).elim hclose hclear
    exact exec_opcode_error hb he hc

/-- CLOSE on an open output, with or without a recorded fault (46_stream_control.md R211). -/
theorem exec_close_open {s : State} (hb : s.status.busy = false) (ho : s.out.isOpen = true) :
    exec .close s = .next (finish (closedStreams (accept .close s))) := by
  have hbody : closeStreams (accept .close s) = .ok () (closedStreams (accept .close s)) := closeStreams_open ho
  rw [exec_close, runCommand_acting hb rfl, hbody, unwind_primitive rfl, settle_ok]

/-- CLEAR, with or without a recorded fault (46_stream_control.md R213). -/
theorem exec_clear_idle {s : State} (hb : s.status.busy = false) : exec .clear s = .next (clearAll s) := by
  rw [exec_clear, gate_acting hb]

end Sys2Proof.Machine

namespace Sys2Proof.Proofs

open Sys2Proof.Machine

/-- Settles O14: by induction on the first tree a header has one reading; the counts are those of the leaves. -/
theorem headerIsUniquelyParsed : Obligations.HeaderIsUniquelyParsed :=
  ⟨CodeTree.encTree_unique, fun t => ⟨t.encTree_length, t.nodes_eq, t.depth_le⟩⟩

/-- Settles O28: a ready block lets the reserved word through the gate, to the entry of IllegalCommandError. -/
theorem reservedWordsAreIllegal : Obligations.ReservedWordsAreIllegal := by
  rintro s hs i w (⟨rfl, rfl⟩ | ⟨rfl, rfl⟩)
  · rw [exec_reserved0, illegalCommand_ready hs]; rfl
  · rw [exec_reservedF, illegalCommand_ready hs]; rfl

/-- Settles O29: the gate ignores every word but CLOSE and CLEAR, which pass it; CLOSE keeps the record of the fault, and
CLEAR leaves the flags at their reset values. -/
theorem commandsUnderErrorHaveNoEffect : Obligations.CommandsUnderErrorHaveNoEffect := by
  intro s hb he
  refine ⟨fun w hclose hclear => exec_word_error hb he hclose hclear, fun ho => ?_, ?_⟩
  · have hstatus : (finish (closedStreams (accept .close s))).status = { s.status with done := true } := by
      simp [closedStreams, hb]
    exact ⟨_, exec_close_open hb ho, rfl, rfl, hstatus, rfl, rfl⟩
  · have hword : (clearAll s).status.word = 0#8 := by rw [clearAll_status]; rfl
    exact ⟨_, exec_clear_idle hb, hword, clearAll_errcode s, clearAll_errcmd s, clearAll_inp s, clearAll_out s⟩

end Sys2Proof.Proofs
end

section
/-! PROOFS. The statement of 40_frequency_counter.md: what COUNT leaves behind (R113). -/

namespace Sys2Proof.Machine

/-- The state COUNT ends in when the bytes ahead are `bytes` (40_frequency_counter.md R110, R113). -/
def tabulated (bytes : List Byte) (s : State) : State :=
  finish (markFreq
    { toEnd (countInit (accept .count s)) with freq := countInto (Vector.replicate 256 0#32) bytes })

theorem exec_count (s : State) : exec .count s = runCommand .count countBody s := rfl

theorem exec_count_ready {s : State} (hs : s.ready) (ho : s.inp.isOpen = true) {bytes : List Byte} {tail : BitString}
    (h : s.ahead = bitsOfBytes bytes ++ tail) (ht : tail.length < 8) :
    exec .count s = .next (tabulated bytes s) := by
  have hbody := countBody_eq (s := accept .count s) ho h ht
  rw [exec_count, runCommand_ready hs, hbody, unwind_primitive rfl, settle_ok, tabulated]

theorem tabulated_status {s : State} (he : s.status.err = false) (bytes : List Byte) :
    (tabulated bytes s).status =
      { busy := false, done := true, err := false, freqValid := true, treeValid := false, codeValid := false } := by
  simp [tabulated, toEnd, he]

/-- COUNT changes the table, the position and the flags alone. -/
theorem tabulated_frame (bytes : List Byte) (s : State) :
    tabulated bytes s =
      { s with
        freq := (tabulated bytes s).freq, inp := { s.inp with pos := s.inp.bits.length }, phase := .idle, stack := []
        status := (tabulated bytes s).status } := rfl

/-- An entry counts its byte up to `CNT_MAX` (40_frequency_counter.md R112, R113). -/
theorem freqAt_tabulated_toNat (bytes : List Byte) (s : State) (b : Byte) :
    (freqAt (tabulated bytes s) b).toNat = min (bytes.count b) (2 ^ 32 - 1) := by
  have h := countInto_toNat (Vector.replicate 256 0#32) bytes b
  rwa [Vector.getElem_replicate, BitVec.toNat_ofNat, Nat.zero_mod, Nat.zero_add] at h

/-- Saturation never brings an entry back to 0 (40_frequency_counter.md R113). -/
theorem freqAt_tabulated_pos (bytes : List Byte) (s : State) (b : Byte) :
    0#32 < freqAt (tabulated bytes s) b ↔ b ∈ bytes := by
  rw [BitVec.lt_def, freqAt_tabulated_toNat, ← List.count_pos_iff]
  exact lt_min_iff.trans (and_iff_left (by decide))

end Sys2Proof.Machine

namespace Sys2Proof.Proofs

open Sys2Proof.Machine

/-- Settles O16: COUNT ends in `tabulated`, whose entries are the saturated counts and which is the state before in every
other element but the position and the flags. -/
theorem countTabulatesInput : Obligations.CountTabulatesInput := by
  intro s bytes tail hs ho hahead htail
  refine ⟨tabulated bytes s, exec_count_ready hs ho hahead htail, freqAt_tabulated_toNat bytes s,
    freqAt_tabulated_pos bytes s, ?_⟩
  rw [← tabulated_status hs.2 bytes]
  exact tabulated_frame bytes s

end Sys2Proof.Proofs
end

section
/-! PROOFS. The statements of 41_tree_builder.md: the tree BUILD makes of a table (R128) and the weights in its queue
(R126). -/

namespace Sys2Proof.Machine

/-! ### The tree BUILD makes -/

/-- A symbol has as many leaves in the built tree as in the queue the combine loop starts with. -/
theorem buildTree_count (freq : Vector Count 256) (y : Sym) :
    (buildTree freq).symbols.count y = (startQueue freq).symbols.count y :=
  (buildTree_symbols freq).count_eq y

/-- A byte value has one leaf when its count is above 0 (41_tree_builder.md R128 b). -/
theorem buildTree_count_byte (freq : Vector Count 256) (b : Byte) :
    (buildTree freq).symbols.count (symOfByte b) = if 0#32 < freq[b.toNat]'b.isLt then 1 else 0 := by
  rw [buildTree_count, startQueue_count]
  exact dif_pos b.isLt

/-- The guard of R124 alone adds a second end-of-block leaf (41_tree_builder.md R128 c). -/
theorem buildTree_count_eob (freq : Vector Count 256) :
    (buildTree freq).symbols.count Config.eob = if ∀ b : Byte, freq[b.toNat]'b.isLt = 0#32 then 2 else 1 := by
  rw [buildTree_count, startQueue_count, dif_neg (by decide)]
  exact if_congr (usedBytes_zero freq) rfl rfl

theorem buildTree_nodes (freq : Vector Count 256) : (buildTree freq).nodes = 2 * startLeaves freq - 1 := by
  rw [CodeTree.nodes_eq, buildTree_leaves]

/-- No leaf of the built tree is the root, and none is deeper than the other leaves allow (41_tree_builder.md R128 f). -/
theorem buildTree_path_length (freq : Vector Count 256) :
    ∀ q ∈ (buildTree freq).paths, 1 ≤ q.1.length ∧ q.1.length ≤ startLeaves freq - 1 := by
  intro q hq
  have hcode : (buildTree freq).isCode q.1 q.2 := (CodeTree.mem_paths _ _ _).mp hq
  refine ⟨CodeTree.isCode_pos (buildTree_isLeaf freq) hcode, ?_⟩
  calc q.1.length ≤ (buildTree freq).depth := CodeTree.path_length_le _ q hq
    _ ≤ (buildTree freq).leaves - 1 := CodeTree.depth_le _
    _ = startLeaves freq - 1 := by rw [buildTree_leaves]

/-! ### The weights in the queue -/

/-- No entry of a queue outweighs all leaves of the queue together. -/
theorem treeWeight_le_total (freq : Vector Count 256) {q : Queue} {e : Entry} (he : e ∈ q.entries) :
    treeWeight freq e.tree ≤ (q.symbols.map (leafWeight freq)).sum := by
  rw [queue_weight]
  exact List.le_sum_of_mem (List.mem_map_of_mem he)

/-- The passes move leaves and add none, so the weight of all leaves stays what it was at the start of the loop. -/
theorem combine_total (freq : Vector Count 256) (n : Nat) (q : Queue) :
    ((combine n q).symbols.map (leafWeight freq)).sum = (q.symbols.map (leafWeight freq)).sum :=
  ((combine_symbols n q).map _).sum_eq

/-- The bound of 41_tree_builder.md R126. -/
theorem combine_treeWeight_le (freq : Vector Count 256) {n : Nat} {e : Entry}
    (he : e ∈ (combine n (startQueue freq)).entries) : treeWeight freq e.tree ≤ 256 * (2 ^ 32 - 1) + 1 :=
  calc treeWeight freq e.tree
    _ ≤ ((combine n (startQueue freq)).symbols.map (leafWeight freq)).sum := treeWeight_le_total freq he
    _ = ((startQueue freq).symbols.map (leafWeight freq)).sum := combine_total freq n _
    _ ≤ 256 * (2 ^ 32 - 1) + 1 := startQueue_total freq

/-- Of two entries of different weights the lighter one comes first, whatever their insertion numbers. -/
theorem before_of_weight_lt {a b : Entry} (h : a.weight.toNat < b.weight.toNat) :
    a.before b = true ∧ b.before a = false := by
  rw [← Bool.not_eq_true, before_iff, before_iff]
  omega

end Sys2Proof.Machine

namespace Sys2Proof.Proofs

open Sys2Proof.Machine

/-- Settles O18: the passes only rearrange the leaves of the start queue, which fixes the symbols of the tree and their
number; the number of leaves fixes that of the nodes and bounds the depth. -/
theorem builtTreeGuarantees : Obligations.BuiltTreeGuarantees := by
  intro freq
  obtain ⟨hlow, hhigh⟩ := startLeaves_range freq
  exact ⟨buildTree_bounded freq, buildTree_isLeaf freq, buildTree_count_byte freq, buildTree_count_eob freq,
    buildTree_leaves freq, buildTree_nodes freq, hlow, hhigh, buildTree_path_length freq⟩

/-- Settles O20: exact weights are kept by every pass (`Weighed`), and an entry holds no more than the leaves the loop
started with. -/
theorem weightsAreExact : Obligations.WeightsAreExact := by
  refine ⟨fun freq n e he => ?_, fun a b h => before_of_weight_lt h⟩
  exact ⟨(combine_weighed freq n).exact e he, combine_treeWeight_le freq he⟩

end Sys2Proof.Proofs
end

section
/-! PROOFS. The statements of 42_code_table_generator.md: the table GENCODES makes (R141), and the lone leaf that GENCODES
and DECBODY refuse (R142, 45_decoder.md R195). -/

namespace Sys2Proof.Machine

/-! ### A primitive command on a ready block -/

/-- A primitive command whose body ends without a fault is finished (30_encoding.md R80). -/
theorem runCommand_primitive_ok {c : Cmd} (hc : c.composite = false) {s u : State} (hs : s.ready)
    {body : State → Res Unit} (h : body (accept c s) = .ok () u) : runCommand c body s = .next (finish u) := by
  rw [runCommand_ready hs, h, unwind_primitive hc, settle_ok]

/-- A primitive command whose body raises a fault takes it with the opcode of the running step (60_exceptions.md R232). -/
theorem runCommand_primitive_raised {c : Cmd} (hc : c.composite = false) {s u : State} (hs : s.ready) {e : FaultKind}
    {body : State → Res Unit} (h : body (accept c s) = .raised e u) :
    runCommand c body s = .next (faultEntry e u.phase.opcode u) := by
  rw [runCommand_ready hs, h, unwind_primitive hc, settle_raised]

/-! ### GENCODES -/

theorem exec_gencodes (s : State) : exec .gencodes s = runCommand .gencodes gencodesBody s := rfl

/-- On a tree with an internal root the body stores the table of the tree (42_code_table_generator.md R140). -/
theorem gencodesBody_internal {s : State} {t : CodeTree} (hv : s.status.treeValid = true) (ht : s.tree = some t)
    (hroot : t.isLeaf = false) : gencodesBody s = .ok () (markCode { dropCode s with code := codesOf t }) := by
  rw [gencodesBody, needTree_some hv ht, hroot, Bool.not_false, require_true, Res.bind_ok]

/-- On a lone leaf the body has cleared `CODE_VALID` and nothing else when it raises LeafRootError
(42_code_table_generator.md R142). -/
theorem gencodesBody_leaf {s : State} {y : Sym} (hv : s.status.treeValid = true) (ht : s.tree = some (.leaf y)) :
    gencodesBody s = .raised .leafRoot (dropCode s) := by
  rw [gencodesBody, needTree_some hv ht, CodeTree.isLeaf, Bool.not_true, require_false, Res.bind_raised]

theorem exec_gencodes_internal {s : State} {t : CodeTree} (hs : s.ready) (hv : s.status.treeValid = true)
    (ht : s.tree = some t) (hroot : t.isLeaf = false) :
    exec .gencodes s = .next (finish (markCode { dropCode (accept .gencodes s) with code := codesOf t })) := by
  rw [exec_gencodes]
  exact runCommand_primitive_ok rfl hs (gencodesBody_internal hv ht hroot)

theorem exec_gencodes_leaf {s : State} {y : Sym} (hs : s.ready) (hv : s.status.treeValid = true)
    (ht : s.tree = some (.leaf y)) :
    exec .gencodes s = .next (faultEntry .leafRoot 0x3#4 (dropCode (accept .gencodes s))) := by
  rw [exec_gencodes]
  exact runCommand_primitive_raised rfl hs (gencodesBody_leaf hv ht)

/-! ### DECBODY on a lone leaf -/

theorem exec_decbody (s : State) : exec .decbody s = runCommand .decbody decbodyBody s := rfl

/-- On a lone leaf LeafRootError comes before `CUR` is set and before the first read (45_decoder.md R195). -/
theorem decbodyBody_leaf {s : State} {y : Sym} (hv : s.status.treeValid = true) (ht : s.tree = some (.leaf y)) :
    decbodyBody s = .raised .leafRoot s := by
  rw [decbodyBody, decbodyInit, needTree_some hv ht, CodeTree.isLeaf, Bool.not_true, require_false, Res.bind_raised,
    Res.bind_raised]

theorem exec_decbody_leaf {s : State} {y : Sym} (hs : s.ready) (hv : s.status.treeValid = true)
    (ht : s.tree = some (.leaf y)) :
    exec .decbody s = .next (faultEntry .leafRoot 0x9#4 (accept .decbody s)) := by
  rw [exec_decbody]
  exact runCommand_primitive_raised rfl hs (decbodyBody_leaf hv ht)

end Sys2Proof.Machine

namespace Sys2Proof.Proofs

open Sys2Proof.Machine

/-- Settles O23: on a tree with an internal root GENCODES ends with the table of the tree, and an entry of that table is
the last path to its symbol (`codesOf_get`). -/
theorem gencodesTabulatesPaths : Obligations.GencodesTabulatesPaths := by
  intro s t hs hv ht hroot
  exact ⟨_, exec_gencodes_internal hs hv ht hroot, codesOf_get t, rfl⟩

/-- Settles O25: the check of the root fails in both commands before any stream is touched; GENCODES has dropped
`CODE_VALID` by then, DECBODY has changed nothing. -/
theorem loneLeafIsRefused : Obligations.LoneLeafIsRefused := by
  intro s y hs hv ht
  exact ⟨exec_gencodes_leaf hs hv ht, exec_decbody_leaf hs hv ht⟩

end Sys2Proof.Proofs
end

section
/-! PROOFS. Two statements of 43_tree_codec.md: RDTREE ends with the one tree whose header stands ahead or with a header
fault (R158), and the header WRTREE appends describes its tree (R161). -/

namespace Sys2Proof.Machine

variable {α β : Type}

/-! ### The serializer -/

theorem exec_wrtree (s : State) : exec .wrtree s = runCommand .wrtree wrtreeBody s := rfl

/-- The first write of a header is refused while the output is not open (20_memory.md R69). -/
theorem writeTree_refused {s : State} (h : s.out.isOpen = false) (t : CodeTree) :
    writeTree t s = .refused .outputNotOpen := by
  cases t with
  | leaf y => rw [writeTree, outWrite_refused h, Res.bind_refused]
  | node l r => rw [writeTree, outWrite_refused h, Res.bind_refused]

/-- With a valid tree a next state of WRTREE has the header appended; without an open output there is none
(43_tree_codec.md R151). -/
theorem exec_wrtree_next {s t : State} {tree : CodeTree} (hs : s.ready) (hv : s.status.treeValid = true)
    (htree : s.tree = some tree) (h : exec .wrtree s = .next t) :
    t = finish (append (encTree tree) (accept .wrtree s)) := by
  have hbody : wrtreeBody (accept .wrtree s) = writeTree tree (accept .wrtree s) :=
    needTree_some (s := accept .wrtree s) hv htree writeTree
  rw [exec_wrtree] at h
  cases ho : s.out.isOpen with
  | false =>
    rw [runCommand_ready hs, hbody, writeTree_refused (s := accept .wrtree s) ho, unwind_refused, settle_refused] at h
    cases h
  | true =>
    have hend := runCommand_primitive_ok rfl hs (hbody.trans (writeTree_eq tree (s := accept .wrtree s) ho))
    rw [hend] at h
    exact (Host.Outcome.next.inj h).symm

/-! ### What the header reader changes -/

/-- The state with the count and the position a header reader may have come to. -/
def readTo (n : Ctr10) (p : Nat) (s : State) : State := { s with nnode := n, inp := { s.inp with pos := p } }

/-- Reading a header changes `NNODE` and `IN.pos` alone (43_tree_codec.md R154). -/
def HeaderStep (s t : State) : Prop := ∃ n p, t = readTo n p s

theorem HeaderStep.refl (s : State) : HeaderStep s s := ⟨s.nnode, s.inp.pos, rfl⟩

theorem HeaderStep.trans (s t u : State) (h : HeaderStep s t) (k : HeaderStep t u) : HeaderStep s u := by
  obtain ⟨_, _, rfl⟩ := h
  obtain ⟨n, p, rfl⟩ := k
  exact ⟨n, p, rfl⟩

/-- Pieces of work that each change no more than a header reader do so one after the other. -/
theorem headerStep_bind {s : State} {r : Res α} {k : α → State → Res β} (h : r.within HeaderStep s)
    (hk : ∀ a t, (k a t).within HeaderStep t) : (r.bind k).within HeaderStep s :=
  Res.within_bind HeaderStep.trans h fun a t _ => hk a t

theorem inRead_headerStep (w : Nat) (s : State) : (inRead w s).within HeaderStep s := by
  obtain ⟨-, h⟩ | ⟨-, -, v, h⟩ | ⟨-, -, h⟩ := inRead_cases w s <;> rw [h]
  · trivial
  · exact ⟨s.nnode, s.inp.pos + w, rfl⟩
  · exact ⟨s.nnode, s.inp.bits.length, rfl⟩

theorem takeMarker_headerStep (s : State) : (takeMarker s).within HeaderStep s := by
  refine headerStep_bind (inRead_headerStep 1 s) fun m t => ?_
  cases m with
  | none => exact .refl t
  | some m =>
    by_cases hc : t.nnode.toNat = Config.nodeCap
    · simp only [hc, if_true]
      exact .refl t
    · simp only [hc, if_false]
      exact ⟨t.nnode + 1#10, t.inp.pos, rfl⟩

theorem takeField_headerStep (s : State) : (takeField s).within HeaderStep s := by
  refine headerStep_bind (inRead_headerStep 9 s) fun f t => ?_
  cases f with
  | none => exact .refl t
  | some f => exact .refl t

theorem checkField_headerStep (f : BitVec 9) (s : State) : (checkField f s).within HeaderStep s := by
  obtain ⟨-, h⟩ | ⟨y, -, h⟩ := checkField_cases f s <;> rw [h] <;> exact .refl s

theorem readNode_headerStep (s : State) : (readNode s).within HeaderStep s := by
  refine headerStep_bind (takeMarker_headerStep s) fun m t => ?_
  split
  · exact headerStep_bind (takeField_headerStep t) fun f u =>
      headerStep_bind (checkField_headerStep f u) fun _ v => .refl v
  · exact .refl t

theorem readTree_headerStep (n : Nat) (s : State) : (readTree n s).within HeaderStep s := by
  induction n generalizing s with
  | zero => exact headerStep_bind (readNode_headerStep s) fun _ t => .refl t
  | succ n ih =>
    refine headerStep_bind (readNode_headerStep s) fun k t => ?_
    cases k with
    | leaf y => exact .refl t
    | internal => exact headerStep_bind (ih t) fun _ u => headerStep_bind (ih u) fun _ v => .refl v

/-! ### RDTREE -/

theorem exec_rdtree (s : State) : exec .rdtree s = runCommand .rdtree rdtreeBody s := rfl

/-- Where RDTREE starts to read. -/
def rdtreeStart (s : State) : State := rdtreeInit (accept .rdtree s)

/-- Where RDTREE ends when it has read the tree (43_tree_codec.md R158). -/
def rdtreeDone (t : CodeTree) (s : State) : State :=
  finish (putTree t (tally t.nodes (advance (encTree t).length (rdtreeStart s))))

theorem rdtreeDone_ahead (t : CodeTree) (s : State) : (rdtreeDone t s).ahead = s.ahead.drop (encTree t).length :=
  ahead_advance (encTree t).length s

/-- A tree read from the header is stored and ends the command. -/
theorem exec_rdtree_done {s : State} {t : CodeTree} (hs : s.ready)
    (h : readTree Config.nodeCap (rdtreeStart s) =
      .ok t (tally t.nodes (advance (encTree t).length (rdtreeStart s)))) :
    exec .rdtree s = .next (rdtreeDone t s) := by
  have hbody : rdtreeBody (accept .rdtree s) =
      .ok () (putTree t (tally t.nodes (advance (encTree t).length (rdtreeStart s)))) := by
    rw [rdtreeBody, ← rdtreeStart, h, Res.bind_ok]
  rw [exec_rdtree]
  exact runCommand_primitive_ok rfl hs hbody

/-- A fault in the header ends the command with what the reader has changed and the opcode of RDTREE. -/
theorem exec_rdtree_raised {s u : State} {e : FaultKind} (hs : s.ready)
    (h : readTree Config.nodeCap (rdtreeStart s) = .raised e u) :
    ∃ n p, exec .rdtree s = .next (faultEntry e 0x8#4 (readTo n p (rdtreeStart s))) := by
  have hstep := readTree_headerStep Config.nodeCap (rdtreeStart s)
  rw [h] at hstep
  obtain ⟨n, p, rfl⟩ : HeaderStep (rdtreeStart s) u := hstep
  have hbody : rdtreeBody (accept .rdtree s) = .raised e (readTo n p (rdtreeStart s)) := by
    rw [rdtreeBody, ← rdtreeStart, h, Res.bind_raised]
  rw [exec_rdtree]
  exact ⟨n, p, runCommand_primitive_raised rfl hs hbody⟩

/-- Everything RDTREE can come to on a ready block with an open input (43_tree_codec.md R158). -/
theorem exec_rdtree_cases {s : State} (hs : s.ready) (ho : s.inp.isOpen = true) :
    (∃ t, t.bounded ∧ encTree t <+: s.ahead ∧ exec .rdtree s = .next (rdtreeDone t s)) ∨
      ∃ e n p, e.ofHeader ∧ exec .rdtree s = .next (faultEntry e 0x8#4 (readTo n p (rdtreeStart s))) := by
  have hzero : (rdtreeStart s).nnode.toNat = 0 := rfl
  obtain ⟨e, u, hr, he⟩ | ⟨t, rest, hahead, hn, hr⟩ :=
    readTree_cases Config.nodeCap (s := rdtreeStart s) ho (Nat.zero_le _)
  · obtain ⟨n, p, hend⟩ := exec_rdtree_raised hs hr
    exact .inr ⟨e, n, p, he, hend⟩
  · have hb : t.bounded := by rwa [hzero, Nat.zero_add] at hn
    exact .inl ⟨t, hb, ⟨rest, hahead.symm⟩, exec_rdtree_done hs hr⟩

/-- RDTREE on the header of a tree of at most 513 nodes reads that tree (43_tree_codec.md R158, R160). -/
theorem exec_rdtree_header {s : State} {t : CodeTree} {after : BitString} (hs : s.ready) (ho : s.inp.isOpen = true)
    (hb : t.bounded) (h : s.ahead = encTree t ++ after) : exec .rdtree s = .next (rdtreeDone t s) := by
  have hdepth : t.depth < Config.nodeCap := (CodeTree.depth_bounded hb).trans_lt (by decide)
  have hnodes : (rdtreeStart s).nnode.toNat + t.nodes ≤ Config.nodeCap := (Nat.zero_add t.nodes).trans_le hb
  exact exec_rdtree_done hs (readTree_eq t Config.nodeCap (s := rdtreeStart s) ho hdepth hnodes h)

/-- At most one tree has its header at the front of a bit string (43_tree_codec.md R160). -/
theorem CodeTree.eq_of_encTree_prefix {t u : CodeTree} {b : BitString} (ht : encTree t <+: b) (hu : encTree u <+: b) :
    t = u := by
  obtain ⟨x, hx⟩ := ht
  obtain ⟨y, hy⟩ := hu
  exact (CodeTree.encTree_unique t u x y (hx.trans hy.symm)).1

/-- The codes of the header faults (60_exceptions.md R220). -/
theorem FaultKind.code_of_ofHeader {e : FaultKind} (h : e.ofHeader) :
    e.code = 2#4 ∨ e.code = 4#4 ∨ e.code = 5#4 := by
  obtain rfl | rfl | rfl := h
  · exact .inl rfl
  · exact .inr (.inl rfl)
  · exact .inr (.inr rfl)

end Sys2Proof.Machine

namespace Sys2Proof.Proofs

open Sys2Proof.Machine

/-- Settles O37: by the cases of RDTREE; the tree is the only one because a header has one reading, and on a fault the
reader has moved the count and the position alone, after the tree was dropped. -/
theorem rdtreeEndsWithTreeOrFault : Obligations.RdtreeEndsWithTreeOrFault := by
  intro s hs ho
  obtain ⟨t, hb, hprefix, hend⟩ | ⟨e, n, p, he, hend⟩ := exec_rdtree_cases hs ho
  · refine ⟨rdtreeDone t s, hend, rfl, rfl, .inl ⟨t, rfl, hb, hprefix, fun t' h => ?_, rfl, rfl, hs.2, rfl, rfl⟩⟩
    exact CodeTree.eq_of_encTree_prefix h hprefix
  · exact ⟨_, hend, rfl, rfl, .inr ⟨rfl, rfl, rfl, rfl, FaultKind.code_of_ofHeader he⟩⟩

/-- Settles O38: WRTREE ends only with the header appended, and RDTREE reads the tree of that header. -/
theorem headerDescribesItsTree : Obligations.HeaderDescribesItsTree := by
  intro s t u tree after hs hv htree hb hwr hu ho hahead
  have ht := exec_wrtree_next hs hv htree hwr
  have hheader : t.out.bits.drop s.out.bits.length = encTree tree := by
    rw [ht]
    exact List.drop_left
  rw [hheader] at hahead
  refine ⟨rdtreeDone tree u, exec_rdtree_header hu ho hb hahead, rfl, rfl, hu.2, ?_⟩
  rw [rdtreeDone_ahead, hahead, List.drop_left]

end Sys2Proof.Proofs
end

section
/-! PROOFS. Statements of 44_encoder.md: what WRMAGIC (R170) and ENCBODY (R174) append, and the stream COMPRESS writes
(R180). -/

namespace Sys2Proof.Machine

/-! ### WRMAGIC -/

/-- The magic appended to `OUT` (44_encoder.md R170). -/
def withMagic (s : State) : State := append (bitsOf 32 Config.magic.toNat) s

theorem exec_wrmagic (s : State) : exec .wrmagic s = runCommand .wrmagic wrmagicBody s := rfl

theorem wrmagicBody_open {s : State} (ho : s.out.isOpen = true) : wrmagicBody s = .ok () (withMagic s) :=
  outWrite_open ho

theorem exec_wrmagic_open {s : State} (hs : s.ready) (ho : s.out.isOpen = true) :
    exec .wrmagic s = .next (finish (withMagic (accept .wrmagic s))) := by
  rw [exec_wrmagic]
  exact runCommand_primitive_ok rfl hs (wrmagicBody_open (s := accept .wrmagic s) ho)

/-! ### ENCBODY -/

/-- The state once the codes of the bytes ahead and the end-of-block code are written (44_encoder.md R174). -/
def encoded (bytes : List Byte) (s : State) : State :=
  append (codeIn s.code Config.eob) (append (codesIn s.code bytes) (toEnd s))

theorem exec_encbody (s : State) : exec .encbody s = runCommand .encbody encbodyBody s := rfl

/-- ENCBODY where no code is missing: the byte loop, then the end-of-block code (44_encoder.md R173, R174). -/
theorem encbodyBody_coded {s : State} {bytes : List Byte} {tail : BitString} (hi : s.inp.isOpen = true)
    (ho : s.out.isOpen = true) (hv : s.status.codeValid = true) (h : s.ahead = bitsOfBytes bytes ++ tail)
    (ht : tail.length < 8) (hb : ∀ b ∈ bytes, codeAt s (symOfByte b) ≠ none) (he : codeAt s Config.eob ≠ none) :
    encbodyBody s = .ok () (encoded bytes s) := by
  have hloop : eachByte (fun b s => emitSymbol (symOfByte b) s) (readFuel s) s =
      .ok () (append (codesIn s.code bytes) (toEnd s)) := by
    rw [eachByte_eq _ (fun b => emitSymbol_inp (symOfByte b)) bytes tail ht _ s hi h (bytes_lt_readFuel h),
      overBytes_emit bytes ho hb]
  rw [encbodyBody, hv, require_true, Res.bind_ok, hloop, Res.bind_ok]
  exact emitSymbol_some (s := append (codesIn s.code bytes) (toEnd s)) ho he

theorem exec_encbody_coded {s : State} {bytes : List Byte} {tail : BitString} (hs : s.ready) (hi : s.inp.isOpen = true)
    (ho : s.out.isOpen = true) (hv : s.status.codeValid = true) (h : s.ahead = bitsOfBytes bytes ++ tail)
    (ht : tail.length < 8) (hb : ∀ b ∈ bytes, codeAt s (symOfByte b) ≠ none) (he : codeAt s Config.eob ≠ none) :
    exec .encbody s = .next (finish (encoded bytes (accept .encbody s))) := by
  rw [exec_encbody]
  exact runCommand_primitive_ok rfl hs (encbodyBody_coded (s := accept .encbody s) hi ho hv h ht hb he)

/-! ### The other steps of COMPRESS -/

/-- The table COUNT makes is the table of counts (40_frequency_counter.md R113). -/
theorem countInto_zero (bytes : List Byte) : countInto (Vector.replicate 256 0#32) bytes = countsOf bytes := by
  apply Vector.ext
  intro i hi
  have hbyte : (BitVec.ofNat 8 i).toNat = i := Nat.mod_eq_of_lt hi
  have hcount := countInto_toNat (Vector.replicate 256 0#32) bytes (BitVec.ofNat 8 i)
  simp only [hbyte, Vector.getElem_replicate, BitVec.toNat_ofNat, Nat.zero_mod, Nat.zero_add] at hcount
  apply BitVec.eq_of_toNat_eq
  rw [hcount, countsOf, Vector.getElem_ofFn, BitVec.toNat_ofNat]
  exact (Nat.mod_eq_of_lt ((Nat.min_le_right _ _).trans_lt (by decide))).symm

/-- The table of counts is above 0 exactly at the bytes counted (40_frequency_counter.md R113). -/
theorem countsOf_pos (bytes : List Byte) (b : Byte) : 0#32 < (countsOf bytes)[b.toNat]'b.isLt ↔ b ∈ bytes := by
  have htable : freqAt (tabulated bytes State.reset) b = (countsOf bytes)[b.toNat]'b.isLt := by
    rw [← countInto_zero, freqAt]
    rfl
  rw [← htable, freqAt_tabulated_pos]

/-- The tree of a table stored by BUILD (41_tree_builder.md R120). -/
def built (s : State) : State :=
  putTree (buildTree s.freq) { dropTree s with pq := [], seq := (endQueue s.freq).seq }

theorem buildBody_valid {s : State} (hv : s.status.freqValid = true) : buildBody s = .ok () (built s) := by
  rw [buildBody, hv, require_true, Res.bind_ok, built]

theorem wrtreeBody_valid {s : State} {t : CodeTree} (ho : s.out.isOpen = true) (hv : s.status.treeValid = true)
    (ht : s.tree = some t) : wrtreeBody s = .ok () (append (encTree t) s) := by
  rw [wrtreeBody, needTree_some hv ht, writeTree_eq t ho]

/-- `IN.pos <- 0` (20_memory.md R56). -/
def rewound (s : State) : State := { s with inp := { s.inp with pos := 0 } }

theorem inRewind_open {s : State} (hi : s.inp.isOpen = true) : inRewind s = .ok () (rewound s) := if_pos hi

/-- A step that ends without a fault is followed by the rest of the sequence (44_encoder.md R178). -/
theorem runSteps_cons {c p : Cmd} {ps : List Cmd} {s u : State} (h : primitiveBody p (atStep c p s) = .ok () u) :
    runSteps c (p :: ps) s = runSteps c ps u := by
  rw [runSteps, h, Res.bind_ok]

/-! ### The symbols COMPRESS encodes -/

/-- Every byte counted has a leaf in the built tree, so COMPRESS never meets a missing code (44_encoder.md R181). -/
theorem byte_mem_buildTree {bytes : List Byte} {b : Byte} (hb : b ∈ bytes) :
    symOfByte b ∈ (buildTree (countsOf bytes)).symbols := by
  rw [← List.count_pos_iff, buildTree_count_byte, if_pos ((countsOf_pos bytes b).mpr hb)]
  exact Nat.one_pos

/-- Every built tree has a leaf for the end of the block (41_tree_builder.md R128 c). -/
theorem eob_mem_buildTree (freq : Vector Count 256) : Config.eob ∈ (buildTree freq).symbols := by
  rw [← List.count_pos_iff, buildTree_count_eob]
  split <;> decide

/-! ### COMPRESS -/

/-- The state of a compression after its first pass has made the table `freq`: the tree and its codes are there, and
nothing is written (44_encoder.md R178). -/
def tabled (freq : Vector Count 256) (s : State) : State :=
  { toEnd s with
    freq := freq, tree := some (buildTree freq), code := codesOf (buildTree freq)
    pq := [], seq := (endQueue freq).seq, phase := .run .compress .gencodes
    status := { s.status with freqValid := true, treeValid := true, codeValid := true } }

/-- COUNT, BUILD and GENCODES in the sequence of COMPRESS. -/
theorem runSteps_tables {s : State} {bytes : List Byte} {tail : BitString} (ps : List Cmd) (hi : s.inp.isOpen = true)
    (h : s.ahead = bitsOfBytes bytes ++ tail) (ht : tail.length < 8) :
    runSteps .compress (.count :: .build :: .gencodes :: ps) s = runSteps .compress ps (tabled (countsOf bytes) s) := by
  have hcount := countBody_eq (s := atStep .compress .count s) hi h ht
  rw [countInto_zero] at hcount
  -- only the name of the table matters from here on; with a variable for it the checks by `rfl` compute no count
  generalize countsOf bytes = freq at hcount ⊢
  rw [runSteps_cons (p := .count) hcount, runSteps_cons (p := .build) (buildBody_valid rfl),
    runSteps_cons (p := .gencodes) (gencodesBody_internal rfl rfl (buildTree_isLeaf _))]
  rfl

/-- The state of a compression with the magic and the header written and the input rewound (44_encoder.md R178). -/
def headed (t : CodeTree) (s : State) : State :=
  rewound (atStep .compress .rewind
    (append (encTree t) (atStep .compress .wrtree (withMagic (atStep .compress .wrmagic s)))))

/-- WRMAGIC, WRTREE and REWIND in the sequence of COMPRESS. -/
theorem runSteps_header {s : State} {t : CodeTree} (ps : List Cmd) (hi : s.inp.isOpen = true)
    (ho : s.out.isOpen = true) (hv : s.status.treeValid = true) (ht : s.tree = some t) :
    runSteps .compress (.wrmagic :: .wrtree :: .rewind :: ps) s = runSteps .compress ps (headed t s) :=
  calc runSteps .compress (.wrmagic :: .wrtree :: .rewind :: ps) s
    _ = runSteps .compress (.wrtree :: .rewind :: ps) (withMagic (atStep .compress .wrmagic s)) :=
      runSteps_cons (wrmagicBody_open ho)
    _ = runSteps .compress (.rewind :: ps)
          (append (encTree t) (atStep .compress .wrtree (withMagic (atStep .compress .wrmagic s)))) :=
      runSteps_cons (wrtreeBody_valid ho hv ht)
    _ = runSteps .compress ps (headed t s) := runSteps_cons (inRewind_open hi)

/-- The state of a compression of `bytes` under the table `freq` before CLOSE: the whole stream but its pad is written
(44_encoder.md R180). -/
def streamed (freq : Vector Count 256) (bytes : List Byte) (s : State) : State :=
  encoded bytes (atStep .compress .encbody (headed (buildTree freq) (tabled freq s)))

/-- The steps of COMPRESS after its first pass, on bytes that all have a code (44_encoder.md R180). -/
theorem runSteps_stream {s : State} {freq : Vector Count 256} {bytes : List Byte} (hi : s.inp.isOpen = true)
    (ho : s.out.isOpen = true) (hbits : s.inp.bits = bitsOfBytes bytes)
    (hmem : ∀ b ∈ bytes, symOfByte b ∈ (buildTree freq).symbols) :
    runSteps .compress [.wrmagic, .wrtree, .rewind, .encbody, .close] (tabled freq s) =
      .ok () (closedStreams (atStep .compress .close (streamed freq bytes s))) := by
  have hbody : encbodyBody (atStep .compress .encbody (headed (buildTree freq) (tabled freq s))) =
      .ok () (streamed freq bytes s) :=
    encbodyBody_coded hi ho rfl (hbits.trans (List.append_nil _).symm) (by decide)
      (fun b hb => (codesOf_ne_none _ _).mpr (hmem b hb)) ((codesOf_ne_none _ _).mpr (eob_mem_buildTree freq))
  calc runSteps .compress [.wrmagic, .wrtree, .rewind, .encbody, .close] (tabled freq s)
    _ = runSteps .compress [.encbody, .close] (headed (buildTree freq) (tabled freq s)) :=
      runSteps_header _ hi ho rfl rfl
    _ = runSteps .compress [.close] (streamed freq bytes s) := runSteps_cons hbody
    _ = .ok () (closedStreams (atStep .compress .close (streamed freq bytes s))) :=
      runSteps_cons (closeStreams_open ho)

/-- The steps of COMPRESS on a fresh input never fault (44_encoder.md R180, R181). -/
theorem runSteps_compress {s : State} {bytes : List Byte}
    (hinp : s.inp = { bits := bitsOfBytes bytes, pos := 0, isOpen := true }) (ho : s.out.isOpen = true) :
    runSteps .compress (stepsOf .compress) s =
      .ok () (closedStreams (atStep .compress .close (streamed (countsOf bytes) bytes s))) := by
  have hi : s.inp.isOpen = true := by rw [hinp]
  have hbits : s.inp.bits = bitsOfBytes bytes := by rw [hinp]
  have hahead : s.ahead = bitsOfBytes bytes ++ [] := by rw [State.ahead, hinp, List.drop_zero, List.append_nil]
  rw [stepsOf, runSteps_tables _ hi hahead (by decide)]
  exact runSteps_stream hi ho hbits fun _ hb => byte_mem_buildTree hb

/-- The state COMPRESS ends in (44_encoder.md R180). -/
def compressed (freq : Vector Count 256) (bytes : List Byte) (s : State) : State :=
  finish (cleardata (closedStreams
    (atStep .compress .close (streamed freq bytes (cleardata (accept .compress s))))))

theorem exec_compress (s : State) : exec .compress s =
    runCommand .compress (fun s => runSteps .compress (stepsOf .compress) (cleardata s)) s := rfl

theorem exec_compress_fresh {s : State} {bytes : List Byte} (hs : s.ready)
    (hinp : s.inp = { bits := bitsOfBytes bytes, pos := 0, isOpen := true }) (ho : s.out.isOpen = true) :
    exec .compress s = .next (compressed (countsOf bytes) bytes s) := by
  have hsteps := runSteps_compress (s := cleardata (accept .compress s)) hinp ho
  rw [exec_compress, runCommand_ready hs, hsteps, unwind_composite_ok rfl, settle_ok, compressed]

theorem compressed_inp {s : State} {freq : Vector Count 256} {bytes : List Byte}
    (hinp : s.inp = { bits := bitsOfBytes bytes, pos := 0, isOpen := true }) :
    (compressed freq bytes s).inp =
      { bits := bitsOfBytes bytes, pos := (bitsOfBytes bytes).length, isOpen := false } := by
  have h : (compressed freq bytes s).inp = { s.inp with pos := s.inp.bits.length, isOpen := false } := rfl
  rw [h, hinp]

theorem compressed_status {s : State} (he : s.status.err = false) (freq : Vector Count 256) (bytes : List Byte) :
    (compressed freq bytes s).status =
      { busy := false, done := true, err := false, freqValid := false, treeValid := false, codeValid := false } := by
  have h : (compressed freq bytes s).status =
      { busy := false, done := true, err := s.status.err, freqValid := false, treeValid := false
        codeValid := false } := rfl
  rw [h, he]

/-- The stream COMPRESS makes of `bytes` under the table `freq`, without its pad, after the bits `out` (44_encoder.md
R180). -/
def streamAfter (out : BitString) (freq : Vector Count 256) (bytes : List Byte) : BitString :=
  out ++ bitsOf 32 Config.magic.toNat ++ encTree (buildTree freq) ++ codesIn (codesOf (buildTree freq)) bytes ++
    codeIn (codesOf (buildTree freq)) Config.eob

/-- The pad of that stream (20_memory.md R57). -/
def streamPad (s : State) (freq : Vector Count 256) (bytes : List Byte) : BitString :=
  padBits s.draws (padLength (streamAfter s.out.bits freq bytes).length)

theorem streamPad_length_le (s : State) (freq : Vector Count 256) (bytes : List Byte) :
    (streamPad s freq bytes).length ≤ 7 := by
  rw [streamPad, padBits_length]
  exact padLength_lt _

theorem streamPad_fills (s : State) (freq : Vector Count 256) (bytes : List Byte) :
    (streamAfter s.out.bits freq bytes ++ streamPad s freq bytes).length % 8 = 0 := by
  rw [List.length_append, streamPad, padBits_length, padLength_fills]

theorem compressed_out (freq : Vector Count 256) (bytes : List Byte) (s : State) :
    (compressed freq bytes s).out =
      { s.out with closed := true, bits := streamAfter s.out.bits freq bytes ++ streamPad s freq bytes } := rfl

/-- COMPRESS leaves the port, the error record and the form of the output as they were, and the tables cleared
(44_encoder.md R180). -/
theorem compressed_frame (freq : Vector Count 256) (bytes : List Byte) (s : State) :
    compressed freq bytes s =
      { s with
        cur := (compressed freq bytes s).cur, freq := Vector.replicate 256 0#32, tree := none
        code := Vector.replicate 257 none, pq := [], seq := 0#10, nnode := 0#10, phase := .idle, stack := []
        draws := s.draws + 1, inp := (compressed freq bytes s).inp, out := (compressed freq bytes s).out
        status := (compressed freq bytes s).status } := rfl

end Sys2Proof.Machine

namespace Sys2Proof.Proofs

open Sys2Proof.Machine

/-- Settles O39: an open output takes the 32 bits, and the command ends without a fault. -/
theorem wrmagicAppendsMagic : Obligations.WrmagicAppendsMagic := by
  intro s hs ho
  exact exec_wrmagic_open hs ho

/-- Settles O40: the byte loop appends the code of every byte ahead and comes to the end of the input, where the
end-of-block code follows. -/
theorem encbodyAppendsCodes : Obligations.EncbodyAppendsCodes := by
  intro s bytes tail hs hi ho hv h ht hb he
  exact exec_encbody_coded hs hi ho hv h ht hb he

/-- Settles O42: the first pass gives every byte and the end of the block a code, so each step of the sequence ends
without a fault; the end clears the tables. -/
theorem compressWritesStream : Obligations.CompressWritesStream := by
  intro s bytes hs hinp ho
  have hend := exec_compress_fresh hs hinp ho
  generalize countsOf bytes = freq at hend ⊢
  refine ⟨streamPad s freq bytes, streamPad_length_le s freq bytes, streamPad_fills s freq bytes, _, hend, ?_⟩
  refine (compressed_frame freq bytes s).trans ?_
  rw [compressed_inp hinp, compressed_status hs.2 freq bytes, compressed_out]
  rfl

end Sys2Proof.Proofs
end

section
/-! PROOFS. Statements of 45_decoder.md: how RDMAGIC ends (R190, R191), and the round trip of COMPRESS and DECOMPRESS
(R200). -/

namespace Sys2Proof.Machine

/-! ### RDMAGIC -/

theorem exec_rdmagic (s : State) : exec .rdmagic s = runCommand .rdmagic rdmagicBody s := rfl

theorem rdmagicBody_magic {s : State} {after : BitString} (hi : s.inp.isOpen = true)
    (h : s.ahead = bitsOf 32 Config.magic.toNat ++ after) : rdmagicBody s = .ok () (advance 32 s) := by
  rw [rdmagicBody, inRead_bitsOf hi (by decide) h, Res.bind_ok, checkMagic, if_pos rfl]

theorem rdmagicBody_other {s : State} {m : BitVec 32} {after : BitString} (hi : s.inp.isOpen = true)
    (hm : m ≠ Config.magic) (h : s.ahead = bitsOf 32 m.toNat ++ after) :
    rdmagicBody s = .raised .badMagic (advance 32 s) := by
  have hne : some m ≠ some Config.magic := fun heq => hm (Option.some.inj heq)
  rw [rdmagicBody, inRead_bitsOf hi (by decide) h, Res.bind_ok, checkMagic, if_neg hne]

/-- Fewer than 32 bits are no magic either, so `EOI` is BadMagicError (45_decoder.md R191). -/
theorem rdmagicBody_short {s : State} (hi : s.inp.isOpen = true) (h : s.ahead.length < 32) :
    rdmagicBody s = .raised .badMagic (toEnd s) := by
  rw [rdmagicBody, inRead_none hi h, Res.bind_ok, checkMagic, if_neg (Option.some_ne_none _).symm]

/-! ### The other steps of DECOMPRESS -/

/-- The state once RDTREE has read the header of `t` (43_tree_codec.md R158). -/
def headerRead (t : CodeTree) (s : State) : State :=
  putTree t (tally t.nodes (advance (encTree t).length (rdtreeInit s)))

theorem headerRead_ahead (t : CodeTree) (s : State) : (headerRead t s).ahead = s.ahead.drop (encTree t).length :=
  ahead_advance (encTree t).length s

theorem rdtreeBody_header {s : State} {t : CodeTree} {after : BitString} (hi : s.inp.isOpen = true) (hb : t.bounded)
    (h : s.ahead = encTree t ++ after) : rdtreeBody s = .ok () (headerRead t s) := by
  have hdepth : t.depth < Config.nodeCap := (CodeTree.depth_bounded hb).trans_lt (by decide)
  have hnodes : (rdtreeInit s).nnode.toNat + t.nodes ≤ Config.nodeCap := (Nat.zero_add t.nodes).trans_le hb
  rw [rdtreeBody, readTree_eq t Config.nodeCap (s := rdtreeInit s) hi hdepth hnodes h, Res.bind_ok, headerRead]

/-- On a tree with an internal root DECBODY starts its loop at the root (45_decoder.md R193). -/
theorem decbodyBody_internal {s : State} {t : CodeTree} (hv : s.status.treeValid = true) (ht : s.tree = some t)
    (hroot : t.isLeaf = false) : decbodyBody s = decodeLoop t (readFuel s) (point t s) := by
  rw [decbodyBody, decbodyInit, needTree_some hv ht, hroot, Bool.not_false, require_true, Res.bind_ok, Res.bind_ok]
  rfl

/-- The state once DECBODY has read the codes of `items` and the end-of-block code `e` (45_decoder.md R196, R197). -/
def bodyRead (items : List (BitString × Byte)) (e : BitString) (s : State) : State :=
  point (.leaf Config.eob)
    (advance e.length (append (bitsOfBytes (items.map (·.2))) (advance (items.flatMap (·.1)).length s)))

/-- DECBODY on codes ended by an end-of-block code: the loop takes one pass for each bit of them, and the fuel is more
than the bits ahead (45_decoder.md R196, R197). -/
theorem decbodyBody_codes {s : State} {t : CodeTree} {items : List (BitString × Byte)} {e after : BitString}
    (hi : s.inp.isOpen = true) (ho : s.out.isOpen = true) (hv : s.status.treeValid = true) (ht : s.tree = some t)
    (hroot : t.isLeaf = false) (hitems : ∀ q ∈ items, t.isCode q.1 (symOfByte q.2)) (he : t.isCode e Config.eob)
    (h : s.ahead = items.flatMap (·.1) ++ (e ++ after)) : decbodyBody s = .ok () (bodyRead items e s) := by
  obtain ⟨n, hn⟩ : ∃ n, readFuel s = n + e.length + (items.flatMap (·.1)).length := by
    have hlt := ahead_lt_readFuel s
    rw [h, List.length_append, List.length_append] at hlt
    exact ⟨readFuel s - e.length - (items.flatMap (·.1)).length, by omega⟩
  rw [decbodyBody_internal hv ht hroot, hn,
    decodeLoop_items t hroot _ items (e ++ after) (s := point t s) hi ho rfl hitems h]
  have hahead : (append (bitsOfBytes (items.map (·.2))) (advance (items.flatMap (·.1)).length (point t s))).ahead =
      e ++ after := by
    rw [append_ahead, ahead_advance, point_ahead, h, List.drop_left]
  rw [decodeLoop_code t n e after Config.eob (s := append _ (advance _ (point t s))) hi hroot he hahead,
    if_pos rfl]
  rfl

/-! ### DECOMPRESS -/

/-- The state of a decompression before DECBODY: the magic and the header are read (45_decoder.md R198). -/
def opened (t : CodeTree) (s : State) : State :=
  headerRead t (atStep .decompress .rdtree (advance 32 (atStep .decompress .rdmagic s)))

/-- RDMAGIC and RDTREE in the sequence of DECOMPRESS. -/
theorem runSteps_opening {s : State} {t : CodeTree} {after : BitString} (ps : List Cmd) (hi : s.inp.isOpen = true)
    (hb : t.bounded) (h : s.ahead = bitsOf 32 Config.magic.toNat ++ (encTree t ++ after)) :
    runSteps .decompress (.rdmagic :: .rdtree :: ps) s = runSteps .decompress ps (opened t s) := by
  have hheader : (advance 32 s).ahead = encTree t ++ after := by
    rw [ahead_advance, h, List.drop_left' (bitsOf_length 32 _)]
  calc runSteps .decompress (.rdmagic :: .rdtree :: ps) s
    _ = runSteps .decompress (.rdtree :: ps) (advance 32 (atStep .decompress .rdmagic s)) :=
      runSteps_cons (rdmagicBody_magic hi h)
    _ = runSteps .decompress ps (opened t s) := runSteps_cons (rdtreeBody_header hi hb hheader)

theorem opened_ahead {s : State} {t : CodeTree} {after : BitString}
    (h : s.ahead = bitsOf 32 Config.magic.toNat ++ (encTree t ++ after)) : (opened t s).ahead = after := by
  have hmagic :
      (atStep .decompress .rdtree (advance 32 (atStep .decompress .rdmagic s))).ahead = s.ahead.drop 32 :=
    ahead_advance 32 s
  rw [opened, headerRead_ahead, hmagic, h, List.drop_left' (bitsOf_length 32 _), List.drop_left]

/-- The state of a decompression before CLOSE: the bytes of `items` are written (45_decoder.md R198). -/
def unpacked (t : CodeTree) (items : List (BitString × Byte)) (e : BitString) (s : State) : State :=
  bodyRead items e (atStep .decompress .decbody (opened t s))

theorem unpacked_out (t : CodeTree) (items : List (BitString × Byte)) (e : BitString) (s : State) :
    (unpacked t items e s).out = (append (bitsOfBytes (items.map (·.2))) s).out := rfl

/-- The steps of DECOMPRESS on a stream in the wire format (45_decoder.md R198). -/
theorem runSteps_decompress {s : State} {t : CodeTree} {items : List (BitString × Byte)} {e after : BitString}
    (hi : s.inp.isOpen = true) (ho : s.out.isOpen = true) (hb : t.bounded) (hroot : t.isLeaf = false)
    (hitems : ∀ q ∈ items, t.isCode q.1 (symOfByte q.2)) (he : t.isCode e Config.eob)
    (h : s.ahead = bitsOf 32 Config.magic.toNat ++ (encTree t ++ (items.flatMap (·.1) ++ (e ++ after)))) :
    runSteps .decompress (stepsOf .decompress) s =
      .ok () (closedStreams (atStep .decompress .close (unpacked t items e s))) := by
  have hbody : decbodyBody (atStep .decompress .decbody (opened t s)) = .ok () (unpacked t items e s) :=
    decbodyBody_codes hi ho rfl rfl hroot hitems he (opened_ahead h)
  have hopen : (unpacked t items e s).out.isOpen = true := by rw [unpacked_out, append_isOpen, ho]
  calc runSteps .decompress (stepsOf .decompress) s
    _ = runSteps .decompress [.decbody, .close] (opened t s) := runSteps_opening _ hi hb h
    _ = runSteps .decompress [.close] (unpacked t items e s) := runSteps_cons hbody
    _ = .ok () (closedStreams (atStep .decompress .close (unpacked t items e s))) :=
      runSteps_cons (closeStreams_open hopen)

/-- The state DECOMPRESS ends in (45_decoder.md R198). -/
def decompressed (t : CodeTree) (items : List (BitString × Byte)) (e : BitString) (s : State) : State :=
  finish (cleardata (closedStreams
    (atStep .decompress .close (unpacked t items e (cleardata (accept .decompress s))))))

theorem exec_decompress (s : State) : exec .decompress s =
    runCommand .decompress (fun s => runSteps .decompress (stepsOf .decompress) (cleardata s)) s := rfl

theorem exec_decompress_stream {s : State} {t : CodeTree} {items : List (BitString × Byte)} {e after : BitString}
    (hs : s.ready) (hi : s.inp.isOpen = true) (ho : s.out.isOpen = true) (hb : t.bounded) (hroot : t.isLeaf = false)
    (hitems : ∀ q ∈ items, t.isCode q.1 (symOfByte q.2)) (he : t.isCode e Config.eob)
    (h : s.ahead = bitsOf 32 Config.magic.toNat ++ (encTree t ++ (items.flatMap (·.1) ++ (e ++ after)))) :
    exec .decompress s = .next (decompressed t items e s) := by
  have hsteps := runSteps_decompress (s := cleardata (accept .decompress s)) hi ho hb hroot hitems he h
  rw [exec_decompress, runCommand_ready hs, hsteps, unwind_composite_ok rfl, settle_ok, decompressed]

/-- An output of whole bytes takes no pad (20_memory.md R57). -/
theorem close_of_whole {o : OutStream} (h : o.bits.length % 8 = 0) (n : Nat) :
    o.close n = { o with closed := true } := by
  rw [OutStream.close, padLength_of_whole h, padBits, List.range_zero, List.map_nil, List.append_nil]

/-- On an empty output DECOMPRESS leaves exactly the bytes, with no pad after them (45_decoder.md R198). -/
theorem decompressed_out {s : State} (hout : s.out.bits = []) (t : CodeTree) (items : List (BitString × Byte))
    (e : BitString) :
    (decompressed t items e s).out = { s.out with bits := bitsOfBytes (items.map (·.2)), closed := true } := by
  have hclose : (decompressed t items e s).out =
      OutStream.close { s.out with bits := s.out.bits ++ bitsOfBytes (items.map (·.2)) } s.draws := rfl
  have hwhole : (bitsOfBytes (items.map (·.2))).length % 8 = 0 := by
    rw [bitsOfBytes_length, Nat.mul_mod_right]
  rw [hclose, hout, List.nil_append, close_of_whole hwhole]

theorem decompressed_err (t : CodeTree) (items : List (BitString × Byte)) (e : BitString) (s : State) :
    (decompressed t items e s).status.err = s.status.err := rfl

/-! ### What the encoder writes, as the decoder reads it -/

/-- The codes of a byte sequence, each with its byte (44_encoder.md R174). -/
def codeItems (table : CodeTable) (bytes : List Byte) : List (BitString × Byte) :=
  bytes.map fun b => (codeIn table (symOfByte b), b)

@[simp] theorem codeItems_bits (table : CodeTable) (bytes : List Byte) :
    (codeItems table bytes).flatMap (·.1) = codesIn table bytes := List.flatMap_map _ _ _

@[simp] theorem codeItems_bytes (table : CodeTable) (bytes : List Byte) :
    (codeItems table bytes).map (·.2) = bytes := by
  rw [codeItems, List.map_map]
  exact List.map_id bytes

/-- The code GENCODES gives a symbol of a tree leads to a leaf with that symbol (10_state.md R28 b). -/
theorem codeIn_isCode {t : CodeTree} {y : Sym} (h : y ∈ t.symbols) : t.isCode (codeIn (codesOf t) y) y := by
  obtain ⟨c, hc⟩ := Option.ne_none_iff_exists'.mp ((codesOf_ne_none t y).mpr h)
  rw [codeIn, hc, Option.getD_some]
  exact codesOf_isCode hc

theorem codeItems_isCode {t : CodeTree} {bytes : List Byte} (h : ∀ b ∈ bytes, symOfByte b ∈ t.symbols) :
    ∀ q ∈ codeItems (codesOf t) bytes, t.isCode q.1 (symOfByte q.2) := by
  intro q hq
  obtain ⟨b, hb, rfl⟩ := List.mem_map.mp hq
  exact codeIn_isCode (h b hb)

/-- DECOMPRESS on the stream of `bytes` under the tree of a table that counts them all, whatever follows (45_decoder.md
R198, R200). -/
theorem exec_decompress_streamAfter {s : State} {freq : Vector Count 256} {bytes : List Byte} {after : BitString}
    (hs : s.ready) (hi : s.inp.isOpen = true) (ho : s.out.isOpen = true)
    (hmem : ∀ b ∈ bytes, symOfByte b ∈ (buildTree freq).symbols) (h : s.ahead = streamAfter [] freq bytes ++ after) :
    exec .decompress s =
      .next (decompressed (buildTree freq) (codeItems (codesOf (buildTree freq)) bytes)
        (codeIn (codesOf (buildTree freq)) Config.eob) s) := by
  refine exec_decompress_stream (after := after) hs hi ho (buildTree_bounded freq) (buildTree_isLeaf freq)
    (codeItems_isCode hmem) (codeIn_isCode (eob_mem_buildTree freq)) ?_
  rw [h, streamAfter, codeItems_bits]
  simp only [List.nil_append, List.append_assoc]

end Sys2Proof.Machine

namespace Sys2Proof.Proofs

open Sys2Proof.Machine

/-- Settles O44: the 32-bit read gives the magic, another value or `EOI`; the check lets only the first pass. -/
theorem rdmagicChecksMagic : Obligations.RdmagicChecksMagic := by
  intro s hs hi
  rw [exec_rdmagic]
  refine ⟨fun after h => ?_, fun m after hm h => ?_, fun h => ?_⟩
  · exact runCommand_primitive_ok rfl hs (rdmagicBody_magic (s := accept .rdmagic s) hi h)
  · exact runCommand_primitive_raised rfl hs (rdmagicBody_other (s := accept .rdmagic s) hi hm h)
  · exact runCommand_primitive_raised rfl hs (rdmagicBody_short (s := accept .rdmagic s) hi h)

/-- Settles O49: COMPRESS writes the magic, the header of a tree with a leaf for every byte and for the end of the block,
and codes that are paths of that tree; on these DECOMPRESS ends at the end-of-block code, before the pad and what follows
it. -/
theorem decompressInvertsCompress : Obligations.DecompressInvertsCompress := by
  intro s t u bytes after hs hinp hso hsout hcompress hu huinp huo huout
  have hend := exec_compress_fresh hs hinp hso
  have hmem : ∀ b ∈ bytes, symOfByte b ∈ (buildTree (countsOf bytes)).symbols := fun _ hb => byte_mem_buildTree hb
  generalize countsOf bytes = freq at hend hmem
  obtain rfl : compressed freq bytes s = t := Host.Outcome.next.inj (hend.symm.trans hcompress)
  have hahead : u.ahead = streamAfter [] freq bytes ++ (streamPad s freq bytes ++ after) := by
    rw [State.ahead, huinp, compressed_out, hsout, List.drop_zero, List.append_assoc]
  have hi : u.inp.isOpen = true := by rw [huinp]
  refine ⟨_, exec_decompress_streamAfter hu hi huo hmem hahead, ?_⟩
  rw [decompressed_out huout, codeItems_bytes, decompressed_err]
  exact ⟨rfl, rfl, hu.2⟩

end Sys2Proof.Proofs
end

section
/-! PROOFS. The statements of 46_stream_control.md: where REWIND (R210), CLOSE (R211) and CLEAR (R213) end. -/

namespace Sys2Proof.Machine

/-! ### REWIND -/

theorem exec_rewind (s : State) : exec .rewind s = runCommand .rewind inRewind s := rfl

/-- REWIND on an open input (46_stream_control.md R210). -/
theorem exec_rewind_open {s : State} (hs : s.ready) (hi : s.inp.isOpen = true) :
    exec .rewind s = .next (finish (rewound (accept .rewind s))) := by
  rw [exec_rewind]
  exact runCommand_primitive_ok rfl hs (inRewind_open (s := accept .rewind s) hi)

/-! ### CLOSE -/

/-- The pad bits CLOSE appends: the fewest to a byte, of the state's free draw (20_memory.md R57). -/
def closePad (s : State) : BitString := padBits s.draws (padLength s.out.bits.length)

theorem closePad_length_le (s : State) : (closePad s).length ≤ 7 := by
  rw [closePad, padBits_length]
  exact padLength_lt _

theorem closePad_fills (s : State) : (s.out.bits ++ closePad s).length % 8 = 0 := by
  rw [List.length_append, closePad, padBits_length, padLength_fills]

/-! ### CLEAR -/

/-- CLEAR leaves the block as a reset does, up to `CUR` (46_stream_control.md R213, 10_state.md R40). -/
theorem clearAll_eq_resetBlock (s : State) : clearAll s = { resetBlock s with cur := s.cur } := rfl

end Sys2Proof.Machine

namespace Sys2Proof.Proofs

open Sys2Proof.Machine

/-- Settles O51: the transaction on an open input succeeds and sets the position alone; acceptance and end of the command
change `STATUS`, `PHASE` and the traversal stack. -/
theorem rewindReturnsToStart : Obligations.RewindReturnsToStart := by
  intro s hs hi
  exact exec_rewind_open hs hi

/-- Settles O52: a recorded fault does not keep CLOSE from its transactions, and the pad of the output's length fills the
last byte. -/
theorem closePadsAndCloses : Obligations.ClosePadsAndCloses := by
  intro s hb ho
  exact ⟨closePad s, closePad_length_le s, closePad_fills s, exec_close_open hb ho⟩

/-- Settles O53: a recorded fault does not keep CLEAR from acknowledging it, and what that leaves is the block after a
reset with the old `CUR`. -/
theorem clearGivesResetValues : Obligations.ClearGivesResetValues := by
  intro s hb
  exact ⟨clearAll s, exec_clear_idle hb, clearAll_eq_resetBlock s⟩

end Sys2Proof.Proofs
end

section
/-! PROOFS. The statement of 60_exceptions.md: SequenceError is the fault of a command whose input structure is not valid
(R228), so the steps of a composite command never meet it. -/

namespace Sys2Proof.Machine

variable {α β : Type}

/-! ### The input structure of a command -/

/-- The input structure a command needs is valid (60_exceptions.md R228). -/
def inputValid : Cmd → State → Bool
  | .build, s => s.status.freqValid
  | .gencodes, s | .wrtree, s | .decbody, s => (validTree s).isSome
  | .encbody, s => s.status.codeValid
  | .count, _ | .wrmagic, _ | .rdmagic, _ | .rdtree, _ | .rewind, _ | .close, _ | .compress, _ | .decompress, _
  | .clear, _ => true

theorem inputValid_accept (c d : Cmd) (s : State) : inputValid c (accept d s) = inputValid c s := by
  cases c <;> rfl

theorem inputValid_atStep (c d p : Cmd) (s : State) : inputValid c (atStep d p s) = inputValid c s := by
  cases c <;> rfl

/-- No tree may be used while `TREE_VALID = 0` (10_state.md R30). -/
theorem validTree_isSome_of_invalid {s : State} (hv : s.status.treeValid = false) : (validTree s).isSome = false := by
  simp [validTree, hv]

theorem needTree_of_missing {s : State} (h : (validTree s).isSome = false) (k : CodeTree → State → Res α) :
    needTree s k = .raised .sequence s := by
  rw [needTree, Option.isNone_iff_eq_none.mp (Option.isSome_eq_false_iff.mp h)]

/-- A body whose input structure is not valid raises SequenceError before it changes anything (60_exceptions.md R228). -/
theorem primitiveBody_missing {c : Cmd} {s : State} (h : inputValid c s = false) :
    primitiveBody c s = .raised .sequence s := by
  cases c with
  | build =>
    have hv : s.status.freqValid = false := h
    rw [primitiveBody, buildBody, hv, require_false, Res.bind_raised]
  | gencodes => rw [primitiveBody, gencodesBody, needTree_of_missing h]
  | wrtree => rw [primitiveBody, wrtreeBody, needTree_of_missing h]
  | decbody => rw [primitiveBody, decbodyBody, decbodyInit, needTree_of_missing h, Res.bind_raised]
  | encbody =>
    have hv : s.status.codeValid = false := h
    rw [primitiveBody, encbodyBody, hv, require_false, Res.bind_raised]
  | _ => cases h

/-- The command then ends in the state itself with the fault recorded: what its acceptance set, fault entry sets anew
(60_exceptions.md R232). -/
theorem exec_missing {c : Cmd} (hc : c.composite = false) (hclear : c ≠ .clear) {s : State} (hs : s.ready)
    (h : inputValid c s = false) : exec (decodeCommand c.opcode) s = .next (faultEntry .sequence c.opcode s) := by
  rw [exec_primitive hc hclear]
  exact runCommand_primitive_raised hc hs (primitiveBody_missing ((inputValid_accept c c s).trans h))

/-! ### Work that raises no SequenceError -/

/-- A piece of work does not end with SequenceError. -/
def Res.noSequence : Res α → Prop
  | .ok _ _ => True
  | .raised e _ => e ≠ .sequence
  | .refused _ => True

theorem noSequence_bind {r : Res α} {k : α → State → Res β} (h : r.noSequence)
    (hk : ∀ a t, (k a t).noSequence) : (r.bind k).noSequence := by
  cases r with
  | ok a t => exact hk a t
  | raised e t => exact h
  | refused r => trivial

theorem noSequence_raised {e : FaultKind} (he : e ≠ .sequence) (s : State) : (Res.raised e s : Res α).noSequence := he

theorem needTree_noSequence {s : State} {k : CodeTree → State → Res α} (h : (validTree s).isSome = true)
    (hk : ∀ t, (k t s).noSequence) : (needTree s k).noSequence := by
  obtain ⟨t, ht⟩ := Option.isSome_iff_exists.mp h
  rw [needTree, ht]
  exact hk t

theorem inRead_noSequence (w : Nat) (s : State) : (inRead w s).noSequence := by
  obtain ⟨-, h⟩ | ⟨-, -, v, h⟩ | ⟨-, -, h⟩ := inRead_cases w s <;> rw [h] <;> trivial

theorem outWrite_noSequence (w v : Nat) (s : State) : (outWrite w v s).noSequence := by
  unfold outWrite
  split <;> trivial

theorem inRewind_noSequence (s : State) : (inRewind s).noSequence := by
  unfold inRewind
  split <;> trivial

theorem closeStreams_noSequence (s : State) : (closeStreams s).noSequence := by
  cases ho : s.out.isOpen with
  | true => rw [closeStreams_open ho]; trivial
  | false => rw [closeStreams_refused ho]; trivial

theorem eachByte_noSequence {body : Byte → State → Res Unit} (hb : ∀ b s, (body b s).noSequence) (n : Nat) (s : State) :
    (eachByte body n s).noSequence := by
  induction n generalizing s with
  | zero => trivial
  | succ n ih =>
    refine noSequence_bind (inRead_noSequence 8 s) fun v t => ?_
    cases v with
    | none => trivial
    | some b => exact noSequence_bind (hb b t) fun _ u => ih u

theorem countBody_noSequence (s : State) : (countBody s).noSequence := by
  refine noSequence_bind (eachByte_noSequence (fun b t => ?_) (readFuel s) (countInit s)) fun _ u => ?_
  · trivial
  · trivial

/-- The root check of GENCODES and DECBODY raises LeafRootError only. -/
theorem require_leafRoot_noSequence (b : Bool) (s : State) : (require b .leafRoot s).noSequence := by
  cases b with
  | true => trivial
  | false => exact noSequence_raised (by decide) s

theorem gencodesBody_noSequence {s : State} (h : (validTree s).isSome = true) : (gencodesBody s).noSequence := by
  refine needTree_noSequence h fun t =>
    noSequence_bind (require_leafRoot_noSequence (!t.isLeaf) (dropCode s)) fun _ u => ?_
  trivial

theorem decbodyInit_noSequence {s : State} (h : (validTree s).isSome = true) : (decbodyInit s).noSequence := by
  refine needTree_noSequence h fun t => noSequence_bind (require_leafRoot_noSequence (!t.isLeaf) s) fun _ u => ?_
  trivial

theorem writeTree_noSequence (t : CodeTree) (s : State) : (writeTree t s).noSequence := by
  induction t generalizing s with
  | leaf y => exact noSequence_bind (outWrite_noSequence 1 1 s) fun _ u => outWrite_noSequence 9 y.val u
  | node l r hl hr =>
    exact noSequence_bind (outWrite_noSequence 1 0 s) fun _ u => noSequence_bind (hl u) fun _ v => hr v

theorem writeCode_noSequence (n : Nat) (c : BitString) (s : State) : (writeCode n c s).noSequence := by
  induction n generalizing c s with
  | zero => trivial
  | succ n ih =>
    cases c with
    | nil => trivial
    | cons b bs => exact noSequence_bind (outWrite_noSequence _ _ s) fun _ u => ih _ u

theorem emitSymbol_noSequence (y : Sym) (s : State) : (emitSymbol y s).noSequence := by
  unfold emitSymbol
  split
  · exact noSequence_raised (by decide) s
  · exact writeCode_noSequence _ _ s

theorem rdmagicBody_noSequence (s : State) : (rdmagicBody s).noSequence := by
  refine noSequence_bind (inRead_noSequence 32 s) fun v t => ?_
  unfold checkMagic
  split
  · trivial
  · exact noSequence_raised (by decide) t

/-- The first read of a header is refused while the input is not open (20_memory.md R69). -/
theorem readTree_refused {s : State} (h : s.inp.isOpen = false) (n : Nat) :
    readTree n s = .refused .inputNotOpen := by
  have hnode : readNode s = .refused .inputNotOpen := by
    rw [readNode, takeMarker, inRead_refused h, Res.bind_refused, Res.bind_refused]
  cases n with
  | zero => rw [readTree, hnode, Res.bind_refused]
  | succ n => rw [readTree, hnode, Res.bind_refused]

theorem FaultKind.ne_sequence_of_ofHeader {e : FaultKind} (h : e.ofHeader) : e ≠ .sequence := by
  obtain rfl | rfl | rfl := h <;> decide

theorem rdtreeBody_noSequence (s : State) : (rdtreeBody s).noSequence := by
  refine noSequence_bind ?_ fun _ _ => trivial
  cases ho : s.inp.isOpen with
  | false => rw [readTree_refused (s := rdtreeInit s) ho]; trivial
  | true =>
    obtain ⟨e, u, h, he⟩ | ⟨t, rest, -, -, h⟩ :=
      readTree_cases Config.nodeCap (s := rdtreeInit s) ho (Nat.zero_le _) <;> rw [h]
    · exact FaultKind.ne_sequence_of_ofHeader he
    · trivial

theorem decodeBit_noSequence (root : CodeTree) (b : Bool) (s : State) : (decodeBit root b s).noSequence := by
  obtain ⟨l, r, -, h⟩ | ⟨-, h⟩ | ⟨y, -, -, ⟨-, h⟩ | ⟨-, h⟩⟩ := decodeBit_cases root b s <;> rw [h] <;> trivial

theorem decodeLoop_noSequence (root : CodeTree) (n : Nat) (s : State) : (decodeLoop root n s).noSequence := by
  induction n generalizing s with
  | zero => exact noSequence_raised (by decide) s
  | succ n ih =>
    refine noSequence_bind (inRead_noSequence 1 s) fun b t => ?_
    cases b with
    | none => exact noSequence_raised (by decide) t
    | some b =>
      refine noSequence_bind (decodeBit_noSequence root (b == 1#1) t) fun fin u => ?_
      cases fin with
      | true => trivial
      | false => exact ih u

/-- The converse of `primitiveBody_missing`: nothing but a missing input structure is a SequenceError. -/
theorem primitiveBody_noSequence {c : Cmd} {s : State} (h : inputValid c s = true) :
    (primitiveBody c s).noSequence := by
  cases c with
  | count => exact countBody_noSequence s
  | build => rw [primitiveBody, buildBody_valid h]; trivial
  | gencodes => exact gencodesBody_noSequence h
  | wrmagic => exact outWrite_noSequence _ _ s
  | wrtree => exact needTree_noSequence h fun t => writeTree_noSequence t s
  | encbody =>
    have hv : s.status.codeValid = true := h
    rw [primitiveBody, encbodyBody, hv, require_true, Res.bind_ok]
    exact noSequence_bind (eachByte_noSequence (fun b t => emitSymbol_noSequence (symOfByte b) t) _ _) fun _ u =>
      emitSymbol_noSequence Config.eob u
  | rdmagic => exact rdmagicBody_noSequence s
  | rdtree => exact rdtreeBody_noSequence s
  | decbody => exact noSequence_bind (decbodyInit_noSequence h) fun t u => decodeLoop_noSequence t (readFuel u) u
  | rewind => exact inRewind_noSequence s
  | close => exact closeStreams_noSequence s
  | compress => trivial
  | decompress => trivial
  | clear => trivial

/-! ### A step of a composite command -/

/-- Two pieces of work end with a value only if both do. -/
theorem Res.bind_eq_ok {r : Res α} {k : α → State → Res β} {b : β} {u : State} (h : r.bind k = .ok b u) :
    ∃ a t, r = .ok a t ∧ k a t = .ok b u := by
  cases r with
  | ok a t => exact ⟨a, t, rfl, h⟩
  | raised e t => cases h
  | refused r => cases h

theorem needTree_eq_ok {s u : State} {k : CodeTree → State → Res α} {a : α} (h : needTree s k = .ok a u) :
    ∃ t, k t s = .ok a u := by
  rw [needTree] at h
  cases hv : validTree s with
  | none => rw [hv] at h; cases h
  | some t => rw [hv] at h; exact ⟨t, h⟩

/-- A step whose input structure is valid, before steps that raise no SequenceError. -/
theorem runSteps_cons_noSequence {c p : Cmd} {ps : List Cmd} {s : State} (hp : inputValid p s = true)
    (hps : ∀ u, primitiveBody p (atStep c p s) = .ok () u → (runSteps c ps u).noSequence) :
    (runSteps c (p :: ps) s).noSequence := by
  have hbody : (primitiveBody p (atStep c p s)).noSequence :=
    primitiveBody_noSequence ((inputValid_atStep p c p s).trans hp)
  rw [runSteps]
  cases hr : primitiveBody p (atStep c p s) with
  | ok a u => exact hps u hr
  | raised e u => rwa [hr] at hbody
  | refused r => trivial

/-- A step leaves what its frame does not list (10_state.md R39). -/
theorem step_same {c p : Cmd} {s u : State} (h : primitiveBody p (atStep c p s) = .ok () u) {f : Field}
    (hf : f ∉ .phase :: bodyChanges p) : f.same s u := by
  have hbody := primitiveBody_frame p (atStep c p s)
  rw [h] at hbody
  exact ((atStep_frame c p s).mono (by simp)).trans _ _ _ (hbody.mono (List.subset_cons_self _ _)) f hf

theorem step_keeps_validTree {c p : Cmd} {s u : State} (h : primitiveBody p (atStep c p s) = .ok () u)
    (hf : ∀ f ∈ [Field.tree, .treeValid], f ∉ .phase :: bodyChanges p) : validTree u = validTree s := by
  have ht : u.tree = s.tree := step_same h (hf .tree (by decide))
  have hv : u.status.treeValid = s.status.treeValid := step_same h (hf .treeValid (by decide))
  rw [validTree, validTree, ht, hv]

/-- The elements of the state that make up the input structure of a command (60_exceptions.md R228). -/
def inputFields : Cmd → List Field
  | .build => [.freqValid]
  | .gencodes | .wrtree | .decbody => [.tree, .treeValid]
  | .encbody => [.codeValid]
  | .count | .wrmagic | .rdmagic | .rdtree | .rewind | .close | .compress | .decompress | .clear => []

/-- A step that changes no part of the input structure of `q` leaves it valid for `q`. -/
theorem step_keeps_inputValid {c p q : Cmd} {s u : State} (h : primitiveBody p (atStep c p s) = .ok () u)
    (hf : ∀ f ∈ inputFields q, f ∉ .phase :: bodyChanges p) (hq : inputValid q s = true) : inputValid q u = true := by
  cases q with
  | build => exact (step_same h (hf .freqValid (by decide))).trans hq
  | gencodes | wrtree | decbody => exact (congrArg Option.isSome (step_keeps_validTree h hf)).trans hq
  | encbody => exact (step_same h (hf .codeValid (by decide))).trans hq
  | _ => rfl

/-! ### What the steps make -/

theorem countBody_freqValid {s u : State} (h : countBody s = .ok () u) : u.status.freqValid = true := by
  obtain ⟨_, t, -, hu⟩ := Res.bind_eq_ok h
  cases hu
  rfl

theorem rdtreeBody_validTree {s u : State} (h : rdtreeBody s = .ok () u) : (validTree u).isSome = true := by
  obtain ⟨t, v, -, hu⟩ := Res.bind_eq_ok h
  cases hu
  rfl

theorem buildBody_validTree {s u : State} (h : buildBody s = .ok () u) : (validTree u).isSome = true := by
  obtain ⟨_, v, -, hu⟩ := Res.bind_eq_ok h
  cases hu
  rfl

theorem gencodesBody_codeValid {s u : State} (h : gencodesBody s = .ok () u) : u.status.codeValid = true := by
  obtain ⟨t, ht⟩ := needTree_eq_ok h
  obtain ⟨_, v, -, hu⟩ := Res.bind_eq_ok ht
  cases hu
  rfl

/-! ### The composite commands -/

/-- Every step of COMPRESS finds what the steps before it made: the counts, the tree, the codes (44_encoder.md R178). -/
theorem runSteps_compress_noSequence (s : State) : (runSteps .compress (stepsOf .compress) s).noSequence := by
  refine runSteps_cons_noSequence rfl fun u₁ hcount => ?_
  refine runSteps_cons_noSequence (countBody_freqValid hcount) fun u₂ hbuild => ?_
  have htree : inputValid .wrtree u₂ = true := buildBody_validTree hbuild
  refine runSteps_cons_noSequence htree fun u₃ hgencodes => ?_
  have hcode : inputValid .encbody u₃ = true := gencodesBody_codeValid hgencodes
  refine runSteps_cons_noSequence rfl fun u₄ hwrmagic => ?_
  have htree₃ : inputValid .wrtree u₃ = true := step_keeps_inputValid hgencodes (by decide) htree
  have htree₄ : inputValid .wrtree u₄ = true := step_keeps_inputValid hwrmagic (by decide) htree₃
  refine runSteps_cons_noSequence htree₄ fun u₅ hwrtree => ?_
  refine runSteps_cons_noSequence rfl fun u₆ hrewind => ?_
  have hcode₄ : inputValid .encbody u₄ = true := step_keeps_inputValid hwrmagic (by decide) hcode
  have hcode₅ : inputValid .encbody u₅ = true := step_keeps_inputValid hwrtree (by decide) hcode₄
  have hcode₆ : inputValid .encbody u₆ = true := step_keeps_inputValid hrewind (by decide) hcode₅
  refine runSteps_cons_noSequence hcode₆ fun _ _ => ?_
  exact runSteps_cons_noSequence rfl fun _ _ => trivial

/-- DECBODY finds the tree RDTREE read (45_decoder.md R198). -/
theorem runSteps_decompress_noSequence (s : State) : (runSteps .decompress (stepsOf .decompress) s).noSequence := by
  refine runSteps_cons_noSequence rfl fun _ _ => ?_
  refine runSteps_cons_noSequence rfl fun _ hrdtree => ?_
  refine runSteps_cons_noSequence (rdtreeBody_validTree hrdtree) fun _ _ => ?_
  exact runSteps_cons_noSequence rfl fun _ _ => trivial

theorem runSteps_composite_noSequence {c : Cmd} (hc : c.composite = true) (s : State) :
    (runSteps c (stepsOf c) s).noSequence := by
  cases c with
  | compress => exact runSteps_compress_noSequence s
  | decompress => exact runSteps_decompress_noSequence s
  | _ => cases hc

/-- 8 is the code of SequenceError alone (60_exceptions.md R220). -/
theorem FaultKind.code_ne_eight {e : FaultKind} (h : e ≠ .sequence) : e.code ≠ 8#4 := by
  cases e with
  | sequence => exact absurd rfl h
  | _ => decide

/-- A composite command that ends with a fault has recorded one of its steps' faults (44_encoder.md R179, 45_decoder.md
R199). -/
theorem exec_composite_errcode {c : Cmd} (hc : c.composite = true) {s t : State} (hs : s.ready)
    (h : exec (decodeCommand c.opcode) s = .next t) (herr : t.status.err = true) : t.errcode ≠ 8#4 := by
  rw [exec_composite hc] at h
  obtain ⟨hbusy, -⟩ | ⟨-, hold, -⟩ | ⟨-, ⟨u, hu, rfl⟩ | ⟨e, u, hu, -, rfl⟩⟩ := runCommand_cases_composite hc h
  · exact absurd hbusy (by simp [hs.1])
  · exact absurd hold (by simp [hs.2])
  · have hframe := runSteps_frame c (stepsOf c) (cleardata (accept c s))
    rw [hu] at hframe
    have hkept : u.status.err = s.status.err := hframe .err (by decide)
    exact absurd (hkept.symm.trans herr) (by simp [hs.2])
  · have hsteps := runSteps_composite_noSequence hc (cleardata (accept c s))
    rw [hu] at hsteps
    exact FaultKind.code_ne_eight hsteps

end Sys2Proof.Machine

namespace Sys2Proof.Proofs

open Sys2Proof.Machine

/-- Settles O26: a body whose input structure is not valid raises the fault before it changes anything; inside a composite
command every step finds its input made by the steps before it. -/
theorem missingInputIsSequenceError : Obligations.MissingInputIsSequenceError := by
  intro s hs
  refine ⟨fun hv => ?_, fun hv => ?_, fun hv => ?_, fun hv => ?_, fun hv => ?_, ?_⟩
  · exact exec_missing (c := .build) rfl (by decide) hs hv
  · exact exec_missing (c := .gencodes) rfl (by decide) hs (validTree_isSome_of_invalid hv)
  · exact exec_missing (c := .wrtree) rfl (by decide) hs (validTree_isSome_of_invalid hv)
  · exact exec_missing (c := .encbody) rfl (by decide) hs hv
  · exact exec_missing (c := .decbody) rfl (by decide) hs (validTree_isSome_of_invalid hv)
  · rintro i t (rfl | rfl) h herr
    · exact exec_composite_errcode (c := .compress) rfl hs h herr
    · exact exec_composite_errcode (c := .decompress) rfl hs h herr

end Sys2Proof.Proofs
end

section
/-! PROOFS. Statements of 30_encoding.md and 20_memory.md about bits: decoding what the encoder writes (R80 to R90), the
words of the opcode map (R81), and fields on the wire (R52, R55, R68). -/

namespace Sys2Proof

/-! ### Decoding what the encoder writes -/

/-- The four bits of a command word are read back as that word's instruction. -/
theorem decode_command_bits (w : BitVec 4) (after : BitString) :
    decode .command (bitsOf 4 w.toNat ++ after) = .ok (decodeCommand w, after) := by
  have hlen : 4 ≤ (bitsOf 4 w.toNat ++ after).length := by simp
  rw [decode, if_pos hlen, ofNat_valOf_take_bitsOf, List.drop_left' (bitsOf_length 4 _)]

/-- An instruction of the command port is encoded as the word that selects it (30_encoding.md R81, R82). -/
theorem exists_word_of_admits {i : Instr} (h : Context.command.admits i) :
    ∃ w : BitVec 4, i = decodeCommand w ∧ encode i = bitsOf 4 w.toNat := by
  cases i with
  | magic | nodeInt | nodeLeaf | code | pad => exact h.elim
  | reserved0 => exact ⟨0x0#4, rfl, rfl⟩
  | count => exact ⟨0x1#4, rfl, rfl⟩
  | build => exact ⟨0x2#4, rfl, rfl⟩
  | gencodes => exact ⟨0x3#4, rfl, rfl⟩
  | wrmagic => exact ⟨0x4#4, rfl, rfl⟩
  | wrtree => exact ⟨0x5#4, rfl, rfl⟩
  | encbody => exact ⟨0x6#4, rfl, rfl⟩
  | rdmagic => exact ⟨0x7#4, rfl, rfl⟩
  | rdtree => exact ⟨0x8#4, rfl, rfl⟩
  | decbody => exact ⟨0x9#4, rfl, rfl⟩
  | rewind => exact ⟨0xA#4, rfl, rfl⟩
  | close => exact ⟨0xB#4, rfl, rfl⟩
  | compress => exact ⟨0xC#4, rfl, rfl⟩
  | decompress => exact ⟨0xD#4, rfl, rfl⟩
  | clear => exact ⟨0xE#4, rfl, rfl⟩
  | reservedF => exact ⟨0xF#4, rfl, rfl⟩

theorem decode_magic_bits (m : BitVec 32) (after : BitString) :
    decode .magic (bitsOf 32 m.toNat ++ after) = .ok (.magic m, after) := by
  have hlen : 32 ≤ (bitsOf 32 m.toNat ++ after).length := by simp
  rw [decode, if_pos hlen, ofNat_valOf_take_bitsOf, List.drop_left' (bitsOf_length 32 _)]

theorem decodeNode_leaf_bits (f : BitVec 9) (after : BitString) :
    decodeNode (true :: (bitsOf 9 f.toNat ++ after)) = .ok (.nodeLeaf f, after) := by
  have hlen : 9 ≤ (bitsOf 9 f.toNat ++ after).length := by simp
  rw [decodeNode, if_pos hlen, ofNat_valOf_take_bitsOf, List.drop_left' (bitsOf_length 9 _)]

/-- A path to a leaf is read as a code, if it has a bit (30_encoding.md R89, R96). -/
theorem decode_code_bits {t : CodeTree} {p : BitString} {y : Sym} (hp : 1 ≤ p.length) (h : t.isCode p y)
    (after : BitString) : decode (.code t) (p ++ after) = .ok (.code p, after) := by
  cases t with
  | leaf z =>
    cases p with
    | nil => cases hp
    | cons b p => cases h
  | node l r => rw [decode, takeCode_append _ p after y h]

theorem decode_pad_bits {b : BitString} (hb : b.length ≤ 7) (after : BitString) :
    decode (.pad b.length) (b ++ after) = .ok (.pad b, after) := by
  rw [decode, if_neg (by omega), if_pos (by simp), List.take_left, List.drop_left]

end Sys2Proof

namespace Sys2Proof.Machine

/-! ### Fields on the wire -/

/-- A write that answers had an open output, and appended the field. -/
theorem eq_append_of_outWrite {w v : Nat} {s t : State} (h : outWrite w v s = .ok () t) :
    s.out.isOpen = true ∧ t = append (bitsOf w v) s := by
  cases ho : s.out.isOpen with
  | false => rw [outWrite_refused ho] at h; cases h
  | true => rw [outWrite_open ho] at h; cases h; exact ⟨rfl, rfl⟩

/-- A field holds the low bits of its number alone (20_memory.md R55). -/
theorem bitsOf_mod (w v : Nat) : bitsOf w (v % 2 ^ w) = bitsOf w v :=
  bitsOf_congr fun i hi => by simp [Nat.testBit_mod_two_pow, hi]

/-- Two fields in a row are the wider field of both (20_memory.md R68). -/
theorem bitsOf_append_bitsOf (a b v x : Nat) (hx : x < 2 ^ b) :
    bitsOf a v ++ bitsOf b x = bitsOf (a + b) (v * 2 ^ b + x) := by
  induction a with
  | zero =>
    rw [Nat.zero_add, bitsOf, List.nil_append, ← bitsOf_mod b (v * 2 ^ b + x), Nat.mul_add_mod_self_right,
      Nat.mod_eq_of_lt hx]
  | succ a ih =>
    have hbit : (v * 2 ^ b + x).testBit (a + b) = v.testBit a := by
      rw [Nat.mul_comm, Nat.testBit_two_pow_mul_add _ hx, if_neg (by omega), Nat.add_sub_cancel]
    rw [bitsOf, List.cons_append, ih, Nat.add_right_comm, bitsOf, hbit]

end Sys2Proof.Machine

namespace Sys2Proof.Proofs

open Sys2Proof.Machine

/-- Settles O13: by the context, each of which reads back the bits of the instructions it admits. -/
theorem decodeEncodeAgree : Obligations.DecodeEncodeAgree := by
  intro i c after hwf hadm
  cases c with
  | command =>
    obtain ⟨w, rfl, hbits⟩ := exists_word_of_admits hadm
    rw [hbits, decode_command_bits]
  | magic =>
    obtain ⟨m, rfl⟩ := hadm
    exact decode_magic_bits m after
  | node =>
    obtain rfl | ⟨f, rfl⟩ := hadm
    · rfl
    · exact decodeNode_leaf_bits f after
  | code t =>
    obtain ⟨p, y, rfl, h⟩ := hadm
    have hlen := Laws.EncodedLength.code p hwf
    exact decode_code_bits hlen.1 h after
  | pad k =>
    obtain ⟨b, rfl, rfl⟩ := hadm
    exact decode_pad_bits (Laws.EncodedLength.pad b hwf) after

/-- Settles O15: a write appends `bits` of its number, of which the read takes the value again; `bits` of two numbers in a
row are `bits` of their wider number. -/
theorem fieldsTravelMostSignificantFirst : Obligations.FieldsTravelMostSignificantFirst := by
  refine ⟨fun s t u w v after hw _ hwrite hopen hahead => ?_, fun s t u a b v x _ _ _ hx hfirst hsecond => ?_⟩
  · obtain ⟨-, rfl⟩ := eq_append_of_outWrite hwrite
    have hfield : u.ahead = bitsOf w (BitVec.ofNat w v).toNat ++ after := by
      rw [hahead, append, List.drop_left, BitVec.toNat_ofNat, bitsOf_mod]
    refine ⟨advance w u, inRead_bitsOf hopen hw hfield, ?_⟩
    rw [ahead_advance, hfield, List.drop_left' (bitsOf_length w _)]
  · obtain ⟨hopen, rfl⟩ := eq_append_of_outWrite hfirst
    obtain ⟨-, rfl⟩ := eq_append_of_outWrite hsecond
    rw [outWrite_open hopen, append_append, bitsOf_append_bitsOf a b v x hx]

/-- Settles O12: six closed words, which the decoder evaluates. -/
theorem specWordsDecode : Obligations.SpecWordsDecode :=
  ⟨rfl, rfl, rfl, rfl, rfl, rfl⟩

end Sys2Proof.Proofs
end

section
/-! PROOFS. One step of the machine: what the host does (30_encoding.md R80, R97), and what a running command does next,
a reader with or without a whole token at `IN.pos` (R84 to R96; log 1). -/

namespace Sys2Proof.Machine

/-! ### The host's side of a step -/

theorem step_of_idle {s : State} (hport : s.port = []) (hbusy : s.status.busy = false) : step s = .next s := by
  simp [step, hport, hbusy]

theorem step_of_running {s : State} (hport : s.port = []) (hbusy : s.status.busy = true) : step s = runOn s := by
  simp [step, hport, hbusy]

theorem step_of_event_busy {s : State} {ev : HostEvent} {rest : List HostEvent} (hport : s.port = ev :: rest)
    (hbusy : s.status.busy = true) : step s = hostActsBusy ev s { s with port := rest } := by
  simp [step, hport, hbusy]

/-- Everything a step can do: an idle block waits or takes the host's event; with a command running the input changes
between the passes, reset acts, or the command goes on, with the event taken off or waiting (30_encoding.md R80,
70_reset_and_hazards.md R261, R262, R271). -/
theorem step_cases {s t : State} (h : step s = .next t) :
    (s.port = [] ∧ s.status.busy = false ∧ t = s) ∨
      (∃ ev rest, s.port = ev :: rest ∧ s.status.busy = false ∧ hostActs ev { s with port := rest } = .next t) ∨
      (∃ bytes rest, s.port = .changeIn bytes :: rest ∧ s.status.busy = true ∧ s.phase.betweenPasses = true ∧
        t = changeInput bytes { s with port := rest }) ∨
      (∃ rest, s.port = .reset :: rest ∧ s.status.busy = true ∧ t = applyReset { s with port := rest }) ∨
      (s.status.busy = true ∧ ∃ port, runOn { s with port := port } = .next t) := by
  cases hbusy : s.status.busy with
  | false =>
    cases hport : s.port with
    | nil => rw [step_of_idle hport hbusy] at h; exact .inl ⟨rfl, rfl, (Host.Outcome.next.inj h).symm⟩
    | cons ev rest => rw [step_of_event hport hbusy] at h; exact .inr (.inl ⟨ev, rest, rfl, rfl, h⟩)
  | true =>
    refine .inr (.inr ?_)
    cases hport : s.port with
    | nil => rw [step_of_running hport hbusy] at h; exact .inr (.inr ⟨rfl, s.port, h⟩)
    | cons ev rest =>
      rw [step_of_event_busy hport hbusy] at h
      cases ev with
      | bindIn | bindOut => cases h
      | changeIn bytes =>
        rw [hostActsBusy] at h
        split at h
        · next hbetween => exact .inl ⟨bytes, rest, rfl, rfl, hbetween, (Host.Outcome.next.inj h).symm⟩
        · cases h
      | command | start => exact .inr (.inr ⟨rfl, s.port, h⟩)
      | wait => exact .inr (.inr ⟨rfl, rest, h⟩)
      | reset => exact .inr (.inl ⟨rest, rfl, rfl, (Host.Outcome.next.inj h).symm⟩)

/-! ### The running step -/

theorem inStep_run {c p : Cmd} {s : State} (h : s.phase = .run c p) (work : State → Res Bool) :
    inStep p work s = turn c p (work s) := by
  simp [inStep, h]

/-- A piece of work of a step that does not run has no effect (log 10). -/
theorem inStep_other {p : Cmd} {s : State} (h : ∀ c, s.phase ≠ .run c p) (work : State → Res Bool) :
    inStep p work s = .next s := by
  unfold inStep
  split
  · rfl
  · next c q hphase => exact if_neg fun hq => h c (by rw [hphase, hq])

theorem resume_run {c p : Cmd} {s : State} (h : s.phase = .run c p) : resume s = turn c p (stepWork p s) := by
  rw [resume, h]
  exact inStep_run h _

/-! ### The wire tokens under the step that reads them (30_encoding.md R85 to R89) -/

theorem exec_magic_run {c : Cmd} {s : State} (h : s.phase = .run c .rdmagic) (m : BitVec 32) :
    exec (.magic m) s = turn c .rdmagic ((inRead 32 s).bind fun v s =>
      (checkMagic (v.map fun _ => m) s).bind fun _ s => .ok true s) := by
  rw [exec, execMagic, inStep_run h]

theorem exec_nodeInt_run {c : Cmd} {s : State} (h : s.phase = .run c .rdtree) :
    exec .nodeInt s = turn c .rdtree ((takeMarker s).bind fun _ s => acceptNode .internal s) := by
  rw [exec, execNodeInt, inStep_run h]

theorem exec_nodeLeaf_run {c : Cmd} {s : State} (h : s.phase = .run c .rdtree) (f : BitVec 9) :
    exec (.nodeLeaf f) s = turn c .rdtree ((takeMarker s).bind fun _ s =>
      (takeField s).bind fun _ s => (checkField f s).bind fun y s => acceptNode (.leaf y) s) := by
  rw [exec, execNodeLeaf, inStep_run h]

theorem exec_code_run {c : Cmd} {s : State} (h : s.phase = .run c .decbody) (path : BitString) :
    exec (.code path) s = turn c .decbody (needTree s fun t s => decodeToken t path s) := by
  rw [exec, execCode, inStep_run h]

/-! ### The token the running reader meets -/

/-- The token at `IN.pos` is what the reader's context reads there. -/
theorem fetchToken_eq_some {s : State} {c : Context} {i : Instr} {after : BitString} (hc : readerContext s = some c)
    (ho : s.inp.isOpen = true) (h : decode c s.ahead = .ok (i, after)) : fetchToken s = some i := by
  rw [State.ahead] at h
  simp only [fetchToken, hc, ho, if_true, h]

theorem fetchToken_eq_none {s : State} {c : Context} {e : Reject} (hc : readerContext s = some c)
    (h : decode c s.ahead = .error e) : fetchToken s = none := by
  rw [State.ahead] at h
  simp [fetchToken, hc, h]

theorem fetchToken_closed {s : State} (h : s.inp.isOpen = false) : fetchToken s = none := by
  unfold fetchToken
  split <;> simp [h]

theorem fetchToken_noReader {s : State} (h : readerContext s = none) : fetchToken s = none := by
  rw [fetchToken, h]

theorem runOn_token {s : State} {i : Instr} (h : fetchToken s = some i) : runOn s = exec i s := by
  rw [runOn, h]

theorem runOn_resume {c p : Cmd} {s : State} (h : fetchToken s = none) (hp : s.phase = .run c p) :
    runOn s = turn c p (stepWork p s) := by
  rw [runOn, h]
  exact resume_run hp

/-! ### A reader at a whole token does what it does without one -/

/-- RDMAGIC takes the magic field as its one read does (45_decoder.md R190). -/
theorem runOn_rdmagic {c : Cmd} {s : State} (h : s.phase = .run c .rdmagic) :
    runOn s = turn c .rdmagic (stepWork .rdmagic s) := by
  have hctx : readerContext s = some .magic := by rw [readerContext, h]
  cases ho : s.inp.isOpen with
  | false => exact runOn_resume (fetchToken_closed ho) h
  | true =>
    by_cases hlen : 32 ≤ s.ahead.length
    · rw [runOn_token (fetchToken_eq_some hctx ho (if_pos hlen))]
      rw [exec_magic_run h]
      simp only [stepWork, rdmagicBody, inRead_some ho (by decide : 1 ≤ 32) hlen, Res.bind_ok, Option.map_some]
    · exact runOn_resume (fetchToken_eq_none hctx (if_neg hlen)) h

/-- RDTREE takes a node token as its reads of one node do (43_tree_codec.md R154). -/
theorem runOn_rdtree {c : Cmd} {s : State} (h : s.phase = .run c .rdtree) :
    runOn s = turn c .rdtree (stepWork .rdtree s) := by
  have hctx : readerContext s = some .node := by rw [readerContext, h]
  cases ho : s.inp.isOpen with
  | false => exact runOn_resume (fetchToken_closed ho) h
  | true =>
    obtain ⟨hnil, -⟩ | ⟨b, rest, hahead, hmarker⟩ := takeMarker_cases ho
    · exact runOn_resume (fetchToken_eq_none hctx (by rw [hnil]; rfl)) h
    · cases b with
      | false =>
        have hdec : decode .node s.ahead = .ok (.nodeInt, rest) := by rw [hahead]; rfl
        rw [runOn_token (fetchToken_eq_some hctx ho hdec)]
        rw [exec_nodeInt_run h]
        obtain ⟨-, hm⟩ | ⟨-, hm⟩ := hmarker
        · simp only [stepWork, readNode, hm, Res.bind_raised]
        · simp only [stepWork, readNode, hm, Res.bind_ok]
          rfl
      | true =>
        by_cases hlen : 9 ≤ rest.length
        · have hdec : decode .node s.ahead = .ok (.nodeLeaf (BitVec.ofNat 9 (valOf (rest.take 9))), rest.drop 9) := by
            rw [hahead]; exact if_pos hlen
          rw [runOn_token (fetchToken_eq_some hctx ho hdec)]
          rw [exec_nodeLeaf_run h]
          obtain ⟨-, hm⟩ | ⟨-, hm⟩ := hmarker
          · simp only [stepWork, readNode, hm, Res.bind_raised]
          · have hrest : (tally 1 (advance 1 s)).ahead = rest := by
              have := ahead_advance 1 s
              rwa [hahead] at this
            have hfield : takeField (tally 1 (advance 1 s)) =
                .ok (BitVec.ofNat 9 (valOf (rest.take 9))) (advance 9 (tally 1 (advance 1 s))) := by
              obtain ⟨hshort, -⟩ | ⟨-, hf⟩ := takeField_cases (s := tally 1 (advance 1 s)) ho
              · rw [hrest] at hshort; omega
              · rw [hf, hrest]
            have hone : BitVec.ofNat 1 (valOf [true]) = 1#1 := by decide
            simp only [stepWork, readNode, hm, Res.bind_ok, hone, if_true, hfield, Res.bind_assoc]
        · exact runOn_resume (fetchToken_eq_none hctx (by rw [hahead]; exact if_neg hlen)) h

/-- What stops at the first leaf met is a code (30_encoding.md R96). -/
theorem takeCode_eq_some {t : CodeTree} {bs p after : BitString} (h : takeCode t bs = some (p, after)) :
    bs = p ++ after ∧ ∃ y, t.isCode p y := by
  unfold CodeTree.isCode
  induction t generalizing bs p with
  | leaf y =>
    simp only [takeCode, Option.some.injEq, Prod.mk.injEq] at h
    obtain ⟨rfl, rfl⟩ := h
    exact ⟨rfl, y, CodeTree.follow_nil _⟩
  | node l r hl hr =>
    cases bs with
    | nil => cases h
    | cons b bs =>
      cases b with
      | false =>
        obtain ⟨⟨q, rest⟩, hq, heq⟩ := Option.map_eq_some_iff.mp h
        cases heq
        obtain ⟨rfl, y, hy⟩ := hl hq
        exact ⟨rfl, y, hy⟩
      | true =>
        obtain ⟨⟨q, rest⟩, hq, heq⟩ := Option.map_eq_some_iff.mp h
        cases heq
        obtain ⟨rfl, y, hy⟩ := hr hq
        exact ⟨rfl, y, hy⟩

/-- DECBODY takes a whole code, or goes on to the end of the bits (45_decoder.md R193). -/
theorem runOn_decbody {c : Cmd} {s : State} (h : s.phase = .run c .decbody) :
    (fetchToken s = none ∧ runOn s = turn c .decbody (stepWork .decbody s)) ∨
      ∃ path after y, s.inp.isOpen = true ∧ s.cur.isLeaf = false ∧ s.ahead = path ++ after ∧ s.cur.isCode path y ∧
        runOn s = turn c .decbody (needTree s fun t s => decodeToken t path s) := by
  have hctx : readerContext s = some (.code s.cur) := by rw [readerContext, h]
  cases ho : s.inp.isOpen with
  | false => exact .inl ⟨fetchToken_closed ho, runOn_resume (fetchToken_closed ho) h⟩
  | true =>
    cases hcur : s.cur with
    | leaf y =>
      have hnone := fetchToken_eq_none (s := s) (e := .emptyCode) hctx (by rw [hcur]; rfl)
      exact .inl ⟨hnone, runOn_resume hnone h⟩
    | node l r =>
      cases hcode : takeCode (.node l r) s.ahead with
      | none =>
        have hnone := fetchToken_eq_none (s := s) (e := .shortCode) hctx (by rw [hcur, decode, hcode])
        exact .inl ⟨hnone, runOn_resume hnone h⟩
      | some q =>
        obtain ⟨hahead, y, hy⟩ := takeCode_eq_some (p := q.1) (after := q.2) hcode
        have hsome := fetchToken_eq_some (s := s) (i := .code q.1) (after := q.2) hctx ho (by rw [hcur, decode, hcode])
        refine .inr ⟨q.1, q.2, y, rfl, rfl, hahead, hy, ?_⟩
        rw [runOn_token hsome, exec_code_run h]

/-- Every step but DECBODY goes on with the work of the step, token or not. -/
theorem runOn_run {c p : Cmd} {s : State} (h : s.phase = .run c p) (hp : p ≠ .decbody) :
    runOn s = turn c p (stepWork p s) := by
  cases p with
  | rdmagic => exact runOn_rdmagic h
  | rdtree => exact runOn_rdtree h
  | decbody => exact absurd rfl hp
  | _ => exact runOn_resume (fetchToken_noReader (by rw [readerContext, h])) h

theorem runOn_idle {s : State} (h : s.phase = .idle) : runOn s = .next s := by
  rw [runOn, fetchToken_noReader (by rw [readerContext, h]), resume, h]

/-! ### What follows a piece of work -/

theorem turn_raised_primitive {c p : Cmd} (hc : c.composite = false) {e : FaultKind} {u : State}
    (h : u.phase = .run c p) : turn c p (.raised e u) = .next (faultEntry e p.opcode u) := by
  rw [turn, unwind_primitive hc, settle_raised, h, Phase.opcode]

theorem turn_raised_composite {c p : Cmd} (hc : c.composite = true) {e : FaultKind} {u : State}
    (h : u.phase = .run c p) (ho : u.out.isOpen = true) :
    ∃ t, turn c p (.raised e u) = .next t ∧ u.abortsTo e p.opcode t := by
  have := settle_composite_raised hc e ho
  rwa [h, Phase.opcode] at this

theorem turn_last {c p : Cmd} (h : stepAfter p (stepsOf c) = none) (u : State) :
    turn c p (.ok true u) = settle (unwind c (.ok () u)) := by
  simp only [turn, h]

theorem turn_enter {c p q : Cmd} (h : stepAfter p (stepsOf c) = some q) {u v : State} {a : Unit}
    (hq : enterStep c q u = .ok a v) : turn c p (.ok true u) = .next v := by
  simp only [turn, h, hq]

theorem turn_enter_raised {c p q : Cmd} (h : stepAfter p (stepsOf c) = some q) {u v : State} {e : FaultKind}
    (hq : enterStep c q u = .raised e v) : turn c p (.ok true u) = settle (unwind c (.raised e v)) := by
  simp only [turn, h, hq]

/-! ### The work of the running step -/

/-- A step that is not taken piece by piece runs as a whole (log 1). -/
theorem stepWork_whole {p : Cmd} (hp : p ∉ [Cmd.rdtree, .decbody, .encbody]) (s : State) :
    stepWork p s = (primitiveBody p s).bind fun _ s => .ok true s := by
  cases p with
  | rdtree | decbody | encbody => exact absurd hp (by decide)
  | _ => rfl

theorem stepWork_rdtree (s : State) : stepWork .rdtree s = (readNode s).bind fun k s => acceptNode k s := rfl

theorem stepWork_decbody (s : State) : stepWork .decbody s =
    needTree s fun t s => (decodeLoop t (readFuel s) s).bind fun _ s => .ok true s := rfl

theorem stepWork_encbody (s : State) : stepWork .encbody s =
    (require s.status.codeValid .sequence s).bind fun _ s => encodeNext s := rfl

/-! ### The streams in a step -/

/-- Work that answers another value in the state it ends in. -/
theorem within_answer {α β : Type} {R : State → State → Prop} {s : State} {r : Res α} (b : β) (h : r.within R s) :
    (r.bind fun _ t => .ok b t).within R s := by
  cases r <;> exact h

theorem enterStep_streamStep (c p : Cmd) (s : State) : (enterStep c p s).within StreamStep s := by
  have hat : StreamStep s (atStep c p s) := .of_eq rfl rfl rfl
  cases p with
  | decbody =>
    exact within_answer () (streamStep_after hat (decbodyInit_streamStep _))
  | rdtree => exact (.of_eq rfl rfl rfl : StreamStep s (rdtreeInit (atStep c .rdtree s)))
  | _ => exact hat

theorem stepWork_streamStep (p : Cmd) (s : State) : (stepWork p s).within StreamStep s := by
  cases p with
  | rdtree => exact streamStep_bind (readNode_streamStep s) fun k t _ => acceptNode_streamStep k t
  | decbody =>
    rw [stepWork_decbody]
    exact needTree_streamStep fun t _ => within_answer true (decodeLoop_streamStep t (readFuel s) s)
  | encbody => exact streamStep_bind (require_streamStep _ _ s) fun _ t _ => encodeNext_streamStep t
  | _ =>
    rw [stepWork_whole (by decide)]
    exact within_answer true (primitiveBody_streamStep _ s)

theorem settle_unwind_streamStep {c : Cmd} {r : Res Unit} {s t : State} (hr : r.within StreamStep s)
    (h : settle (unwind c r) = .next t) : StreamStep s t :=
  settle_streamStep (unwind_streamStep c hr) h

theorem turn_streamStep {c p : Cmd} {r : Res Bool} {s t : State} (hr : r.within StreamStep s)
    (h : turn c p r = .next t) : StreamStep s t := by
  cases r with
  | refused r => cases h
  | raised e u => exact settle_unwind_streamStep (r := .raised e u) hr h
  | ok fin u =>
    cases fin with
    | false => exact Host.Outcome.next.inj h ▸ hr
    | true =>
      cases hnext : stepAfter p (stepsOf c) with
      | none => rw [turn_last hnext] at h; exact settle_unwind_streamStep (r := .ok () u) hr h
      | some q =>
        have henter : (enterStep c q u).within StreamStep s := streamStep_after hr (enterStep_streamStep c q u)
        cases hq : enterStep c q u with
        | ok a v =>
          rw [turn_enter hnext hq] at h; rw [hq] at henter
          exact Host.Outcome.next.inj h ▸ henter
        | raised e v =>
          rw [turn_enter_raised hnext hq] at h; rw [hq] at henter
          exact settle_unwind_streamStep (r := .raised e v) henter h
        | refused r => simp only [turn, hnext, hq] at h; cases h

/-- A running command that goes on keeps the streams in form and the host's list as it is. -/
theorem runOn_streamStep {s t : State} (h : runOn s = .next t) : StreamStep s t := by
  cases hphase : s.phase with
  | idle => rw [runOn_idle hphase] at h; exact Host.Outcome.next.inj h ▸ .refl s
  | run c p =>
    by_cases hp : p = .decbody
    · subst hp
      obtain ⟨-, hrun⟩ | ⟨path, _, _, _, _, _, _, hrun⟩ := runOn_decbody hphase
      · exact turn_streamStep (stepWork_streamStep .decbody s) (hrun ▸ h)
      · exact turn_streamStep (needTree_streamStep fun t _ => decodeToken_streamStep t path s) (hrun ▸ h)
    · exact turn_streamStep (stepWork_streamStep p s) (runOn_run hphase hp ▸ h)

/-! ### A command word -/

/-- The body of a command: its steps after `cleardata` for a composite one (00_scope.md R19, 44_encoder.md R178,
45_decoder.md R198). -/
def commandBody (c : Cmd) (s : State) : Res Unit :=
  if c.composite then runSteps c (stepsOf c) (cleardata s) else primitiveBody c s

theorem exec_opcode {c : Cmd} (hclear : c ≠ .clear) (s : State) :
    exec (decodeCommand c.opcode) s = runCommand c (commandBody c) s := by
  have hbody : commandBody c =
      if c.composite then fun s => runSteps c (stepsOf c) (cleardata s) else primitiveBody c := by
    funext s; unfold commandBody; split <;> rfl
  rw [hbody]
  cases hc : c.composite with
  | false => exact exec_primitive hc hclear s
  | true => exact exec_composite hc s

/-- Everything the meaning of a command word is: CLEAR, a reserved word, or a command between its acceptance and its end
(30_encoding.md R81, R82). -/
theorem exec_word_eq (w : BitVec 4) (s : State) :
    (w = 0xE#4 ∧ exec (decodeCommand w) s = gate true s fun s => .next (clearAll s)) ∨
      ((w = 0x0#4 ∨ w = 0xF#4) ∧ exec (decodeCommand w) s = illegalCommand w s) ∨
      ∃ c, c ≠ Cmd.clear ∧ c.opcode = w ∧ exec (decodeCommand w) s = runCommand c (commandBody c) s := by
  obtain (rfl | rfl) | ⟨c, rfl⟩ := reserved_or_opcode w
  · exact .inr (.inl ⟨.inl rfl, rfl⟩)
  · exact .inr (.inl ⟨.inr rfl, rfl⟩)
  · by_cases hclear : c = .clear
    · subst hclear; exact .inl ⟨rfl, rfl⟩
    · exact .inr (.inr ⟨c, hclear, rfl, exec_opcode hclear s⟩)

/-- While a command runs the meaning of a command word is the state itself (log 16). -/
theorem exec_word_busy {s : State} (h : s.status.busy = true) (w : BitVec 4) :
    exec (decodeCommand w) s = .next s := by
  obtain ⟨-, hw⟩ | ⟨-, hw⟩ | ⟨c, -, -, hw⟩ := exec_word_eq w s
  · rw [hw, gate_busy h]
  · rw [hw, illegalCommand, gate_busy h]
  · rw [hw, runCommand, gate_busy h]

theorem commandBody_streamStep (c : Cmd) (s : State) : (commandBody c s).within StreamStep s := by
  unfold commandBody
  split
  · exact streamStep_after (.of_eq rfl rfl rfl : StreamStep s (cleardata s)) (runSteps_streamStep c _ _)
  · exact primitiveBody_streamStep c s

theorem gate_streamStep {a : Bool} {s t : State} {k : State → Host.Outcome State Fault Refusal}
    (hk : k s = .next t → StreamStep s t) (h : gate a s k = .next t) : StreamStep s t := by
  obtain ⟨-, rfl⟩ | ⟨-, -, -, rfl⟩ | ⟨-, -, h⟩ := gate_cases h
  · exact .refl _
  · exact .of_eq rfl rfl rfl
  · exact hk h

theorem exec_word_streamStep {w : BitVec 4} {s t : State} (h : exec (decodeCommand w) s = .next t) :
    StreamStep s t := by
  obtain ⟨-, hw⟩ | ⟨-, hw⟩ | ⟨c, -, -, hw⟩ := exec_word_eq w s <;> rw [hw] at h
  · refine gate_streamStep (fun h => ?_) h
    cases h; exact .of_eq rfl rfl rfl
  · refine gate_streamStep (fun h => ?_) h
    cases h; exact .of_eq rfl rfl rfl
  · exact runCommand_streamStep (commandBody_streamStep c) h

/-! ### A command watched from its start -/

/-- Where the first step of an accepted command starts (44_encoder.md R178, 45_decoder.md R198). -/
def started (c : Cmd) (s : State) : State := if c.composite then cleardata (accept c s) else accept c s

theorem started_streamStep (c : Cmd) (s : State) : StreamStep s (started c s) := by
  unfold started; split <;> exact .of_eq rfl rfl rfl

/-- A command other than CLEAR has a first step, which it enters once the gate lets it pass. -/
theorem startCommand_eq {c : Cmd} (hclear : c ≠ .clear) (s : State) :
    ∃ p ps, stepsOf c = p :: ps ∧ startCommand c s = gate c.actsOnErr s fun s =>
      match enterStep c p (started c s) with
      | .ok _ t => .next t
      | .raised e t => settle (unwind c (.raised e t))
      | .refused r => .refused r := by
  cases c with
  | clear => exact absurd rfl hclear
  | _ => exact ⟨_, _, rfl, rfl⟩

theorem startCommand_clear (s : State) : startCommand .clear s = exec .clear s := by
  have hrun : ∀ k, gate true s k = if s.status.busy then .next s else k s := fun k => by simp [gate]
  rw [exec_clear, startCommand, Cmd.actsOnErr, hrun, hrun]
  split
  · rfl
  · next hbusy => exact exec_clear_idle (Bool.eq_false_iff.mpr hbusy)

theorem startCommand_streamStep {c : Cmd} {s t : State} (h : startCommand c s = .next t) : StreamStep s t := by
  by_cases hclear : c = .clear
  · subst hclear
    rw [startCommand_clear] at h
    exact exec_word_streamStep (w := 0xE#4) h
  · obtain ⟨p, ps, -, heq⟩ := startCommand_eq hclear s
    rw [heq] at h
    refine gate_streamStep (fun h => ?_) h
    have henter := streamStep_after (started_streamStep c s) (enterStep_streamStep c p (started c s))
    cases hq : enterStep c p (started c s) with
    | ok a u => rw [hq] at h henter; exact Host.Outcome.next.inj h ▸ henter
    | raised e u => rw [hq] at h henter; exact settle_unwind_streamStep (r := .raised e u) henter h
    | refused r => rw [hq] at h; cases h

/-- A word issued to be watched starts its command; a reserved one is executed at once (log 1). -/
theorem startWord_cases (w : BitVec 4) (s : State) :
    (∃ c, c.opcode = w ∧ startWord w s = startCommand c s) ∨
      ((w = 0x0#4 ∨ w = 0xF#4) ∧ startWord w s = exec (decodeCommand w) s) := by
  have hmap := ofWord_map_opcode w
  rw [startWord]
  cases hw : Cmd.ofWord w with
  | some c =>
    rw [hw, Option.map_some] at hmap
    split at hmap
    · cases hmap
    · exact .inl ⟨c, Option.some.inj hmap, rfl⟩
  | none =>
    rw [hw, Option.map_none] at hmap
    split at hmap
    · next hres => exact .inr ⟨hres, rfl⟩
    · cases hmap

/-- What the host does with no command running: it binds or changes a stream, or the streams keep their form. -/
theorem hostActs_streams {ev : HostEvent} {s t : State} (h : hostActs ev s = .next t) :
    (∃ bytes, ev = .bindIn bytes ∧ t = bindInput bytes s) ∨ (ev = .bindOut ∧ t = bindOutput s) ∨
      (∃ bytes, ev = .changeIn bytes ∧ t = changeInput bytes s) ∨ StreamStep s t := by
  cases ev with
  | bindIn bytes => exact .inl ⟨bytes, rfl, (Host.Outcome.next.inj h).symm⟩
  | bindOut => exact .inr (.inl ⟨rfl, (Host.Outcome.next.inj h).symm⟩)
  | changeIn bytes => exact .inr (.inr (.inl ⟨bytes, rfl, (Host.Outcome.next.inj h).symm⟩))
  | command w => exact .inr (.inr (.inr (exec_word_streamStep h)))
  | start w =>
    refine .inr (.inr (.inr ?_))
    obtain ⟨c, -, hc⟩ | ⟨-, hc⟩ := startWord_cases w s
    · exact startCommand_streamStep (hc.symm.trans h)
    · exact exec_word_streamStep (hc.symm.trans h)
  | wait => exact .inr (.inr (.inr (Host.Outcome.next.inj h ▸ .refl s)))
  | reset => exact .inr (.inr (.inr (Host.Outcome.next.inj h ▸ applyReset_streamStep s)))

/-! ### Reset in the middle of a command -/

theorem applyReset_of_run {c p : Cmd} {s : State} (h : s.phase = .run c p) :
    applyReset s =
      { resetBlock s with inp := cutIn c s.draws s.inp, out := cutOut c s.draws s.out, draws := s.draws + 1 } := by
  rw [applyReset, h]

end Sys2Proof.Machine

namespace Sys2Proof.Proofs

open Sys2Proof.Machine

/-- Settles O5: the host's event is the word offered, taken off the port. -/
theorem stepRunsOfferedCommand : Obligations.StepRunsOfferedCommand := by
  intro s w rest hbusy hport
  rw [step_of_event hport hbusy, hostActs]

/-- Settles O6: with nothing to do for the host, with an offer that waits, and with a wait taken off, the running command
goes on, which here is the token fetched. -/
theorem stepRunsTokenAtPosition : Obligations.StepRunsTokenAtPosition := by
  intro s c i after hbusy hctx ho hdec
  have hrun : ∀ port, runOn { s with port := port } = exec i { s with port := port } := fun port =>
    runOn_token (fetchToken_eq_some (s := { s with port := port }) hctx ho hdec)
  refine ⟨fun hport => ?_, fun w rest hport => ?_, fun rest hport => ?_⟩
  · rw [step_of_running hport hbusy]; exact hrun s.port
  · rw [step_of_event_busy hport hbusy]; exact hrun s.port
  · rw [step_of_event_busy hport hbusy]; exact hrun rest

/-- Settles O7: an idle block with no event waits; the gate answers the state itself while `BUSY = 1`; the running command
that goes on instead leaves the port alone. -/
theorem busyBlockAcceptsNothing : Obligations.BusyBlockAcceptsNothing := by
  refine ⟨fun s hbusy hport => step_of_idle hport hbusy, fun s w hbusy => exec_word_busy hbusy w, ?_⟩
  intro s t w rest hbusy hport h
  rw [step_of_event_busy hport hbusy] at h
  exact (runOn_streamStep h).port.trans hport

/-- Settles O10: the events of an idle block, and of a running one by the step that runs. -/
theorem hostBindsAndChangesStreams : Obligations.HostBindsAndChangesStreams := by
  intro s rest bytes
  refine ⟨fun hbusy => ⟨fun hport => ?_, fun hport => ?_⟩, fun hport hwhen => ?_, fun hbusy hwhich => ?_⟩
  · rw [step_of_event hport hbusy]; rfl
  · rw [step_of_event hport hbusy]; rfl
  · rw [← bitsOfBytes_length]
    cases hbusy : s.status.busy with
    | false => rw [step_of_event hport hbusy]; rfl
    | true =>
      obtain hidle | ⟨c, p, hphase, hp⟩ := hwhen
      · exact absurd hidle (by simp [hbusy])
      · have hbetween : s.phase.betweenPasses = true := by
          rw [hphase, Phase.betweenPasses]
          revert hp; cases p <;> decide
        rw [step_of_event_busy hport hbusy, hostActsBusy, if_pos hbetween]
        rfl
  · obtain hport | hport | ⟨hport, c, p, hphase, hp⟩ := hwhich
    · rw [step_of_event_busy hport hbusy, hostActsBusy]
    · rw [step_of_event_busy hport hbusy, hostActsBusy]
    · have hbetween : s.phase.betweenPasses = false := by
        rw [hphase, Phase.betweenPasses]
        revert hp; cases p <;> decide
      rw [step_of_event_busy hport hbusy, hostActsBusy, hbetween]
      rfl

/-- Settles O2: the block takes its reset values, and the draws for the streams keep their bits and their form. -/
theorem resetAbandonsRunningCommand : Obligations.ResetAbandonsRunningCommand := by
  intro s rest c p hport hbusy hphase hwf
  have hstream := applyReset_streamStep { s with port := rest }
  have hform := hstream.form hwf
  refine ⟨_, step_of_event_busy hport hbusy, ?_, hstream.bits, ((Memory.wf_iff _ _).mp hform).2.1, hstream.written,
    hform⟩
  rw [applyReset_of_run (s := { s with port := rest }) hphase]
  rfl

/-- Settles O3: an idle block without a fault, a tree or codes. -/
theorem resetStateMeetsInvariant : Obligations.ResetStateMeetsInvariant where
  memory := reset_memory_wf
  busy := by decide
  done := nofun
  noError _ := ⟨rfl, rfl⟩
  error := nofun
  tree := nofun
  code := nofun
  queue := rfl
  stackEmpty _ := rfl
  inSequence := nofun
  runsOnError := nofun
  reading := nofun
  decoding := nofun

/-- Settles O60: bound, changed and reset streams by what these events do; a command keeps the bits of the input, extends
the output at most, and leaves a closed output as it is (`StreamStep`). -/
theorem inputReadOnlyOutputAppendOnly : Obligations.InputReadOnlyOutputAppendOnly := by
  intro s t h
  have keeps : ∀ {port : List HostEvent}, StreamStep { s with port := port } t →
      t.inp.bits = s.inp.bits ∧ s.out.bits <+: t.out.bits ∧ (s.out.closed = true → t.out = s.out) :=
    fun hs => ⟨hs.bits, hs.written, hs.shut⟩
  obtain ⟨-, -, rfl⟩ | ⟨ev, rest, hport, -, hacts⟩ | ⟨bytes, rest, hport, -, -, rfl⟩ | ⟨rest, -, -, rfl⟩ | ⟨-, port, hrun⟩ :=
    step_cases h
  · exact ⟨fun _ => rfl, fun _ => ⟨List.prefix_rfl, fun _ => rfl⟩⟩
  · obtain ⟨bytes, rfl, rfl⟩ | ⟨rfl, rfl⟩ | ⟨bytes, rfl, rfl⟩ | hs := hostActs_streams hacts
    · exact ⟨fun hno => absurd hport (hno bytes rest).1, fun _ => ⟨List.prefix_rfl, fun _ => rfl⟩⟩
    · exact ⟨fun _ => rfl, fun hno => absurd hport (hno rest)⟩
    · exact ⟨fun hno => absurd hport (hno bytes rest).2, fun _ => ⟨List.prefix_rfl, fun _ => rfl⟩⟩
    · exact ⟨fun _ => (keeps hs).1, fun _ => (keeps hs).2⟩
  · exact ⟨fun hno => absurd hport (hno bytes rest).2, fun _ => ⟨List.prefix_rfl, fun _ => rfl⟩⟩
  · have hs := applyReset_streamStep { s with port := rest }
    exact ⟨fun _ => (keeps hs).1, fun _ => (keeps hs).2⟩
  · have hs := runOn_streamStep hrun
    exact ⟨fun _ => (keeps hs).1, fun _ => (keeps hs).2⟩

/-- Settles O27: fault entry as defined, and the table of the nine codes. -/
theorem faultEntryRecordsCodeAndCommand : Obligations.FaultEntryRecordsCodeAndCommand :=
  ⟨fun _ _ _ => rfl, rfl⟩

/-- Settles O31: the eight bits for each value of the six flags. -/
theorem statusWordLayout : Obligations.StatusWordLayout := by
  rintro ⟨busy, done, err, freqValid, treeValid, codeValid⟩
  revert busy done err freqValid treeValid codeValid
  decide

end Sys2Proof.Proofs
end

section
/-! PROOFS. The invariant of the machine under every step (10_state.md R25, R28 to R38; 60_exceptions.md R220). -/

namespace Sys2Proof.Machine

/-! ### The parts of the invariant -/

/-- The error registers agree with `ERR` (10_state.md R36, 60_exceptions.md R220). -/
structure RecordOk (s : State) : Prop where
  noError : s.status.err = false → s.errcode = 0#4 ∧ s.errcmd = 0#4
  error : s.status.err = true → 1 ≤ s.errcode.toNat ∧ s.errcode.toNat ≤ 9

/-- What holds of the data and of the error registers at every point of a command. -/
structure CoreOk (s : State) : Prop where
  data : DataOk s
  record : RecordOk s

/-- What holds while command `c` runs, at every point of a step (10_state.md R34, R35; 30_encoding.md R83). -/
structure Running (c : Cmd) (s : State) : Prop where
  core : CoreOk s
  busy : s.status.busy = true
  notDone : s.status.done = false
  onError : s.status.err = true → c = .close

theorem State.Inv.coreOk {s : State} (h : s.Inv) : CoreOk s := ⟨h.dataOk, h.noError, h.error⟩

theorem State.Inv.running {c p : Cmd} {s : State} (h : s.Inv) (hp : s.phase = .run c p) : Running c s := by
  have hbusy : s.status.busy = true := h.busy.mpr (by rw [hp]; exact nofun)
  exact ⟨h.coreOk, hbusy, h.done hbusy, h.runsOnError c p hp⟩

theorem State.Inv.idle {s : State} (h : s.Inv) (hb : s.status.busy = false) : s.phase = .idle := by
  by_contra hne
  have := h.busy.mpr hne
  rw [hb] at this
  cases this

theorem State.Inv.stack_nil {s : State} (h : s.Inv) (hb : s.status.busy = false) : s.stack = [] :=
  h.stackEmpty (by rw [h.idle hb]; exact nofun)

/-- The invariant of an idle block. -/
theorem inv_of_idle {s : State} (h : CoreOk s) (hb : s.status.busy = false) (hp : s.phase = .idle)
    (hk : s.stack = []) : s.Inv where
  memory := h.data.memory
  busy := by simp [hb, hp]
  done := by simp [hb]
  noError := h.record.noError
  error := h.record.error
  tree := h.data.tree
  code := h.data.code
  queue := h.data.queue
  stackEmpty _ := hk
  inSequence := by simp [hp]
  runsOnError := by simp [hp]
  reading := by simp [hp]
  decoding := by simp [hp]

/-- What holds between two pieces of RDTREE (10_state.md R32, 43_tree_codec.md R154). -/
def Reading (s : State) : Prop :=
  s.status.treeValid = false ∧ s.status.codeValid = false ∧ s.tree = none ∧ s.nnode.toNat = stackNodes s.stack ∧
    s.nnode.toNat ≤ Config.nodeCap

/-- `CUR` is an internal node of the tree `t` (10_state.md R31). -/
def PointsInto (t : CodeTree) (s : State) : Prop :=
  t.isLeaf = false ∧ ∃ path, t.follow path = some s.cur ∧ s.cur.isLeaf = false

/-- What holds between two pieces of DECBODY (45_decoder.md R194). -/
def Decoding (s : State) : Prop := s.status.treeValid = true ∧ ∃ t, s.tree = some t ∧ PointsInto t s

/-- The invariant of a running command. -/
theorem inv_of_running {c p : Cmd} {s : State} (h : Running c s) (hp : s.phase = .run c p) (hmem : p ∈ stepsOf c)
    (hk : p ≠ .rdtree → s.stack = []) (hr : p = .rdtree → Reading s) (hd : p = .decbody → Decoding s) : s.Inv where
  memory := h.core.data.memory
  busy := by simp [h.busy, hp]
  done _ := h.notDone
  noError := h.core.record.noError
  error := h.core.record.error
  tree := h.core.data.tree
  code := h.core.data.code
  queue := h.core.data.queue
  stackEmpty hno := hk fun heq => hno c (heq ▸ hp)
  inSequence c' p' hp' := by cases hp.symm.trans hp'; exact hmem
  runsOnError c' p' hp' he := by cases hp.symm.trans hp'; exact h.onError he
  reading c' hp' := by cases hp.symm.trans hp'; exact hr rfl
  decoding c' hp' := by
    cases hp.symm.trans hp'
    obtain ⟨hv, t, ht, hroot, path, hpath, hcur⟩ := hd rfl
    exact ⟨hv, t, path, ht, hroot, hpath, hcur⟩

theorem State.Inv.decodingState {c : Cmd} {s : State} (h : s.Inv) (hp : s.phase = .run c .decbody) : Decoding s := by
  obtain ⟨hv, t, path, ht, hroot, hpath, hcur⟩ := h.decoding c hp
  exact ⟨hv, t, ht, hroot, path, hpath, hcur⟩

/-! ### Work that leaves the command port and the error registers alone -/

/-- The elements that say which command runs and which fault is recorded. -/
def controlFields : List Field := [.busy, .done, .err, .errcode, .errcmd]

theorem RecordOk.of_frame {c : List Field} {s t : State} (h : RecordOk s) (hf : OnlyChanges c s t)
    (hc : ∀ f ∈ controlFields, f ∉ c) : RecordOk t := by
  have herr : t.status.err = s.status.err := hf .err (hc _ (by decide))
  have hcode : t.errcode = s.errcode := hf .errcode (hc _ (by decide))
  have hcmd : t.errcmd = s.errcmd := hf .errcmd (hc _ (by decide))
  exact ⟨by rw [herr, hcode, hcmd]; exact h.noError, by rw [herr, hcode]; exact h.error⟩

theorem Running.of_frame {c : Cmd} {l : List Field} {s t : State} (h : Running c s) (hd : DataOk t)
    (hf : OnlyChanges l s t) (hl : ∀ f ∈ controlFields, f ∉ l) : Running c t := by
  have hbusy : t.status.busy = s.status.busy := hf .busy (hl _ (by decide))
  have hdone : t.status.done = s.status.done := hf .done (hl _ (by decide))
  have herr : t.status.err = s.status.err := hf .err (hl _ (by decide))
  exact ⟨⟨hd, h.core.record.of_frame hf hl⟩, hbusy.trans h.busy, hdone.trans h.notDone, by rw [herr]; exact h.onError⟩

theorem coreOk_within {α : Type} {l : List Field} {s a b : State} {r : Res α} (h : RecordOk s)
    (hd : r.within (fun _ t => DataOk t) a) (hf : r.within (OnlyChanges l) s) (hl : ∀ f ∈ controlFields, f ∉ l) :
    r.within (fun _ t => CoreOk t) b := by
  cases r with
  | ok a t => exact ⟨hd, h.of_frame hf hl⟩
  | raised e t => exact ⟨hd, h.of_frame hf hl⟩
  | refused r => trivial

/-! ### How a command ends -/

theorem FaultKind.code_range (e : FaultKind) : 1 ≤ e.code.toNat ∧ e.code.toNat ≤ 9 := by cases e <;> decide

theorem finish_inv {s : State} (h : CoreOk s) : (finish s).Inv :=
  inv_of_idle ⟨finish_dataOk h.data, h.record.noError, h.record.error⟩ rfl rfl rfl

theorem faultEntry_inv (e : FaultKind) (op : BitVec 4) {s : State} (h : DataOk s) : (faultEntry e op s).Inv :=
  inv_of_idle ⟨faultEntry_dataOk e op h, nofun, fun _ => e.code_range⟩ rfl rfl rfl

theorem clearAll_inv {s : State} (h : Memory.wf s.inp s.out = true) : (clearAll s).Inv :=
  inv_of_idle ⟨.of_dropped h rfl rfl rfl, fun _ => ⟨rfl, rfl⟩, nofun⟩ rfl rfl rfl

theorem ignored_inv {s : State} (h : s.Inv) (hb : s.status.busy = false) : (ignored s).Inv :=
  inv_of_idle ⟨⟨h.memory, h.tree, h.code, h.queue⟩, h.noError, h.error⟩ hb (h.idle hb) (h.stack_nil hb)

theorem unwind_ok_frame (c : Cmd) (t : State) : (unwind c (.ok () t)).within
    (OnlyChanges [.freq, .tree, .code, .pq, .seq, .nnode, .freqValid, .treeValid, .codeValid]) t := by
  cases hc : c.composite with
  | false => rw [unwind_primitive hc]; exact .refl _ t
  | true => rw [unwind_composite_ok hc]; exact cleardata_frame t

theorem unwind_raised_frame (c : Cmd) (e : FaultKind) (t : State) : (unwind c (.raised e t)).within
    (OnlyChanges
      [.freq, .tree, .code, .pq, .seq, .nnode, .freqValid, .treeValid, .codeValid, .inp, .out, .draws]) t := by
  cases hc : c.composite with
  | false => rw [unwind_primitive hc]; exact .refl _ t
  | true =>
    cases ho : t.out.isOpen with
    | true =>
      rw [unwind_composite_raised hc e ho]
      exact ((closedStreams_frame t).mono (by decide)).trans _ _ _ ((cleardata_frame _).mono (by decide))
    | false => simp only [unwind, hc, if_true, closeStreams_refused ho, Res.bind_refused, Res.within]

theorem unwind_coreOk (c : Cmd) {s : State} {r : Res Unit} (h : r.within (fun _ t => CoreOk t) s) :
    (unwind c r).within (fun _ t => CoreOk t) s := by
  have hdata := unwind_dataOk c (within_mono (fun _ h => h.data) h)
  cases r with
  | refused r => trivial
  | ok a t => exact coreOk_within (CoreOk.record h) hdata (unwind_ok_frame c t) (by decide)
  | raised e t => exact coreOk_within (CoreOk.record h) hdata (unwind_raised_frame c e t) (by decide)

theorem settle_inv {s t : State} {r : Res Unit} (h : r.within (fun _ t => CoreOk t) s) (ht : settle r = .next t) :
    t.Inv := by
  cases r with
  | ok a u => cases ht; exact finish_inv h
  | raised e u => cases ht; exact faultEntry_inv _ _ h.data
  | refused r => cases ht

theorem settle_unwind_inv {c : Cmd} {s t : State} {r : Res Unit} (h : r.within (fun _ t => CoreOk t) s)
    (ht : settle (unwind c r) = .next t) : t.Inv := settle_inv (unwind_coreOk c h) ht

/-! ### A command word -/

theorem accept_coreOk (c : Cmd) {s : State} (h : CoreOk s) : CoreOk (accept c s) :=
  ⟨accept_dataOk c h.data, h.record.noError, h.record.error⟩

theorem commandBody_coreOk (c : Cmd) {s : State} (h : CoreOk s) : (commandBody c s).within (fun _ t => CoreOk t) s := by
  unfold commandBody
  split
  · have hs : CoreOk (cleardata s) := ⟨cleardata_dataOk h.data, h.record.noError, h.record.error⟩
    exact coreOk_within hs.record (runSteps_dataOk c _ hs.data) (runSteps_frame c _ _) (by decide)
  · exact coreOk_within h.record (primitiveBody_dataOk c h.data) (primitiveBody_frame c s) (by cases c <;> decide)

theorem gate_inv {a : Bool} {s t : State} {k : State → Host.Outcome State Fault Refusal} (h : s.Inv)
    (hk : s.status.busy = false → (s.status.err = true → a = true) → k s = .next t → t.Inv)
    (ht : gate a s k = .next t) : t.Inv := by
  obtain ⟨-, rfl⟩ | ⟨hb, -, -, rfl⟩ | ⟨hb, he, hrun⟩ := gate_cases ht
  · exact h
  · exact ignored_inv h hb
  · exact hk hb he hrun

theorem exec_word_inv {w : BitVec 4} {s t : State} (h : s.Inv) (ht : exec (decodeCommand w) s = .next t) : t.Inv := by
  obtain ⟨-, hw⟩ | ⟨-, hw⟩ | ⟨c, -, -, hw⟩ := exec_word_eq w s <;> rw [hw] at ht
  · refine gate_inv h (fun _ _ ht => ?_) ht
    cases ht; exact clearAll_inv h.memory
  · refine gate_inv h (fun _ _ ht => ?_) ht
    cases ht; exact faultEntry_inv _ _ h.dataOk
  · exact gate_inv h (fun _ _ ht => settle_unwind_inv (commandBody_coreOk c (accept_coreOk c h.coreOk)) ht) ht

/-! ### A step entered -/

/-- What a piece of work of command `c` leaves behind: the invariant when the step goes on, the data and the
record when it ends. -/
def PieceOk (c : Cmd) : Res Bool → Prop
  | .ok false t => t.Inv
  | .ok true t => Running c t ∧ t.stack = []
  | .raised _ t => CoreOk t
  | .refused _ => True

/-- On a tree with an internal root DECBODY points `CUR` at the root (45_decoder.md R193). -/
theorem decbodyInit_internal {s : State} {t : CodeTree} (hv : s.status.treeValid = true) (ht : s.tree = some t)
    (hroot : t.isLeaf = false) : decbodyInit s = .ok t (point t s) := by
  rw [decbodyInit, needTree_some hv ht, hroot, Bool.not_false, require_true, Res.bind_ok]
  rfl

/-- On a lone leaf it raises LeafRootError and changes nothing (45_decoder.md R195). -/
theorem decbodyInit_leaf {s : State} {t : CodeTree} (hv : s.status.treeValid = true) (ht : s.tree = some t)
    (hroot : t.isLeaf = true) : decbodyInit s = .raised .leafRoot s := by
  rw [decbodyInit, needTree_some hv ht, hroot, Bool.not_true, require_false, Res.bind_raised]

/-- Everything the checks of DECBODY can come to (45_decoder.md R195, 60_exceptions.md R228). -/
theorem decbodyInit_cases (s : State) :
    decbodyInit s = .raised .sequence s ∨ decbodyInit s = .raised .leafRoot s ∨
      ∃ t, s.status.treeValid = true ∧ s.tree = some t ∧ t.isLeaf = false ∧ decbodyInit s = .ok t (point t s) := by
  cases hv : s.status.treeValid with
  | false => exact .inl (needTree_none hv _)
  | true =>
    cases ht : s.tree with
    | none => exact .inl (needTree_of_missing (by rw [validTree, hv, ht]; rfl) _)
    | some t =>
      cases hroot : t.isLeaf with
      | true => exact .inr (.inl (decbodyInit_leaf hv ht hroot))
      | false => exact .inr (.inr ⟨t, rfl, rfl, hroot, decbodyInit_internal hv ht hroot⟩)

/-- A step entered by a running command: it waits for its first piece, or DECBODY has refused the tree. -/
theorem enterStep_inv {c p : Cmd} {s : State} (h : Running c s) (hk : s.stack = []) (hp : p ∈ stepsOf c) :
    match enterStep c p s with
    | .ok _ t => t.Inv
    | .raised _ t => CoreOk t
    | .refused _ => True := by
  have hat : Running c (atStep c p s) := h.of_frame (atStep_dataOk c p h.core.data) (atStep_frame c p s) (by decide)
  cases p with
  | rdtree =>
    refine inv_of_running (c := c) (p := .rdtree) ?_ rfl hp (fun hne => absurd rfl hne) (fun _ => ?_) nofun
    · exact hat.of_frame (rdtreeInit_dataOk hat.core.data) (rdtreeInit_frame _) (by decide)
    · exact ⟨rfl, rfl, rfl, rfl, Nat.zero_le _⟩
  | decbody =>
    obtain hinit | hinit | ⟨t, hv, ht, hroot, hinit⟩ := decbodyInit_cases (atStep c .decbody s)
    · rw [enterStep, hinit]; exact hat.core
    · rw [enterStep, hinit]; exact hat.core
    · rw [enterStep, hinit]
      have hpoint : Running c (point t (atStep c .decbody s)) :=
        hat.of_frame (hat.core.data.of_frame (.of_eq rfl rfl rfl) (pointAt_frame t _) (by decide)) (pointAt_frame t _)
          (by decide)
      refine inv_of_running (p := .decbody) hpoint rfl hp (fun _ => hk) nofun fun _ => ?_
      exact ⟨hv, t, ht, hroot, [], CodeTree.follow_nil t, hroot⟩
  | _ => exact inv_of_running hat rfl hp (fun _ => hk) nofun nofun

theorem stepAfter_mem {p q : Cmd} {ps : List Cmd} (h : stepAfter p ps = some q) : q ∈ ps := by
  induction ps with
  | nil => cases h
  | cons r ps ih =>
    rw [stepAfter] at h
    split at h
    · exact List.mem_cons_of_mem _ (List.mem_of_head? h)
    · exact List.mem_cons_of_mem _ (ih h)

theorem turn_inv {c p : Cmd} {r : Res Bool} {t : State} (hr : PieceOk c r) (ht : turn c p r = .next t) : t.Inv := by
  cases r with
  | refused r => cases ht
  | raised e u => exact settle_unwind_inv (s := u) (r := .raised e u) hr ht
  | ok fin u =>
    cases fin with
    | false => cases ht; exact hr
    | true =>
      obtain ⟨hrun, hk⟩ := hr
      cases hnext : stepAfter p (stepsOf c) with
      | none => rw [turn_last hnext] at ht; exact settle_unwind_inv (s := u) (r := .ok () u) hrun.core ht
      | some q =>
        have henter := enterStep_inv hrun hk (stepAfter_mem hnext)
        cases hq : enterStep c q u with
        | ok a v => rw [turn_enter hnext hq] at ht; rw [hq] at henter; cases ht; exact henter
        | raised e v =>
          rw [turn_enter_raised hnext hq] at ht; rw [hq] at henter
          exact settle_unwind_inv (s := v) (r := .raised e v) henter ht
        | refused r => simp only [turn, hnext, hq] at ht; cases ht

/-! ### The pieces of a step -/

/-- A step that runs as a whole, DECBODY that runs on to its end, and a byte of ENCBODY leave the stack empty. -/
theorem pieceOk_of_frame {c : Cmd} {l : List Field} {s : State} {r : Res Bool} (h : Running c s) (hk : s.stack = [])
    (hd : r.within (fun _ t => DataOk t) s) (hf : r.within (OnlyChanges l) s) (hl : ∀ f ∈ .stack :: controlFields, f ∉ l)
    (hgo : ∀ t, r = .ok false t → t.Inv) : PieceOk c r := by
  have hcontrol : ∀ f ∈ controlFields, f ∉ l := fun f hm => hl f (List.mem_cons_of_mem _ hm)
  cases r with
  | refused r => trivial
  | raised e t => exact ⟨hd, h.core.record.of_frame hf hcontrol⟩
  | ok fin t =>
    cases fin with
    | false => exact hgo t rfl
    | true => exact ⟨h.of_frame hd hf hcontrol, (hf .stack (hl _ (List.mem_cons_self ..))).trans hk⟩

theorem answer_ne_false {α : Type} {r : Res α} {t : State} : (r.bind fun _ s => .ok true s) ≠ .ok false t := by
  cases r <;> nofun

theorem wholeStep_pieceOk {c p : Cmd} {s : State} (hp : p ∉ [Cmd.rdtree, .decbody, .encbody]) (h : Running c s)
    (hk : s.stack = []) : PieceOk c (stepWork p s) := by
  rw [stepWork_whole hp]
  exact pieceOk_of_frame (l := bodyChanges p) h hk (within_answer true (primitiveBody_dataOk p h.core.data))
    (within_answer true (primitiveBody_frame p s)) (by revert hp; cases p <;> decide)
    fun t ht => absurd ht answer_ne_false

theorem encbody_pieceOk {c : Cmd} {s : State} (h : Running c s) (hp : s.phase = .run c .encbody)
    (hmem : .encbody ∈ stepsOf c) (hk : s.stack = []) : PieceOk c (stepWork .encbody s) := by
  have hframe : (stepWork .encbody s).within (OnlyChanges (bodyChanges .encbody)) s :=
    frame_bind (require_frame _ _ _ _) fun _ t _ => encodeNext_frame t
  have hdata := dataOk_within h.core.data (stepWork_streamStep .encbody s) hframe (by decide)
  refine pieceOk_of_frame h hk hdata hframe (by decide) fun t ht => ?_
  rw [ht] at hdata hframe
  have hphase : t.phase = s.phase := hframe .phase (by decide)
  have hstack : t.stack = s.stack := hframe .stack (by decide)
  exact inv_of_running (h.of_frame hdata hframe (by decide)) (hphase.trans hp) hmem (fun _ => hstack.trans hk) nofun nofun

theorem decbody_pieceOk {c : Cmd} {s : State} (h : Running c s) (hk : s.stack = []) :
    PieceOk c (stepWork .decbody s) := by
  rw [stepWork_decbody]
  have hframe : ∀ t, ((decodeLoop t (readFuel s) s).bind fun _ s => .ok true s).within (OnlyChanges [.inp, .out, .cur]) s :=
    fun t => within_answer true (decodeLoop_frame t _ s)
  refine pieceOk_of_frame (l := [.inp, .out, .cur]) h hk ?_ (needTree_frame hframe) (by decide) fun t ht => ?_
  · refine dataOk_within h.core.data ?_ (needTree_frame hframe) (by decide)
    exact needTree_streamStep fun t _ => within_answer true (decodeLoop_streamStep t _ s)
  · unfold needTree at ht
    split at ht
    · cases ht
    · exact absurd ht answer_ne_false

/-- The child of an internal node is one bit further from the root. -/
theorem follow_child {t u : CodeTree} {path : BitString} (h : t.follow path = some u) (hu : u.isLeaf = false) (b : Bool) :
    t.follow (path ++ [b]) = some (u.child b) := by
  rw [CodeTree.follow_append, h, Option.bind_some]
  cases u with
  | leaf y => cases hu
  | node l r => cases b <;> simp [CodeTree.child]

/-- A bit that does not end the body leaves `CUR` at an internal node (45_decoder.md R194). -/
theorem decodeBit_pointsInto {t : CodeTree} {b : Bool} {s u : State} (h : PointsInto t s)
    (hr : decodeBit t b s = .ok false u) : PointsInto t u := by
  obtain ⟨hroot, path, hpath, hcur⟩ := h
  obtain ⟨l, r, hchild, hbit⟩ | ⟨-, hbit⟩ | ⟨y, -, -, ⟨-, hbit⟩ | ⟨-, hbit⟩⟩ := decodeBit_cases t b s <;> rw [hbit] at hr <;>
    cases hr
  · exact ⟨hroot, path ++ [b], by rw [follow_child hpath hcur b, hchild]; rfl, rfl⟩
  · exact ⟨hroot, [], CodeTree.follow_nil t, hroot⟩

theorem decodeToken_pointsInto {t : CodeTree} {path : BitString} {s u : State} (h : PointsInto t s)
    (hr : decodeToken t path s = .ok false u) : PointsInto t u := by
  induction path generalizing s with
  | nil => cases hr; exact h
  | cons b bs ih =>
    obtain ⟨v, s₁, hread, hr⟩ := Res.bind_eq_ok hr
    have h₁ : PointsInto t s₁ := by
      have hframe := inRead_frame 1 s
      rw [hread] at hframe
      have hcur : s₁.cur = s.cur := hframe .cur (by decide)
      rw [PointsInto, hcur]; exact h
    cases v with
    | none => cases hr
    | some v =>
      obtain ⟨fin, s₂, hbit, hr⟩ := Res.bind_eq_ok hr
      cases fin with
      | true => cases hr
      | false => exact ih (decodeBit_pointsInto h₁ hbit) hr

theorem codeToken_pieceOk {c : Cmd} {s : State} (h : Running c s) (hp : s.phase = .run c .decbody)
    (hmem : .decbody ∈ stepsOf c) (hk : s.stack = []) (hd : Decoding s) (path : BitString) :
    PieceOk c (needTree s fun t s => decodeToken t path s) := by
  obtain ⟨hv, t, ht, hpoint⟩ := hd
  rw [needTree_some hv ht]
  have hframe := decodeToken_frame t path s
  have hdata := dataOk_within h.core.data (decodeToken_streamStep t path s) hframe (by decide)
  refine pieceOk_of_frame h hk hdata hframe (by decide) fun u hu => ?_
  rw [hu] at hdata hframe
  have hphase : u.phase = s.phase := hframe .phase (by decide)
  have hstack : u.stack = s.stack := hframe .stack (by decide)
  have hvalid : u.status.treeValid = s.status.treeValid := hframe .treeValid (by decide)
  have htree : u.tree = s.tree := hframe .tree (by decide)
  exact inv_of_running (h.of_frame hdata hframe (by decide)) (hphase.trans hp) hmem (fun _ => hstack.trans hk) nofun
    fun _ => ⟨hvalid.trans hv, t, htree.trans ht, decodeToken_pointsInto hpoint hu⟩

/-- A node token keeps what holds between two pieces of RDTREE, or ends it with a bounded tree or a header fault
(43_tree_codec.md R154 to R158). -/
theorem rdtree_pieceOk {c : Cmd} {s : State} (h : Running c s) (hp : s.phase = .run c .rdtree)
    (hmem : .rdtree ∈ stepsOf c) (hr : Reading s) : PieceOk c (stepWork .rdtree s) := by
  obtain ⟨htree, hcode, hnone, hnodes, hcap⟩ := hr
  rw [stepWork_rdtree]
  cases ho : s.inp.isOpen with
  | false => rw [readNode, takeMarker, inRead_refused ho]; trivial
  | true =>
    have hframe := readNode_frame s
    have hdata := dataOk_within h.core.data (readNode_streamStep s) hframe (by decide)
    obtain ⟨e, u, hread, -⟩ | ⟨hn, hread⟩ := readNode_cases ho
    · rw [hread] at hframe hdata ⊢
      exact ⟨hdata, h.core.record.of_frame hframe (by decide)⟩
    · obtain ⟨k, u, hread, hu⟩ : ∃ k u, readNode s = .ok k u ∧ u.nnode.toNat = s.nnode.toNat + 1 := by
        have hlt : s.nnode.toNat + 1 ≤ Config.nodeCap := by omega
        obtain ⟨rest, -, hread⟩ | ⟨y, rest, -, hread⟩ := hread
        · exact ⟨_, _, hread, tally_nnode (s := advance 1 s) hlt⟩
        · exact ⟨_, _, hread, tally_nnode (s := advance 10 s) hlt⟩
      rw [hread] at hframe hdata
      rw [hread, Res.bind_ok]
      have hrun : Running c u := h.of_frame hdata hframe (by decide)
      have hphase : u.phase = .run c .rdtree := (hframe .phase (by decide)).trans hp
      have hstack : u.stack = s.stack := hframe .stack (by decide)
      have htree' : u.status.treeValid = false := (hframe .treeValid (by decide)).trans htree
      have hcode' : u.status.codeValid = false := (hframe .codeValid (by decide)).trans hcode
      have hnone' : u.tree = none := (hframe .tree (by decide)).trans hnone
      -- the step goes on with the stack `st`, which stands for the nodes counted
      have hgo : ∀ st, stackNodes st = stackNodes s.stack + 1 → State.Inv { u with stack := st } := fun st hst => by
        have hrun' : Running c { u with stack := st } := ⟨⟨⟨hdata.memory, hdata.tree, hdata.code, hdata.queue⟩,
          hrun.core.record.noError, hrun.core.record.error⟩, hrun.busy, hrun.notDone, hrun.onError⟩
        refine inv_of_running hrun' hphase hmem (fun hne => absurd rfl hne) (fun _ => ?_) nofun
        refine ⟨htree', hcode', hnone', ?_, ?_⟩
        · change u.nnode.toNat = stackNodes st; omega
        · change u.nnode.toNat ≤ _; omega
      cases k with
      | internal =>
        refine hgo (.left :: u.stack) ?_
        rw [stackNodes, hstack, Nat.add_comm]
      | leaf y =>
        rw [acceptNode]
        obtain ⟨t, hplug, ht⟩ | ⟨l, k, hplug, hk⟩ := plug_cases (.leaf y) u.stack
        · have hone : t.nodes = stackNodes s.stack + 1 := by rw [ht, hstack, CodeTree.nodes, Nat.add_comm]
          have hbound : t.bounded := by rw [CodeTree.bounded]; omega
          have hdata' : DataOk { u with stack := [] } := ⟨hdata.memory, hdata.tree, hdata.code, hdata.queue⟩
          simp only [hplug]
          exact ⟨⟨⟨putTree_dataOk hdata' hcode' hbound, hrun.core.record.noError, hrun.core.record.error⟩, hrun.busy,
            hrun.notDone, hrun.onError⟩, rfl⟩
        · simp only [hplug]
          refine hgo _ ?_
          rw [hk, hstack, CodeTree.nodes, Nat.add_comm]

/-! ### One step -/

theorem inv_port {s : State} (h : s.Inv) (port : List HostEvent) : State.Inv { s with port := port } :=
  ⟨h.memory, h.busy, h.done, h.noError, h.error, h.tree, h.code, h.queue, h.stackEmpty, h.inSequence, h.runsOnError,
    h.reading, h.decoding⟩

/-- Only the form of the streams is asked of them. -/
theorem inv_streams {s : State} (h : s.Inv) {i : InStream} {o : OutStream} (hw : Memory.wf i o = true) :
    State.Inv { s with inp := i, out := o } :=
  ⟨hw, h.busy, h.done, h.noError, h.error, h.tree, h.code, h.queue, h.stackEmpty, h.inSequence, h.runsOnError,
    h.reading, h.decoding⟩

theorem applyReset_inv {s : State} (h : Memory.wf s.inp s.out = true) : (applyReset s).Inv := by
  have hform := (applyReset_streamStep s).form h
  cases hp : s.phase with
  | idle =>
    rw [applyReset_of_idle hp] at hform ⊢
    exact inv_of_idle ⟨.of_dropped hform rfl rfl rfl, fun _ => ⟨rfl, rfl⟩, nofun⟩ rfl rfl rfl
  | run c p =>
    rw [applyReset_of_run hp] at hform ⊢
    exact inv_of_idle ⟨.of_dropped hform rfl rfl rfl, fun _ => ⟨rfl, rfl⟩, nofun⟩ rfl rfl rfl

theorem runOn_inv {s t : State} (h : s.Inv) (ht : runOn s = .next t) : t.Inv := by
  cases hp : s.phase with
  | idle => rw [runOn_idle hp] at ht; cases ht; exact h
  | run c p =>
    have hrun := h.running hp
    have hmem := h.inSequence c p hp
    by_cases hrd : p = .rdtree
    · subst hrd
      exact turn_inv (rdtree_pieceOk hrun hp hmem (h.reading c hp)) (runOn_run hp (by decide) ▸ ht)
    have hk : s.stack = [] := h.stackEmpty fun d hd => hrd (Phase.run.inj (hp.symm.trans hd)).2
    by_cases hdec : p = .decbody
    · subst hdec
      obtain ⟨-, heq⟩ | ⟨path, _, _, _, _, _, _, heq⟩ := runOn_decbody hp
      · exact turn_inv (decbody_pieceOk hrun hk) (heq ▸ ht)
      · exact turn_inv (codeToken_pieceOk hrun hp hmem hk (h.decodingState hp) path) (heq ▸ ht)
    rw [runOn_run hp hdec] at ht
    by_cases henc : p = .encbody
    · subst henc
      exact turn_inv (encbody_pieceOk hrun hp hmem hk) ht
    · exact turn_inv (wholeStep_pieceOk (by simp [hrd, hdec, henc]) hrun hk) ht

theorem actsOnErr_eq_close {c : Cmd} (hclear : c ≠ .clear) (h : c.actsOnErr = true) : c = .close := by
  cases c with
  | close => rfl
  | clear => exact absurd rfl hclear
  | _ => cases h

theorem started_running {c : Cmd} {s : State} (h : CoreOk s) (he : s.status.err = true → c = .close) :
    Running c (started c s) := by
  have ha := accept_coreOk c h
  unfold started
  split
  · exact ⟨⟨cleardata_dataOk ha.data, h.record.noError, h.record.error⟩, rfl, rfl, he⟩
  · exact ⟨ha, rfl, rfl, he⟩

theorem started_stack (c : Cmd) (s : State) : (started c s).stack = s.stack := by unfold started; split <;> rfl

theorem startCommand_inv {c : Cmd} {s t : State} (h : s.Inv) (ht : startCommand c s = .next t) : t.Inv := by
  by_cases hclear : c = .clear
  · subst hclear
    rw [startCommand_clear] at ht
    exact exec_word_inv (w := 0xE#4) h ht
  · obtain ⟨p, ps, hsteps, heq⟩ := startCommand_eq hclear s
    rw [heq] at ht
    refine gate_inv h (fun hb he ht => ?_) ht
    have hrun : Running c (started c s) := started_running h.coreOk fun herr => actsOnErr_eq_close hclear (he herr)
    have henter := enterStep_inv (p := p) hrun ((started_stack c s).trans (h.stack_nil hb)) (by rw [hsteps]; simp)
    cases hq : enterStep c p (started c s) with
    | ok a u => rw [hq] at ht henter; cases ht; exact henter
    | raised e u => rw [hq] at ht henter; exact settle_unwind_inv (s := u) (r := .raised e u) henter ht
    | refused r => rw [hq] at ht; cases ht

theorem hostActs_inv {ev : HostEvent} {s t : State} (h : s.Inv) (ht : hostActs ev s = .next t) : t.Inv := by
  cases ev with
  | bindIn bytes => cases ht; exact inv_streams h (bindInput_wf bytes s h.memory)
  | bindOut => cases ht; exact inv_streams h (bindOutput_wf s h.memory)
  | changeIn bytes => cases ht; exact inv_streams h (changeInput_wf bytes s h.memory)
  | command w => exact exec_word_inv h ht
  | start w =>
    obtain ⟨c, -, hc⟩ | ⟨-, hc⟩ := startWord_cases w s
    · exact startCommand_inv h (hc.symm.trans ht)
    · exact exec_word_inv h (hc.symm.trans ht)
  | wait => cases ht; exact h
  | reset => cases ht; exact applyReset_inv h.memory

/-! ### A recorded fault -/

/-- The record of a fault is the same in two states. -/
def SameRecord (s t : State) : Prop := t.status.err = s.status.err ∧ t.errcode = s.errcode ∧ t.errcmd = s.errcmd

/-- The end of CLOSE, the one command that runs while `ERR = 1`, leaves the record as it is (30_encoding.md R83). -/
theorem settle_closeStreams_record {s t : State} (h : settle (unwind .close (closeStreams s)) = .next t) :
    SameRecord s t := by
  rw [unwind_primitive rfl] at h
  cases ho : s.out.isOpen with
  | true => rw [closeStreams_open ho] at h; cases h; exact ⟨rfl, rfl, rfl⟩
  | false => rw [closeStreams_refused ho] at h; cases h

theorem runOn_record {s t : State} (h : s.Inv) (herr : s.status.err = true) (ht : runOn s = .next t) :
    SameRecord s t := by
  cases hp : s.phase with
  | idle => rw [runOn_idle hp] at ht; cases ht; exact ⟨rfl, rfl, rfl⟩
  | run c p =>
    obtain rfl := h.runsOnError c p hp herr
    obtain rfl : p = .close := List.mem_singleton.mp (h.inSequence .close p hp)
    rw [runOn_run hp (by decide), stepWork_whole (by decide)] at ht
    refine settle_closeStreams_record ?_
    rw [← ht, primitiveBody]
    cases ho : s.out.isOpen with
    | true => rw [closeStreams_open ho]; rfl
    | false => rw [closeStreams_refused ho]; rfl

theorem gate_record {a : Bool} {s t : State} {k : State → Host.Outcome State Fault Refusal}
    (hk : a = true → k s = .next t → SameRecord s t) (herr : s.status.err = true) (ht : gate a s k = .next t) :
    SameRecord s t := by
  obtain ⟨-, rfl⟩ | ⟨-, -, -, rfl⟩ | ⟨-, he, hrun⟩ := gate_cases ht
  · exact ⟨rfl, rfl, rfl⟩
  · exact ⟨rfl, rfl, rfl⟩
  · exact hk (he herr) hrun

theorem exec_word_record {w : BitVec 4} {s t : State} (hw : w ≠ 0xE#4) (herr : s.status.err = true)
    (ht : exec (decodeCommand w) s = .next t) : SameRecord s t := by
  obtain ⟨hclear, -⟩ | ⟨-, heq⟩ | ⟨c, hclear, -, heq⟩ := exec_word_eq w s
  · exact absurd hclear hw
  · rw [heq] at ht; exact gate_record (a := false) nofun herr ht
  · refine gate_record (fun ha ht => ?_) herr (heq ▸ ht)
    obtain rfl := actsOnErr_eq_close hclear ha
    exact settle_closeStreams_record (s := accept .close s) ht

theorem startWord_record {w : BitVec 4} {s t : State} (hw : w ≠ 0xE#4) (herr : s.status.err = true)
    (ht : startWord w s = .next t) : SameRecord s t := by
  obtain ⟨c, rfl, heq⟩ | ⟨-, heq⟩ := startWord_cases w s
  · have hclear : c ≠ .clear := by rintro rfl; exact hw rfl
    obtain ⟨p, ps, hsteps, hstart⟩ := startCommand_eq hclear s
    rw [heq, hstart] at ht
    refine gate_record (fun ha ht => ?_) herr ht
    obtain rfl := actsOnErr_eq_close hclear ha
    cases hsteps
    cases ht
    exact ⟨rfl, rfl, rfl⟩
  · exact exec_word_record hw herr (heq ▸ ht)

end Sys2Proof.Machine

namespace Sys2Proof.Proofs

open Sys2Proof.Machine

/-- Settles O4: by what a step can do. A command word ends idle with its data in order; a watched command keeps, piece by
piece, what its running step needs (`PieceOk`). -/
theorem stepKeepsInvariant : Obligations.StepKeepsInvariant := by
  intro s t h ht
  obtain ⟨-, -, rfl⟩ | ⟨ev, rest, -, -, hacts⟩ | ⟨bytes, rest, -, -, -, rfl⟩ | ⟨rest, -, -, rfl⟩ | ⟨-, port, hrun⟩ :=
    step_cases ht
  · exact h
  · exact hostActs_inv (inv_port h rest) hacts
  · exact inv_streams (inv_port h rest) (changeInput_wf bytes { s with port := rest } h.memory)
  · exact applyReset_inv (s := { s with port := rest }) h.memory
  · exact runOn_inv (inv_port h port) hrun

/-- Settles O30: while `ERR = 1` CLOSE alone runs and raises no fault; every other word but CLEAR is ignored, and the other
events touch the streams alone. -/
theorem recordedFaultStays : Obligations.RecordedFaultStays := by
  intro s t h herr ht hreset hclear
  have record : SameRecord s t → t.status.err = true ∧ t.errcode = s.errcode ∧ t.errcmd = s.errcmd :=
    fun hr => ⟨hr.1.trans herr, hr.2⟩
  obtain ⟨-, -, rfl⟩ | ⟨ev, rest, hport, hb, hacts⟩ | ⟨bytes, rest, -, -, -, rfl⟩ | ⟨rest, hport, -, -⟩ | ⟨-, port, hrun⟩ :=
    step_cases ht
  · exact ⟨herr, rfl, rfl⟩
  · cases ev with
    | bindIn | bindOut | changeIn | wait => cases hacts; exact ⟨herr, rfl, rfl⟩
    | command w =>
      have hw : w ≠ 0xE#4 := by rintro rfl; exact (hclear hb rest).1 hport
      exact record (exec_word_record (s := { s with port := rest }) hw herr hacts)
    | start w =>
      have hw : w ≠ 0xE#4 := by rintro rfl; exact (hclear hb rest).2 hport
      exact record (startWord_record (s := { s with port := rest }) hw herr hacts)
    | reset => exact absurd hport (hreset rest)
  · exact ⟨herr, rfl, rfl⟩
  · exact absurd hport (hreset rest)
  · exact record (runOn_record (s := { s with port := port }) (inv_port h port) herr hrun)

end Sys2Proof.Proofs
end

section
/-! PROOFS. The frame of every command (10_state.md R39). -/

namespace Sys2Proof.Machine

/-- What the work of each command may change, beside the command port (10_state.md R39). -/
def workChanges : Cmd → List Field
  | .compress => [.freq, .tree, .code, .pq, .seq, .nnode, .freqValid, .treeValid, .codeValid, .inp, .out, .draws]
  | .decompress =>
    [.freq, .tree, .code, .pq, .seq, .nnode, .freqValid, .treeValid, .codeValid, .inp, .out, .draws, .cur, .stack]
  | .clear => [.freq, .tree, .code, .pq, .seq, .nnode, .freqValid, .treeValid, .codeValid]
  | c => bodyChanges c

/-- The steps of a sequence change what each of them may change, and `PHASE`. -/
theorem runSteps_frame_of {l : List Field} (c : Cmd) {ps : List Cmd} (hp : .phase ∈ l)
    (h : ∀ p ∈ ps, bodyChanges p ⊆ l) (s : State) : (runSteps c ps s).within (OnlyChanges l) s := by
  induction ps generalizing s with
  | nil => exact .refl _ s
  | cons p ps ih =>
    have hat : OnlyChanges l s (atStep c p s) := (atStep_frame c p s).mono (by simpa using hp)
    refine frame_bind (frame_after hat (frame_widen (h p (List.mem_cons_self ..)) (primitiveBody_frame p _))) fun _ u _ => ?_
    exact ih (fun q hq => h q (List.mem_cons_of_mem _ hq)) u

theorem commandBody_frame (c : Cmd) (s : State) :
    (commandBody c s).within (OnlyChanges (.phase :: workChanges c)) s := by
  cases hc : c.composite with
  | false =>
    have hsub : bodyChanges c ⊆ .phase :: workChanges c := by cases c <;> decide
    rw [commandBody, hc]
    exact frame_widen hsub (primitiveBody_frame c s)
  | true =>
    have hclear : OnlyChanges (.phase :: workChanges c) s (cleardata s) :=
      (cleardata_frame s).mono (by revert hc; cases c <;> decide)
    have hsteps : ∀ p ∈ stepsOf c, bodyChanges p ⊆ .phase :: workChanges c := by revert hc; cases c <;> decide
    rw [commandBody, hc]
    exact frame_after hclear (runSteps_frame_of c (List.mem_cons_self ..) hsteps _)

theorem unwind_frame (c : Cmd) {l : List Field} {s : State} {r : Res Unit} (h : r.within (OnlyChanges l) s)
    (hl : c.composite = true →
      [.freq, .tree, .code, .pq, .seq, .nnode, .freqValid, .treeValid, .codeValid, .inp, .out, .draws] ⊆ l) :
    (unwind c r).within (OnlyChanges l) s := by
  cases hc : c.composite with
  | false => rwa [unwind_primitive hc]
  | true =>
    cases r with
    | refused r => trivial
    | ok a t => exact frame_after h (frame_widen (fun f hf => hl hc (by simp at hf ⊢; tauto)) (unwind_ok_frame c t))
    | raised e t => exact frame_after h (frame_widen (hl hc) (unwind_raised_frame c e t))

theorem settle_cases {r : Res Unit} {t : State} (h : settle r = .next t) :
    (∃ u, r = .ok () u ∧ t = finish u) ∨ ∃ e u, r = .raised e u ∧ t = faultEntry e u.phase.opcode u := by
  cases r with
  | ok a u => cases h; exact .inl ⟨u, rfl, rfl⟩
  | raised e u => cases h; exact .inr ⟨e, u, rfl, rfl⟩
  | refused r => cases h

theorem clearAll_frame (s : State) :
    OnlyChanges ([.busy, .done, .err, .errcode, .errcmd, .phase, .stack] ++ workChanges .clear) s (clearAll s) := by
  intro f hf; cases f <;> first | rfl | simp [workChanges] at hf

theorem commandWork_frame (c : Cmd) (s : State) : (unwind c (commandBody c (accept c s))).within
    (OnlyChanges (.busy :: .done :: .phase :: workChanges c)) s := by
  refine unwind_frame c (frame_after ((accept_frame c s).mono (by simp)) ?_) fun hc => ?_
  · exact frame_widen (by intro f hf; simp at hf ⊢; tauto) (commandBody_frame c _)
  · revert hc; cases c <;> decide

/-- Whatever a command comes to, it has changed the command port, the error registers and its own elements alone. -/
theorem exec_opcode_frame {c : Cmd} {s t : State} (h : exec (decodeCommand c.opcode) s = .next t) :
    OnlyChanges ([.busy, .done, .err, .errcode, .errcmd, .phase, .stack] ++ workChanges c) s t := by
  by_cases hclear : c = .clear
  · subst hclear
    obtain ⟨-, rfl⟩ | ⟨-, -, -, rfl⟩ | ⟨-, -, hrun⟩ := gate_cases (a := true) (k := fun s => .next (clearAll s)) h
    · exact .refl _ _
    · exact (ignored_frame s).mono (by decide)
    · cases hrun; exact clearAll_frame s
  · rw [exec_opcode hclear] at h
    obtain ⟨-, rfl⟩ | ⟨-, -, -, rfl⟩ | ⟨-, -, hrun⟩ := gate_cases h
    · exact .refl _ _
    · exact (ignored_frame s).mono (by simp)
    · have hwork := commandWork_frame c s
      have hsub : .busy :: .done :: .phase :: workChanges c ⊆
          [.busy, .done, .err, .errcode, .errcmd, .phase, .stack] ++ workChanges c := by
        intro f hf; simp at hf ⊢; tauto
      obtain ⟨u, hu, rfl⟩ | ⟨e, u, hu, rfl⟩ := settle_cases hrun <;> rw [hu] at hwork
      · exact (hwork.mono hsub).trans _ _ _ ((finish_frame u).mono (by simp))
      · exact (hwork.mono hsub).trans _ _ _ ((faultEntry_frame e _ u).mono (by simp))

/-- A command other than CLEAR keeps a recorded fault, and changes its code and opcode only when it records one
(60_exceptions.md R232, R236). -/
theorem exec_opcode_record {c : Cmd} (hclear : c ≠ .clear) {s t : State}
    (h : exec (decodeCommand c.opcode) s = .next t) :
    SameRecord s t ∨ (s.status.err = false ∧ t.status.err = true) := by
  cases herr : s.status.err with
  | true =>
    have hword : c.opcode ≠ 0xE#4 := by revert hclear; cases c <;> decide
    exact .inl (exec_word_record hword herr h)
  | false =>
    rw [exec_opcode hclear] at h
    obtain ⟨-, rfl⟩ | ⟨-, -, -, rfl⟩ | ⟨-, -, hrun⟩ := gate_cases h
    · exact .inl ⟨rfl, rfl, rfl⟩
    · exact .inl ⟨rfl, rfl, rfl⟩
    · have hwork := commandWork_frame c s
      obtain ⟨u, hu, rfl⟩ | ⟨e, u, hu, rfl⟩ := settle_cases hrun <;> rw [hu] at hwork
      · exact .inl ⟨hwork .err (by cases c <;> decide), hwork .errcode (by cases c <;> decide),
          hwork .errcmd (by cases c <;> decide)⟩
      · exact .inr ⟨rfl, rfl⟩

end Sys2Proof.Machine

namespace Sys2Proof.Proofs

open Sys2Proof.Machine

/-- Settles O59: the frame of the command (`exec_opcode_frame`), the record of faults (`exec_opcode_record`), and the
streams (`exec_word_streamStep`). -/
theorem commandsTouchOnlyTheirState : Obligations.CommandsTouchOnlyTheirState := by
  intro c s t h
  have hframe := exec_opcode_frame h
  have hstream := exec_word_streamStep h
  refine ⟨fun hc => hframe .freq ?_, fun hc => hframe .tree ?_, fun hc => hframe .code ?_, fun hc => hframe .freqValid ?_,
    fun hc => hframe .treeValid ?_, fun hc => hframe .codeValid ?_, fun hc => hframe .inp ?_, fun hc => hframe .out ?_,
    fun hclear => ?_, hstream.bits, hstream.written, hstream.port, fun hc => ⟨hframe .pq ?_, hframe .seq ?_⟩,
    fun hc => hframe .nnode ?_, fun hc => hframe .cur ?_, fun hc => hframe .draws ?_⟩
  case refine_9 =>
    obtain ⟨herr, hcode, hcmd⟩ | ⟨hold, hnew⟩ := exec_opcode_record hclear h
    · exact ⟨fun he => herr.trans he, fun _ => ⟨hcode, hcmd⟩⟩
    · exact ⟨fun _ => hnew, fun heq => by rw [hold, hnew] at heq; cases heq⟩
  all_goals revert hc; cases c <;> decide

end Sys2Proof.Proofs
end

section
/-! PROOFS. The wire tokens as instructions of the reader that runs (30_encoding.md R85 to R90; log 10). -/

namespace Sys2Proof.Machine

/-! ### The token of an internal node -/

theorem ahead_cons_of_lt {s : State} (h : s.inp.pos < s.inp.bits.length) : ∃ b rest, s.ahead = b :: rest :=
  List.exists_cons_of_length_pos (by rw [ahead_length]; omega)

/-- At the node cap the marker ends the header (43_tree_codec.md R156). -/
theorem takeMarker_overflow {s : State} {b : Bool} {rest : BitString} (ho : s.inp.isOpen = true)
    (h : s.ahead = b :: rest) (hn : s.nnode.toNat = Config.nodeCap) :
    takeMarker s = .raised .treeOverflow (advance 1 s) := by
  obtain ⟨hnil, -⟩ | ⟨_, _, -, ⟨-, hm⟩ | ⟨hne, -⟩⟩ := takeMarker_cases ho
  · rw [h] at hnil; cases hnil
  · exact hm
  · exact absurd hn hne

/-! ### The token of a leaf -/

/-- A leaf token below the node cap takes its ten bits and comes to the test of its field (43_tree_codec.md R154). -/
theorem exec_nodeLeaf_field {c : Cmd} {s : State} (h : s.phase = .run c .rdtree) (ho : s.inp.isOpen = true)
    (hlen : s.inp.pos + 10 ≤ s.inp.bits.length) (hn : s.nnode.toNat < Config.nodeCap) (f : BitVec 9) :
    exec (.nodeLeaf f) s =
      turn c .rdtree ((checkField f (tally 1 (advance 10 s))).bind fun y s => acceptNode (.leaf y) s) := by
  obtain ⟨b, rest, hahead⟩ := ahead_cons_of_lt (s := s) (by omega)
  have hfield : takeField (tally 1 (advance 1 s)) =
      .ok (BitVec.ofNat 9 (valOf ((tally 1 (advance 1 s)).ahead.take 9))) (tally 1 (advance 10 s)) := by
    have hleft : (tally 1 (advance 1 s)).ahead.length = s.inp.bits.length - (s.inp.pos + 1) := ahead_length _
    obtain ⟨hshort, -⟩ | ⟨-, hf⟩ := takeField_cases (s := tally 1 (advance 1 s)) ho
    · omega
    · exact hf
  rw [exec_nodeLeaf_run h, takeMarker_one ho hn hahead, Res.bind_ok, hfield, Res.bind_ok]

theorem checkField_symbol {f : BitVec 9} {y : Sym} (h : f.toNat = y.val) (s : State) : checkField f s = .ok y s := by
  obtain ⟨hbad, -⟩ | ⟨z, hz, hc⟩ := checkField_cases f s
  · have := y.isLt; omega
  · obtain rfl : z = y := Fin.ext (hz.trans h)
    exact hc

theorem checkField_invalid {f : BitVec 9} (h : 256 < f.toNat) (s : State) :
    checkField f s = .raised .invalidSymbol s := by
  obtain ⟨-, hc⟩ | ⟨z, hz, -⟩ := checkField_cases f s
  · exact hc
  · have := z.isLt; omega

/-- A leaf closes the pending nodes whose left subtrees are known, the last one first (10_state.md R33). -/
theorem plug_closed (done : List CodeTree) (t : CodeTree) (k : List Frame) :
    plug t (done.map Frame.right ++ k) = plug (done.foldl (fun t l => .node l t) t) k := by
  induction done generalizing t with
  | nil => rfl
  | cons l done ih => exact ih (.node l t)

theorem acceptNode_fillsLeft {y : Sym} {done : List CodeTree} {k : List Frame} {s : State}
    (h : s.stack = done.map Frame.right ++ .left :: k) : acceptNode (.leaf y) s =
      .ok false { s with stack := .right (done.foldl (fun t l => .node l t) (.leaf y)) :: k } := by
  rw [acceptNode, h, plug_closed, plug]

theorem acceptNode_completes {y : Sym} {done : List CodeTree} {s : State} (h : s.stack = done.map Frame.right) :
    acceptNode (.leaf y) s =
      .ok true (putTree (done.foldl (fun t l => .node l t) (.leaf y)) { s with stack := [] }) := by
  rw [← List.append_nil (done.map _)] at h
  rw [acceptNode, h, plug_closed, plug]

/-- With a pending node closed the whole tree is no lone leaf. -/
theorem closed_isLeaf {done : List CodeTree} (h : done ≠ []) (t : CodeTree) :
    (done.foldl (fun t l => CodeTree.node l t) t).isLeaf = false := by
  obtain ⟨init, l, rfl⟩ := (List.eq_nil_or_concat' done).resolve_left h
  rw [List.foldl_concat]
  rfl

/-! ### A code -/

theorem follow_cons_child {u : CodeTree} (hu : u.isLeaf = false) (b : Bool) (bs : BitString) :
    u.follow (b :: bs) = (u.child b).follow bs := by
  cases u with
  | leaf y => cases hu
  | node l r => cases b <;> rfl

/-- A read of one bit where there is one. -/
theorem inRead_bit {s : State} (ho : s.inp.isOpen = true) (h : 1 ≤ s.ahead.length) :
    ∃ v, inRead 1 s = .ok (some v) (advance 1 s) := ⟨_, inRead_some ho le_rfl h⟩

/-- The bits of a code from `CUR` on: the byte is written and `CUR` is the root again, or the end-of-block leaf is reached
(45_decoder.md R193). -/
theorem decodeToken_code (root : CodeTree) {path : BitString} {y : Sym} {s : State} (hi : s.inp.isOpen = true)
    (ho : s.out.isOpen = true) (hlen : path.length ≤ s.ahead.length) (hcur : s.cur.isLeaf = false)
    (hcode : s.cur.isCode path y) :
    decodeToken root path s =
      if y = Config.eob then .ok true (point (.leaf y) (advance path.length s))
      else .ok false (point root (append (bitsOf 8 y.val) (advance path.length s))) := by
  unfold CodeTree.isCode at hcode
  induction path generalizing s with
  | nil =>
    rw [CodeTree.follow_nil] at hcode
    rw [Option.some.inj hcode] at hcur
    cases hcur
  | cons b bs ih =>
    rw [List.length_cons] at hlen
    rw [follow_cons_child hcur] at hcode
    obtain ⟨v, hread⟩ := inRead_bit hi (by omega)
    rw [decodeToken, hread, Res.bind_ok]
    simp only
    have hlast : ∀ z, s.cur.child b = .leaf z → bs = [] ∧ z = y := fun z hz => by
      rw [hz] at hcode
      cases bs with
      | nil => rw [CodeTree.follow_nil] at hcode; cases hcode; exact ⟨rfl, rfl⟩
      | cons d ds => cases hcode
    obtain ⟨l, r, hchild, hbit⟩ | ⟨hchild, hbit⟩ | ⟨z, hz, hchild, ⟨-, hbit⟩ | ⟨hshut, -⟩⟩ :=
      decodeBit_cases root b (advance 1 s)
    · have hstep := ih (s := point (.node l r) (advance 1 s)) hi ho
        (by rw [point_ahead, ahead_advance, List.length_drop]; omega) rfl
        (by rw [← hcode]; exact congrArg (·.follow bs) hchild.symm)
      rw [hbit, Res.bind_ok]
      simp only [Bool.false_eq_true, if_false]
      rw [hstep]
      simp only [point, advance, append, List.length_cons, Nat.add_assoc, Nat.add_comm 1]
    · obtain ⟨rfl, rfl⟩ := hlast _ hchild
      rw [hbit, Res.bind_ok]
      rfl
    · obtain ⟨rfl, rfl⟩ := hlast _ hchild
      rw [hbit, Res.bind_ok, if_neg hz]
      rfl
    · exact absurd hshut (by rw [show (advance 1 s).out = s.out from rfl, ho]; decide)

theorem symOfByte_ne_eob (b : Byte) : symOfByte b ≠ Config.eob := by
  intro h
  have hval : b.toNat = 256 := congrArg Fin.val h
  have := b.isLt
  omega

end Sys2Proof.Machine

namespace Sys2Proof.Proofs

open Sys2Proof.Machine

/-- Settles O54: below the cap the marker is taken and a pending node stacked; at the cap the marker read raises
TreeOverflowError, which DECOMPRESS winds up. -/
theorem internalNodeToken : Obligations.InternalNodeToken := by
  intro s c hphase ho hpos
  obtain ⟨b, rest, hahead⟩ := ahead_cons_of_lt hpos
  refine ⟨fun hn => ?_, fun hn hc => ?_, fun hn hc hout => ?_⟩
  · rw [exec_nodeInt_run hphase, takeMarker_one ho hn hahead]; rfl
  · subst hc
    rw [exec_nodeInt_run hphase, takeMarker_overflow ho hahead hn]
    exact turn_raised_primitive rfl hphase
  · subst hc
    rw [exec_nodeInt_run hphase, takeMarker_overflow ho hahead hn]
    exact turn_raised_composite rfl hphase hout

/-- Settles O55: by what the stack holds under the leaf, the range of the field, and the cap. -/
theorem leafToken : Obligations.LeafToken := by
  intro s c f hphase ho hlen
  obtain ⟨b, rest, hahead⟩ := ahead_cons_of_lt (s := s) (by omega)
  refine ⟨fun hn => ?_, fun hn hc => ?_, fun hn hc hout => ?_⟩
  · have hfield := exec_nodeLeaf_field hphase ho hlen hn f
    refine ⟨fun y done k hy hk => ?_, fun y done hy hk hc => ?_, fun y done hy hne hk hc => ?_,
      fun hy hk hc hout => ?_, fun hy hc => ?_, fun hy hc hout => ?_⟩
    · rw [hfield, checkField_symbol hy, Res.bind_ok, acceptNode_fillsLeft (s := tally 1 (advance 10 s)) hk]; rfl
    · subst hc
      rw [hfield, checkField_symbol hy, Res.bind_ok, acceptNode_completes (s := tally 1 (advance 10 s)) hk, turn_last rfl]
      rfl
    · subst hc
      rw [hfield, checkField_symbol hy, Res.bind_ok, acceptNode_completes (s := tally 1 (advance 10 s)) hk]
      refine turn_enter (q := .decbody) rfl (a := ()) ?_
      rw [enterStep, decbodyInit_internal rfl rfl (closed_isLeaf hne _)]
      rfl
    · subst hc
      rw [hfield, checkField_symbol (y := ⟨f.toNat, Nat.lt_succ_of_le hy⟩) rfl, Res.bind_ok,
        acceptNode_completes (done := []) (s := tally 1 (advance 10 s)) hk,
        turn_enter_raised (q := .decbody) rfl (by rw [enterStep, decbodyInit_leaf rfl rfl rfl]; rfl)]
      exact settle_composite_raised rfl .leafRoot hout
    · subst hc
      rw [hfield, checkField_invalid hy]
      exact turn_raised_primitive rfl hphase
    · subst hc
      rw [hfield, checkField_invalid hy]
      exact turn_raised_composite rfl hphase hout
  · subst hc
    rw [exec_nodeLeaf_run hphase, takeMarker_overflow ho hahead hn]
    exact turn_raised_primitive rfl hphase
  · subst hc
    rw [exec_nodeLeaf_run hphase, takeMarker_overflow ho hahead hn]
    exact turn_raised_composite rfl hphase hout

/-- Settles O56: the 32 bits are taken, and the check of the value lets the magic alone pass. -/
theorem magicToken : Obligations.MagicToken := by
  intro s ho hlen
  have hread : ∀ m c, s.phase = .run c .rdmagic → exec (.magic m) s =
      turn c .rdmagic ((checkMagic (some m) (advance 32 s)).bind fun _ s => .ok true s) := fun m c hphase => by
    rw [exec_magic_run hphase, inRead_some ho (by decide) (by rw [ahead_length]; omega), Res.bind_ok, Option.map_some]
  have hpass : checkMagic (some Config.magic) (advance 32 s) = .ok () (advance 32 s) := if_pos rfl
  have hstop : ∀ m, m ≠ Config.magic → checkMagic (some m) (advance 32 s) = .raised .badMagic (advance 32 s) :=
    fun m hm => if_neg fun heq => hm (Option.some.inj heq)
  refine ⟨fun hphase => ?_, fun hphase => ?_, fun m hm hphase => ?_, fun m hm hphase hout => ?_⟩
  · rw [hread _ _ hphase, hpass, Res.bind_ok, turn_last rfl]; rfl
  · rw [hread _ _ hphase, hpass, Res.bind_ok]; rfl
  · rw [hread _ _ hphase, hstop m hm]
    exact turn_raised_primitive rfl hphase
  · rw [hread _ _ hphase, hstop m hm]
    exact turn_raised_composite rfl hphase hout

/-- Settles O57: the bits of the code lead from the root to its leaf, which is written or ends the body. -/
theorem codeToken : Obligations.CodeToken := by
  intro s c t path hphase hi ho hlen hv ht hcur hroot
  have hrun : ∀ y, t.isCode path y → exec (.code path) s = turn c .decbody
      (if y = Config.eob then .ok true (point (.leaf y) (advance path.length s))
        else .ok false (point t (append (bitsOf 8 y.val) (advance path.length s)))) := fun y hcode => by
    rw [exec_code_run hphase, needTree_some hv ht,
      decodeToken_code t hi ho (by rw [ahead_length]; omega) (hcur ▸ hroot) (hcur ▸ hcode)]
  refine ⟨fun b hb => ?_, fun he hc => ?_, fun he hc => ?_⟩
  · rw [hrun _ hb, if_neg (symOfByte_ne_eob b)]
    subst hcur
    rfl
  · subst hc
    exact ⟨_, by rw [hrun _ he, if_pos rfl, turn_last rfl]; rfl, rfl⟩
  · subst hc
    exact ⟨_, by rw [hrun _ he, if_pos rfl]; rfl, rfl⟩

/-- Settles O58: the pad has no reader, and the work of a step that does not run has no effect. -/
theorem unreadTokensHaveNoEffect : Obligations.UnreadTokensHaveNoEffect := by
  intro s
  refine ⟨fun _ => rfl, fun h => ⟨?_, fun f => ?_⟩, fun h m => ?_, fun h p => ?_⟩
  · rw [exec, execNodeInt, inStep_other h]
  · rw [exec, execNodeLeaf, inStep_other h]
  · rw [exec, execMagic, inStep_other h]
  · rw [exec, execCode, inStep_other h]

end Sys2Proof.Proofs
end

section
/-! PROOFS. Statements of 41_tree_builder.md: what BUILD stores (R127), the strict order of its queue (R125), the order of
the subtrees (R123), and the smallest trees (R131, R133). -/

namespace Sys2Proof.Machine

/-! ### BUILD -/

theorem exec_build (s : State) : exec .build s = runCommand .build buildBody s := rfl

theorem exec_build_valid {s : State} (hs : s.ready) (hv : s.status.freqValid = true) :
    exec .build s = .next (finish (built (accept .build s))) := by
  rw [exec_build]
  exact runCommand_primitive_ok rfl hs (buildBody_valid (s := accept .build s) hv)

theorem built_seq (s : State) : (built s).seq = BitVec.ofNat 10 (2 * startLeaves s.freq - 1) := endQueue_seq s.freq

/-! ### The order of the queue -/

/-- Of two entries with different insertion numbers exactly one comes first (41_tree_builder.md R125). -/
theorem before_eq_not {a b : Entry} (h : a.seq.toNat ≠ b.seq.toNat) : a.before b = !b.before a := by
  rw [Bool.eq_iff_iff, Bool.not_eq_true', ← Bool.not_eq_true, before_iff, before_iff]
  omega

/-- With different insertion numbers the entry removed comes strictly before the others, whose numbers differ too. -/
theorem removeMin_strict {es rest : List Entry} {e : Entry} (h : removeMin es = some (e, rest))
    (hd : es.Pairwise fun a b => a.seq.toNat ≠ b.seq.toNat) :
    (∀ x ∈ rest, e.before x = true) ∧ rest.Pairwise fun a b => a.seq.toNat ≠ b.seq.toNat := by
  obtain ⟨hne, hrest⟩ := List.pairwise_cons.mp (hd.perm (removeMin_perm h) Ne.symm)
  refine ⟨fun x hx => ?_, hrest⟩
  rw [before_eq_not (hne x hx), removeMin_least h x hx, Bool.not_false]

/-- A pass never empties the queue. -/
theorem combineOnce_nonempty {q : Queue} (h : 1 ≤ q.entries.length) : 1 ≤ (combineOnce q).entries.length := by
  obtain ⟨-, heq⟩ | ⟨a, b, rest, -, -, heq⟩ := combineOnce_cases q
  · rwa [heq]
  · rw [heq]; exact Nat.succ_pos _

theorem combine_nonempty (freq : Vector Count 256) (n : Nat) : 1 ≤ (combine n (startQueue freq)).entries.length :=
  combine_keeps (P := fun q => 1 ≤ q.entries.length) (fun _ => combineOnce_nonempty) n _
    (by have := (startLeaves_range freq).1; rw [startQueue_length]; omega)

/-! ### The smallest trees -/

/-- A loop that starts with two entries ends with the node of both, the first one in order on the left
(41_tree_builder.md R123). -/
theorem buildTree_of_pair {freq : Vector Count 256} {x e : Entry} (h : (startQueue freq).entries = [x, e]) :
    buildTree freq = if e.before x then .node e.tree x.tree else .node x.tree e.tree := by
  have hend : endQueue freq = combineOnce (startQueue freq) := by rw [endQueue, h]; rfl
  cases hb : e.before x <;>
    simp [buildTree, hend, combineOnce, h, removeMin, leastOf, hb, Queue.insert]

/-- The end-of-block leaf goes in after the byte leaves (41_tree_builder.md R122). -/
def eobEntry (q : Queue) : Entry := ⟨1#41, q.seq, .leaf Config.eob⟩

theorem insertEob_entries (q : Queue) : (insertEob q).entries = eobEntry q :: q.entries := rfl

theorem buildTree_of_no_byte {freq : Vector Count 256} (h : ∀ b : Byte, freq[b.toNat]'b.isLt = 0#32) :
    buildTree freq = .node (.leaf Config.eob) (.leaf Config.eob) := by
  have hused : usedBytes freq = 0 := (usedBytes_zero freq).mpr h
  have hnil : (byteLeaves freq).entries = [] := List.eq_nil_of_length_eq_zero ((byteLeaves_length freq).trans hused)
  have hstart : (startQueue freq).entries = [eobEntry (insertEob (byteLeaves freq)), eobEntry (byteLeaves freq)] := by
    rw [startQueue_eq, if_pos hused, insertEob_entries, insertEob_entries, hnil]
  rw [buildTree_of_pair hstart]
  exact ite_self _

/-- The one leaf of a table with one used byte (41_tree_builder.md R121). -/
theorem byteLeaves_of_one_byte {freq : Vector Count 256} {b : Byte}
    (hother : ∀ c : Byte, c ≠ b → freq[c.toNat]'c.isLt = 0#32) (hpos : 0#32 < freq[b.toNat]'b.isLt) :
    (byteLeaves freq).entries = [⟨(freq[b.toNat]'b.isLt).setWidth 41, 0#10, .leaf (symOfByte b)⟩] ∧
      (byteLeaves freq).seq = 1#10 := by
  have hcount : ∀ y, (byteLeaves freq).symbols.count y = [symOfByte b].count y := fun y => by
    rw [byteLeaves_count, List.count_singleton]
    by_cases hy : symOfByte b = y
    · subst hy
      rw [if_pos ⟨b.isLt, hpos⟩, if_pos (beq_self_eq_true _)]
    · rw [if_neg, if_neg (by simpa using hy)]
      rintro ⟨hlt, hp⟩
      have hval : (BitVec.ofNat 8 y.val).toNat = y.val := Nat.mod_eq_of_lt hlt
      have hzero := hother (BitVec.ofNat 8 y.val) fun heq => hy (Fin.ext (by rw [← heq]; exact hval))
      simp only [hval] at hzero
      rw [hzero] at hp
      exact absurd hp (by decide)
  have hsym : (byteLeaves freq).symbols = [symOfByte b] := List.perm_singleton.mp (List.perm_iff_count.mpr hcount)
  have hlen : (byteLeaves freq).entries.length = 1 := by
    rw [← leaves_symbols_length _ fun e he => (byteLeaves_entries freq e he).imp fun y h => h.2.1, ← Queue.symbols, hsym]
    rfl
  have hseq : (byteLeaves freq).seq = 1#10 := by rw [byteLeaves_seq, ← byteLeaves_length, hlen]
  obtain ⟨e, he⟩ := List.length_eq_one_iff.mp hlen
  obtain ⟨y, hy, htree, hweight⟩ := byteLeaves_entries freq e (by rw [he]; exact List.mem_singleton_self e)
  have hyb : y = symOfByte b := by
    rw [Queue.symbols, he, List.flatMap_singleton, htree] at hsym
    exact List.singleton_inj.mp hsym
  have hbelow : e.seq.toNat < 1 := by
    have h := (insertLeaves_numbered freq.toList 0 { entries := [], seq := 0#10 } .nil nofun (by simp)).2 e
      (by rw [← byteLeaves, he]; exact List.mem_singleton_self e)
    rwa [← byteLeaves, hseq] at h
  have hzero : e.seq = 0#10 := BitVec.eq_of_toNat_eq (Nat.lt_one_iff.mp hbelow)
  subst hyb
  refine ⟨?_, hseq⟩
  rw [he, ← hzero, ← htree]
  exact congrArg (fun w => [Entry.mk w e.seq e.tree]) hweight

/-- With one used byte the lighter of the two leaves is on the left, and the byte leaf, inserted first, in a tie
(41_tree_builder.md R133). -/
theorem buildTree_of_one_byte {freq : Vector Count 256} {b : Byte}
    (hother : ∀ c : Byte, c ≠ b → freq[c.toNat]'c.isLt = 0#32) (hpos : 0#32 < freq[b.toNat]'b.isLt) :
    buildTree freq =
      if freq[b.toNat]'b.isLt = 1#32 then .node (.leaf (symOfByte b)) (.leaf Config.eob)
      else .node (.leaf Config.eob) (.leaf (symOfByte b)) := by
  obtain ⟨hentries, hseq⟩ := byteLeaves_of_one_byte hother hpos
  have hused : usedBytes freq ≠ 0 := by rw [← byteLeaves_length, hentries]; exact Nat.one_ne_zero
  have hstart : (startQueue freq).entries =
      [eobEntry (byteLeaves freq), ⟨(freq[b.toNat]'b.isLt).setWidth 41, 0#10, .leaf (symOfByte b)⟩] := by
    rw [startQueue_eq, if_neg hused, insertEob_entries, hentries]
  rw [buildTree_of_pair hstart]
  refine if_congr ?_ rfl rfl
  generalize freq[b.toNat]'b.isLt = w at hpos
  have hw : (w.setWidth 41).toNat = w.toNat := by
    rw [BitVec.toNat_setWidth, Nat.mod_eq_of_lt]
    have := w.isLt; omega
  have hone : w = 1#32 ↔ w.toNat = 1 := (BitVec.toNat_inj (x := w) (y := 1#32)).symm
  rw [before_iff, eobEntry, hseq, hw, hone]
  have hlt : 0 < w.toNat := hpos
  simp
  omega

/-- The codes of a tree of two leaves (42_code_table_generator.md R140, R143). -/
theorem codesOf_pair (a b : Sym) :
    (codesOf (.node (.leaf a) (.leaf b)))[b.val]'b.isLt = some [true] ∧
      (a ≠ b → (codesOf (.node (.leaf a) (.leaf b)))[a.val]'a.isLt = some [false]) := by
  refine ⟨?_, fun hab => ?_⟩
  · rw [codesOf_get, lastPath_node, lastPath_leaf, if_pos rfl]
  · rw [codesOf_get, lastPath_node, lastPath_leaf, if_neg (Ne.symm hab), lastPath_leaf, if_pos rfl]
    rfl

end Sys2Proof.Machine

namespace Sys2Proof.Proofs

open Sys2Proof.Machine

/-- Settles O17: the body stores the tree of the table; the loop has numbered the leaves and the nodes it made of them. -/
theorem buildMakesTree : Obligations.BuildMakesTree := by
  intro s hs hv
  have hseq := built_seq (accept .build s)
  rw [accept_freq] at hseq
  have hstatus : (finish (built (accept .build s))).status =
      { busy := false, done := true, err := false, freqValid := true, treeValid := true, codeValid := false } := by
    simp [built, hs.2, hv]
  rw [exec_build_valid hs hv, ← hstatus, ← hseq]
  rfl

/-- Settles O19: the insertion numbers of a queue differ (`Numbered`), so the order on (weight, seq) has no ties, and each
of the two removals takes the strictly least entry. -/
theorem queueOrderIsStrict : Obligations.QueueOrderIsStrict := by
  rintro freq n q rfl
  have hnum := combine_numbered freq n
  have hone := combine_nonempty freq n
  refine ⟨hnum.distinct.imp fun hne => ⟨fun heq => hne (congrArg BitVec.toNat (Prod.mk.inj heq).2), before_eq_not hne⟩,
    hnum.below, by have := hnum.bound; omega, fun e rest he => ?_⟩
  obtain ⟨hfirst, hrest⟩ := removeMin_strict he hnum.distinct
  exact ⟨removeMin_perm he, hfirst, fun f rest' hf => ⟨removeMin_perm hf, (removeMin_strict hf hrest).1⟩⟩

/-- Settles O21: the loop keeps the order of the subtrees (`Weighed`), and ends with the built tree as its one entry. -/
theorem leftSubtreeIsNotHeavier : Obligations.LeftSubtreeIsNotHeavier := by
  intro freq l r hnode
  obtain ⟨e, he, htree⟩ := endQueue_single freq
  have hweighed : Weighed freq (endQueue freq) := combine_weighed freq _
  exact hweighed.ordered e (by rw [he]; exact List.mem_singleton_self e) l r (htree ▸ hnode)

/-- Settles O22: a loop that starts with two leaves ends with their node, whose codes are one bit long. -/
theorem treesOfAtMostOneByte : Obligations.TreesOfAtMostOneByte := by
  refine ⟨fun freq h => ?_, fun freq b hother => ⟨fun hone => ?_, fun hmore => ?_⟩⟩
  · rw [buildTree_of_no_byte h]
    exact ⟨rfl, (codesOf_pair Config.eob Config.eob).1⟩
  · rw [buildTree_of_one_byte hother (by rw [hone]; decide), if_pos hone]
    exact ⟨rfl, (codesOf_pair (symOfByte b) Config.eob).2 (symOfByte_ne_eob b), (codesOf_pair (symOfByte b) Config.eob).1⟩
  · have hne : freq[b.toNat]'b.isLt ≠ 1#32 := fun heq => by rw [heq] at hmore; exact absurd hmore (by decide)
    have hpos : 0#32 < freq[b.toNat]'b.isLt := BitVec.lt_trans (by decide : 0#32 < 1#32) hmore
    rw [buildTree_of_one_byte hother hpos, if_neg hne]
    exact ⟨rfl, (codesOf_pair Config.eob (symOfByte b)).1, (codesOf_pair Config.eob (symOfByte b)).2 (symOfByte_ne_eob b).symm⟩

end Sys2Proof.Proofs
end

section
/-! PROOFS. Statements of 43_tree_codec.md: the header WRTREE appends (R151), and how RDTREE ends on a header and on what
is none (R154 to R158). -/

namespace Sys2Proof.Machine

/-! ### The codec on a valid tree and on a header -/

theorem exec_wrtree_valid {s : State} {t : CodeTree} (hs : s.ready) (ho : s.out.isOpen = true)
    (hv : s.status.treeValid = true) (ht : s.tree = some t) :
    exec .wrtree s = .next (finish (append (encTree t) (accept .wrtree s))) := by
  rw [exec_wrtree]
  exact runCommand_primitive_ok rfl hs (wrtreeBody_valid (s := accept .wrtree s) ho hv ht)

theorem rdtreeDone_nnode (t : CodeTree) (s : State) : (rdtreeDone t s).nnode = BitVec.ofNat 10 t.nodes :=
  BitVec.zero_add _

/-! ### What ends a header that is not whole -/

/-- A marker due at the end of the input (43_tree_codec.md R155). -/
theorem readNode_eoi {s : State} (ho : s.inp.isOpen = true) (h : s.ahead = []) :
    readNode s = .raised .truncatedHeader (toEnd s) := by
  rw [readNode, takeMarker, inRead_none ho (by rw [h]; decide), Res.bind_ok, Res.bind_raised]

/-- A symbol field cut short, whatever bits of it are there (43_tree_codec.md R155, 60_exceptions.md R231). -/
theorem readNode_cutField {s : State} {part : BitString} (ho : s.inp.isOpen = true)
    (hn : s.nnode.toNat < Config.nodeCap) (h : s.ahead = true :: part) (hpart : part.length < 9) :
    readNode s = .raised .truncatedHeader (toEnd (tally 1 s)) := by
  have hahead : (tally 1 (advance 1 s)).ahead = part := (ahead_advance 1 s).trans (by rw [h]; rfl)
  obtain ⟨-, hfield⟩ | ⟨hlong, -⟩ := takeField_cases (s := tally 1 (advance 1 s)) ho
  · rw [readNode, takeMarker_one ho hn h, Res.bind_ok, if_pos (by decide), hfield]
    rfl
  · rw [hahead] at hlong; omega

/-- A marker at the node cap, `0` or `1` (43_tree_codec.md R156). -/
theorem readNode_overflow {s : State} {marker : Bool} {after : BitString} (ho : s.inp.isOpen = true)
    (hn : s.nnode.toNat = Config.nodeCap) (h : s.ahead = marker :: after) :
    readNode s = .raised .treeOverflow (advance 1 s) := by
  rw [readNode, takeMarker_overflow ho h hn, Res.bind_raised]

/-- A symbol field of 257 to 511, once the whole field is read (43_tree_codec.md R157). -/
theorem readNode_invalid {s : State} {f : BitVec 9} {after : BitString} (ho : s.inp.isOpen = true)
    (hn : s.nnode.toNat < Config.nodeCap) (hf : 256 < f.toNat) (h : s.ahead = encode (.nodeLeaf f) ++ after) :
    readNode s = .raised .invalidSymbol (tally 1 (advance 10 s)) := by
  have hahead : s.ahead = true :: (bitsOf 9 f.toNat ++ after) := h
  have hrest : (tally 1 (advance 1 s)).ahead = bitsOf 9 f.toNat ++ after :=
    (ahead_advance 1 s).trans (by rw [hahead]; rfl)
  have hfield : takeField (tally 1 (advance 1 s)) = .ok f (advance 9 (tally 1 (advance 1 s))) := by
    rw [takeField, inRead_bitsOf (s := tally 1 (advance 1 s)) ho (by decide) hrest, Res.bind_ok]
  rw [readNode, takeMarker_one ho hn hahead, Res.bind_ok, if_pos (by decide), hfield, Res.bind_ok,
    checkField_invalid hf]
  rfl

/-- RDTREE after the node tokens `l`. -/
def afterTokens (l : List NodeToken) (s : State) : State :=
  tally l.length (advance (tokenBits l).length (rdtreeStart s))

theorem afterTokens_ahead {l : List NodeToken} {s : State} {after : BitString} (h : s.ahead = tokenBits l ++ after) :
    (afterTokens l s).ahead = after :=
  (ahead_advance (tokenBits l).length s).trans (by rw [h, List.drop_left])

theorem afterTokens_nnode (l : List NodeToken) (s : State) : (afterTokens l s).nnode = BitVec.ofNat 10 l.length :=
  BitVec.zero_add _

theorem afterTokens_nnode_toNat {l : List NodeToken} (hl : l.length ≤ 513) (s : State) :
    (afterTokens l s).nnode.toNat = l.length := by
  rw [afterTokens_nnode, BitVec.toNat_ofNat]
  exact Nat.mod_eq_of_lt (by omega)

/-- A fault the reader meets after an unfinished header ends RDTREE, with the state the reader was in (43_tree_codec.md
R155 to R157). -/
theorem exec_rdtree_unfinished {l : List NodeToken} {s u : State} {e : FaultKind} {after : BitString} (hs : s.ready)
    (ho : s.inp.isOpen = true) (hl : unfinished l) (hlen : l.length ≤ 513) (h : s.ahead = tokenBits l ++ after)
    (hr : readNode (afterTokens l s) = .raised e u) : exec .rdtree s = .next (faultEntry e u.phase.opcode u) := by
  have hread : readTree Config.nodeCap (rdtreeStart s) = .raised e u :=
    readTree_unfinished hl (s := rdtreeStart s) ho rfl hlen h hr
  have hbody : rdtreeBody (accept .rdtree s) = .raised e u := by rw [rdtreeBody, ← rdtreeStart, hread, Res.bind_raised]
  rw [exec_rdtree]
  exact runCommand_primitive_raised rfl hs hbody

end Sys2Proof.Machine

namespace Sys2Proof.Proofs

open Sys2Proof.Machine

/-- Settles O33: the walk appends the header, and the command ends without a fault. -/
theorem wrtreeAppendsHeader : Obligations.WrtreeAppendsHeader := by
  intro s t hs ho hv ht
  exact ⟨t.encTree_length, exec_wrtree_valid hs ho hv ht⟩

/-- Settles O34: the header gives back its tree, and every node of it was counted. -/
theorem rdtreeReadsHeader : Obligations.RdtreeReadsHeader := by
  intro s t after hs ho hahead hb
  rw [exec_rdtree_header hs ho hb hahead, ← rdtreeDone_nnode t s]
  rfl

/-- Settles O35: the reader takes the tokens and meets `EOI`, at the marker or in the field. -/
theorem rdtreeMeetsEndOfInput : Obligations.RdtreeMeetsEndOfInput := by
  rintro s l hs ho hl (⟨hlen, hahead⟩ | ⟨hlen, part, hpart, hahead⟩)
  · rw [← List.append_nil (tokenBits l)] at hahead
    have hr := readNode_eoi (s := afterTokens l s) ho (afterTokens_ahead hahead)
    exact ⟨_, exec_rdtree_unfinished hs ho hl hlen hahead hr, rfl⟩
  · have hn : (afterTokens l s).nnode.toNat < Config.nodeCap := by rw [afterTokens_nnode_toNat hlen.le]; exact hlen
    have hr := readNode_cutField (s := afterTokens l s) ho hn (afterTokens_ahead hahead) hpart
    exact ⟨_, exec_rdtree_unfinished hs ho hl hlen.le hahead hr, rfl⟩

/-- Settles O36: the reader takes the tokens and meets the marker at the cap, or the field out of range. -/
theorem rdtreeStopsAtOverflowOrBadSymbol : Obligations.RdtreeStopsAtOverflowOrBadSymbol := by
  intro s l after hs ho hl
  refine ⟨fun marker hlen hahead => ?_, fun f hlen hf hahead => ?_⟩
  · have hcount : (afterTokens l s).nnode = 513#10 := by rw [afterTokens_nnode, hlen]
    have hr := readNode_overflow (s := afterTokens l s) ho (by rw [hcount]; rfl) (afterTokens_ahead hahead)
    rw [exec_rdtree_unfinished hs ho hl hlen.le hahead hr, ← hcount]
    rfl
  · rw [List.append_assoc] at hahead
    have hn : (afterTokens l s).nnode.toNat < Config.nodeCap := by rw [afterTokens_nnode_toNat hlen.le]; exact hlen
    have hr := readNode_invalid (s := afterTokens l s) ho hn hf (afterTokens_ahead hahead)
    have hcount : (tally 1 (advance 10 (afterTokens l s))).nnode = BitVec.ofNat 10 (l.length + 1) := by
      rw [BitVec.ofNat_add, ← afterTokens_nnode l s]
      rfl
    rw [exec_rdtree_unfinished hs ho hl hlen.le hahead hr, ← hcount]
    rfl

end Sys2Proof.Proofs
end

section
/-! PROOFS. Statements of 44_encoder.md: ENCBODY at a missing code (R176), and COMPRESS of the empty input (R182). -/

namespace Sys2Proof.Machine

/-! ### Whole bytes ahead -/

/-- Eight bits are a byte. -/
theorem exists_byte {bits : BitString} (h : 8 ≤ bits.length) :
    ∃ b : Byte, bits = bitsOf 8 b.toNat ++ bits.drop 8 := by
  have hlen : (bits.take 8).length = 8 := by rw [List.length_take]; omega
  have hlt := valOf_lt (bits.take 8)
  rw [hlen] at hlt
  refine ⟨BitVec.ofNat 8 (valOf (bits.take 8)), ?_⟩
  have hval := bitsOf_valOf (bits.take 8)
  rw [hlen] at hval
  rw [BitVec.toNat_ofNat, Nat.mod_eq_of_lt hlt, hval, List.take_append_drop]

/-- Every bit string is whole bytes and a fragment (40_frequency_counter.md R111). -/
theorem exists_bytes (bits : BitString) :
    ∃ (bytes : List Byte) (tail : BitString), bits = bitsOfBytes bytes ++ tail ∧ tail.length < 8 := by
  induction hn : bits.length using Nat.strong_induction_on generalizing bits with
  | _ n ih =>
    by_cases hlen : bits.length < 8
    · exact ⟨[], bits, rfl, hlen⟩
    · obtain ⟨b, hb⟩ := exists_byte (not_lt.mp hlen)
      obtain ⟨bytes, tail, hrest, htail⟩ := ih (bits.drop 8).length (by rw [List.length_drop]; omega) (bits.drop 8) rfl
      refine ⟨b :: bytes, tail, ?_, htail⟩
      rw [bitsOfBytes, List.append_assoc, ← hrest, ← hb]

/-! ### ENCBODY at a missing code -/

theorem emitSymbol_missing {y : Sym} {s : State} (h : codeAt s y = none) : emitSymbol y s = .raised .noCode s := by
  rw [emitSymbol, h]

/-- The encoder's loop stops at the first byte without a code, with the codes before it written (44_encoder.md R176). -/
theorem overBytes_missing {bytes : List Byte} {b : Byte} (more : List Byte) {s : State} (ho : s.out.isOpen = true)
    (h : ∀ x ∈ bytes, codeAt s (symOfByte x) ≠ none) (hb : codeAt s (symOfByte b) = none) :
    overBytes (fun b s => emitSymbol (symOfByte b) s) (bytes ++ b :: more) s =
      .raised .noCode (append (codesIn s.code bytes) (advance (8 * (bytes.length + 1)) s)) := by
  induction bytes generalizing s with
  | nil =>
    rw [List.nil_append, overBytes, emitSymbol_missing (s := advance 8 s) hb, Res.bind_raised, codesIn, List.flatMap_nil,
      append_nil]
    rfl
  | cons x bytes ih =>
    have hx : codeAt (advance 8 s) (symOfByte x) ≠ none := h x (by simp)
    rw [List.cons_append, overBytes, emitSymbol_some (s := advance 8 s) ho hx, Res.bind_ok,
      ih (s := append _ (advance 8 s)) ho (fun z hz => h z (by simp [hz])) hb]
    have hpos : s.inp.pos + 8 + 8 * (bytes.length + 1) = s.inp.pos + 8 * (bytes.length + 1 + 1) := by omega
    simp only [codesIn, List.flatMap_cons, append, advance, List.append_assoc, List.length_cons, hpos]

/-- ENCBODY at a byte without a code (44_encoder.md R176). -/
theorem encbodyBody_missing_byte {s : State} {bytes : List Byte} {b : Byte} {after : BitString}
    (hi : s.inp.isOpen = true) (ho : s.out.isOpen = true) (hv : s.status.codeValid = true)
    (hbytes : ∀ x ∈ bytes, codeAt s (symOfByte x) ≠ none) (hb : codeAt s (symOfByte b) = none)
    (h : s.ahead = bitsOfBytes bytes ++ (bitsOf 8 b.toNat ++ after)) :
    encbodyBody s = .raised .noCode (append (codesIn s.code bytes) (advance (8 * (bytes.length + 1)) s)) := by
  obtain ⟨more, tail, hafter, htail⟩ := exists_bytes after
  have hall : s.ahead = bitsOfBytes (bytes ++ b :: more) ++ tail := by
    rw [h, hafter, bitsOfBytes_append, bitsOfBytes, List.append_assoc, List.append_assoc]
  rw [encbodyBody, hv, require_true, Res.bind_ok,
    eachByte_eq _ (fun b => emitSymbol_inp (symOfByte b)) _ tail htail _ s hi hall (bytes_lt_readFuel hall),
    overBytes_missing more ho hbytes hb, Res.bind_raised]

/-- ENCBODY at the end of the input when the end-of-block symbol has no code (44_encoder.md R176). -/
theorem encbodyBody_missing_eob {s : State} {bytes : List Byte} {tail : BitString} (hi : s.inp.isOpen = true)
    (ho : s.out.isOpen = true) (hv : s.status.codeValid = true)
    (hbytes : ∀ x ∈ bytes, codeAt s (symOfByte x) ≠ none) (he : codeAt s Config.eob = none)
    (h : s.ahead = bitsOfBytes bytes ++ tail) (ht : tail.length < 8) :
    encbodyBody s = .raised .noCode (append (codesIn s.code bytes) (toEnd s)) := by
  rw [encbodyBody, hv, require_true, Res.bind_ok,
    eachByte_eq _ (fun b => emitSymbol_inp (symOfByte b)) bytes tail ht _ s hi h (bytes_lt_readFuel h),
    overBytes_emit bytes ho hbytes, Res.bind_ok]
  exact emitSymbol_missing (s := append _ (toEnd s)) he

/-! ### COMPRESS of the empty input -/

theorem buildTree_countsOf_nil : buildTree (countsOf []) = .node (.leaf Config.eob) (.leaf Config.eob) :=
  buildTree_of_no_byte fun b => by
    have h := (countsOf_pos [] b).not.mpr List.not_mem_nil
    rwa [BitVec.not_lt, BitVec.le_zero_iff] at h

/-- The stream of the empty input under the guard tree (44_encoder.md R182). -/
theorem streamAfter_nil {freq : Vector Count 256} (h : buildTree freq = .node (.leaf Config.eob) (.leaf Config.eob)) :
    streamAfter [] freq [] =
    bitsOf 32 Config.magic.toNat ++
      [false, true, true, false, false, false, false, false, false, false, false,
        true, true, false, false, false, false, false, false, false, false] ++ [true] := by
  have hcode : codeIn (codesOf (.node (.leaf Config.eob) (.leaf Config.eob))) Config.eob = [true] := by
    rw [codeIn, (codesOf_pair Config.eob Config.eob).1, Option.getD_some]
  have hheader : encTree (.node (.leaf Config.eob) (.leaf Config.eob)) =
      [false, true, true, false, false, false, false, false, false, false, false,
        true, true, false, false, false, false, false, false, false, false] := by decide
  rw [streamAfter, h, hcode, hheader, codesIn, List.flatMap_nil, List.append_nil, List.nil_append]

theorem streamPad_nil {s : State} {freq : Vector Count 256} (h : s.out.bits = [])
    (hfreq : buildTree freq = .node (.leaf Config.eob) (.leaf Config.eob)) :
    streamPad s freq [] = [Config.padBit s.draws 0, Config.padBit s.draws 1] := by
  have hlen : padLength (streamAfter s.out.bits freq []).length = 2 := by
    rw [h, streamAfter_nil hfreq, List.length_append, List.length_append, bitsOf_length]
    rfl
  rw [streamPad, hlen]
  rfl

end Sys2Proof.Machine

namespace Sys2Proof.Proofs

open Sys2Proof.Machine

/-- Settles O41: the loop writes the codes until the byte without one, or comes to the end of the input, where 256 has
none. -/
theorem encbodyStopsAtMissingCode : Obligations.EncbodyStopsAtMissingCode := by
  intro s bytes hs hi ho hv hbytes
  rw [exec_encbody]
  refine ⟨fun b after hahead hb => ?_, fun tail hahead htail he => ?_⟩
  · rw [List.append_assoc] at hahead
    exact runCommand_primitive_raised rfl hs
      (encbodyBody_missing_byte (s := accept .encbody s) hi ho hv hbytes hb hahead)
  · exact runCommand_primitive_raised rfl hs
      (encbodyBody_missing_eob (s := accept .encbody s) hi ho hv hbytes he hahead htail)

/-- Settles O43: the tree of the empty table has the two end-of-block leaves, of which the right one gives the code; 54
bits take a pad of two. -/
theorem compressOfNothing : Obligations.CompressOfNothing := by
  intro s hs hinp ho hout
  have hend := exec_compress_fresh (bytes := []) hs hinp ho
  have htree := buildTree_countsOf_nil
  generalize countsOf [] = freq at hend htree
  refine ⟨_, Config.padBit s.draws 0, Config.padBit s.draws 1, hend, ?_, ?_, ?_⟩
  · rw [compressed_status hs.2]
  · rw [compressed_out]
  · rw [compressed_out, streamPad_nil hout htree, hout, streamAfter_nil htree]

end Sys2Proof.Proofs
end

section
/-! PROOFS. Statements of 45_decoder.md: DECBODY on whole codes (R196, R197) and on bits that run out (R194), and
DECOMPRESS on a stream in the wire format (R198). -/

namespace Sys2Proof.Machine

theorem bodyRead_eq (items : List (BitString × Byte)) (e : BitString) (s : State) :
    bodyRead items e s =
      { s with
        out := { s.out with bits := s.out.bits ++ bitsOfBytes (items.map (·.2)) }
        inp := { s.inp with pos := s.inp.pos + (items.flatMap (·.1) ++ e).length }
        cur := .leaf Config.eob } := by
  simp only [bodyRead, point, advance, append, List.length_append, Nat.add_assoc]

/-- The state once DECBODY has read the codes of `items` and met the end of the input (45_decoder.md R194). -/
def bodyCut (items : List (BitString × Byte)) (sub : CodeTree) (s : State) : State :=
  point sub (append (bitsOfBytes (items.map (·.2))) (toEnd s))

/-- DECBODY on codes and a part of one: the loop takes a pass for each bit and one for `EOI` (45_decoder.md R194). -/
theorem decbodyBody_cut {s : State} {t sub : CodeTree} {items : List (BitString × Byte)} {part : BitString}
    (hi : s.inp.isOpen = true) (ho : s.out.isOpen = true) (hv : s.status.treeValid = true) (ht : s.tree = some t)
    (hroot : t.isLeaf = false) (hitems : ∀ q ∈ items, t.isCode q.1 (symOfByte q.2)) (hpart : t.follow part = some sub)
    (hsub : sub.isLeaf = false) (h : s.ahead = items.flatMap (·.1) ++ part) :
    decbodyBody s = .raised .truncatedStream (bodyCut items sub s) := by
  obtain ⟨n, hn⟩ : ∃ n, readFuel s = n + 1 + part.length + (items.flatMap (·.1)).length := by
    have hlt := ahead_lt_readFuel s
    rw [h, List.length_append] at hlt
    exact ⟨readFuel s - 1 - part.length - (items.flatMap (·.1)).length, by omega⟩
  -- where the loop stands before the part
  generalize hw : append (bitsOfBytes (items.map (·.2))) (advance (items.flatMap (·.1)).length (point t s)) = w
  have hwi : w.inp.isOpen = true := by rw [← hw]; exact hi
  have hwcur : w.cur = t := by rw [← hw]; rfl
  have hahead : w.ahead = part ++ [] := by
    rw [← hw, append_ahead, ahead_advance, point_ahead, h, List.drop_left, List.append_nil]
  have hend : (point sub (advance part.length w)).ahead = [] := by
    rw [point_ahead, ahead_advance, hahead, List.drop_left]
  have hcut : toEnd (point sub (advance part.length w)) = bodyCut items sub s := by rw [← hw]; rfl
  rw [decbodyBody_internal hv ht hroot, hn,
    decodeLoop_items t hroot _ items part (s := point t s) hi ho rfl hitems h, hw,
    decodeLoop_inside t (n + 1) part [] sub hwi (by rw [hwcur, hpart]) hsub hahead,
    decodeLoop_eoi t n (s := point sub (advance part.length w)) hwi hend, hcut]

/-- DECOMPRESS leaves the port, the error record and the bits of the input as they were, and the tables cleared
(45_decoder.md R198). -/
theorem decompressed_frame (t : CodeTree) (items : List (BitString × Byte)) (e : BitString) (s : State) :
    decompressed t items e s =
      { s with
        freq := Vector.replicate 256 0#32, tree := none, code := Vector.replicate 257 none, pq := [], seq := 0#10
        nnode := 0#10, cur := (decompressed t items e s).cur, phase := .idle, stack := [], draws := s.draws + 1
        inp :=
          { s.inp with
            pos := s.inp.pos + 32 + (encTree t).length + (items.flatMap (·.1)).length + e.length, isOpen := false }
        out := (decompressed t items e s).out
        status :=
          { busy := false, done := true, err := s.status.err, freqValid := false, treeValid := false
            codeValid := false } } := rfl

end Sys2Proof.Machine

namespace Sys2Proof.Proofs

open Sys2Proof.Machine

/-- Settles O45: the loop writes a byte at each code and stops at the end-of-block leaf. -/
theorem decbodyWritesBytes : Obligations.DecbodyWritesBytes := by
  intro s t items e after hs hi ho hv ht hroot hitems he hahead
  rw [List.append_assoc] at hahead
  have hbody := decbodyBody_codes (s := accept .decbody s) hi ho hv ht hroot hitems he hahead
  rw [exec_decbody]
  rw [bodyRead_eq] at hbody
  exact ⟨_, runCommand_primitive_ok rfl hs hbody, rfl⟩

/-- Settles O46: the loop writes the bytes of the whole codes, moves to an internal node, and meets `EOI` there. -/
theorem decbodyMeetsEndOfInput : Obligations.DecbodyMeetsEndOfInput := by
  intro s t sub items part hs hi ho _ hv ht hroot hitems hpart hsub hahead
  have hbody := decbodyBody_cut (s := accept .decbody s) hi ho hv ht hroot hitems hpart hsub hahead
  rw [exec_decbody]
  exact ⟨_, runCommand_primitive_raised rfl hs hbody, rfl⟩

/-- Settles O47: the magic, the header and the body are read one after the other, and the end closes the streams and clears
the data. -/
theorem decompressReadsStream : Obligations.DecompressReadsStream := by
  intro s t items e after hs hi ho hout hb hroot hitems he hahead
  have hend := exec_decompress_stream (after := after) hs hi ho hb hroot hitems he (by
    rw [hahead]; simp only [List.append_assoc])
  refine ⟨_, hend, ?_⟩
  refine (decompressed_frame t items e s).trans ?_
  rw [decompressed_out hout, hs.2]

end Sys2Proof.Proofs
end

section
/-! PROOFS. Open and closed streams: with both open every command word runs to its end (30_encoding.md R80,
70_reset_and_hazards.md R278), and a transaction on a stream that is not open is refused (20_memory.md R69, R275). -/

namespace Sys2Proof.Machine

variable {α β : Type}

/-! ### Work on an open input -/

/-- The input is open; `o` says whether the output is. -/
structure Streams (o : Bool) (s : State) : Prop where
  inp : s.inp.isOpen = true
  out : s.out.isOpen = o

/-- Work that leaves the streams open or not as they were, and is refused only for an output that is not open. -/
def Res.ranOn (o : Bool) : Res α → Prop
  | .ok _ t => Streams o t
  | .raised _ t => Streams o t
  | .refused r => o = false ∧ r = .outputNotOpen

theorem ranOn_bind {o : Bool} {r : Res α} {k : α → State → Res β} (h : r.ranOn o)
    (hk : ∀ a t, Streams o t → (k a t).ranOn o) : (r.bind k).ranOn o := by
  cases r with
  | ok a t => exact hk a t h
  | raised e t => exact h
  | refused r => exact h

theorem inRead_ranOn {o : Bool} {s : State} (h : Streams o s) (w : Nat) : (inRead w s).ranOn o := by
  obtain ⟨hshut, -⟩ | ⟨-, -, v, hr⟩ | ⟨-, -, hr⟩ := inRead_cases w s
  · rw [h.inp] at hshut; cases hshut
  · rw [hr]; exact ⟨h.inp, h.out⟩
  · rw [hr]; exact ⟨h.inp, h.out⟩

theorem outWrite_ranOn {o : Bool} {s : State} (h : Streams o s) (w v : Nat) : (outWrite w v s).ranOn o := by
  cases o with
  | true => rw [outWrite_open h.out]; exact ⟨h.inp, h.out⟩
  | false => rw [outWrite_refused h.out]; exact ⟨rfl, rfl⟩

theorem inRewind_ranOn {o : Bool} {s : State} (h : Streams o s) : (inRewind s).ranOn o := by
  rw [inRewind_open h.inp]
  exact ⟨h.inp, h.out⟩

theorem require_ranOn {o : Bool} {s : State} (h : Streams o s) (c : Bool) (e : FaultKind) : (require c e s).ranOn o := by
  cases c <;> exact h

theorem needTree_ranOn {o : Bool} {s : State} (h : Streams o s) {k : CodeTree → State → Res α}
    (hk : ∀ t, (k t s).ranOn o) : (needTree s k).ranOn o := by
  unfold needTree
  split
  · exact h
  · exact hk _

theorem eachByte_ranOn {o : Bool} {body : Byte → State → Res Unit} (hb : ∀ b t, Streams o t → (body b t).ranOn o)
    (n : Nat) {s : State} (h : Streams o s) : (eachByte body n s).ranOn o := by
  induction n generalizing s with
  | zero => exact h
  | succ n ih =>
    refine ranOn_bind (inRead_ranOn h 8) fun v t ht => ?_
    cases v with
    | none => exact ht
    | some b => exact ranOn_bind (hb b t ht) fun _ u hu => ih hu

theorem countBody_ranOn {o : Bool} {s : State} (h : Streams o s) : (countBody s).ranOn o := by
  have hinit : Streams o (countInit s) := ⟨h.inp, h.out⟩
  have hbump : ∀ (b : Byte) (t : State), Streams o t → (Res.ok () (bumpFreq b t)).ranOn o :=
    fun b t ht => (⟨ht.inp, ht.out⟩ : Streams o (bumpFreq b t))
  exact ranOn_bind (eachByte_ranOn hbump _ hinit) fun _ _ hu => ⟨hu.inp, hu.out⟩

theorem buildBody_ranOn {o : Bool} {s : State} (h : Streams o s) : (buildBody s).ranOn o :=
  ranOn_bind (require_ranOn h _ _) fun _ _ ht => ⟨ht.inp, ht.out⟩

theorem gencodesBody_ranOn {o : Bool} {s : State} (h : Streams o s) : (gencodesBody s).ranOn o := by
  have hdrop : Streams o (dropCode s) := ⟨h.inp, h.out⟩
  exact needTree_ranOn h fun _ => ranOn_bind (require_ranOn hdrop _ _) fun _ _ ht => ⟨ht.inp, ht.out⟩

theorem writeTree_ranOn {o : Bool} (t : CodeTree) {s : State} (h : Streams o s) : (writeTree t s).ranOn o := by
  induction t generalizing s with
  | leaf y => exact ranOn_bind (outWrite_ranOn h 1 1) fun _ _ hu => outWrite_ranOn hu 9 y.val
  | node l r hl hr => exact ranOn_bind (outWrite_ranOn h 1 0) fun _ _ hu => ranOn_bind (hl hu) fun _ _ hv => hr hv

theorem writeCode_ranOn {o : Bool} (n : Nat) (c : BitString) {s : State} (h : Streams o s) :
    (writeCode n c s).ranOn o := by
  induction n generalizing c s with
  | zero => exact h
  | succ n ih =>
    cases c with
    | nil => exact h
    | cons b bs => exact ranOn_bind (outWrite_ranOn h _ _) fun _ _ hu => ih _ hu

theorem emitSymbol_ranOn {o : Bool} (y : Sym) {s : State} (h : Streams o s) : (emitSymbol y s).ranOn o := by
  unfold emitSymbol
  split
  · exact h
  · exact writeCode_ranOn _ _ h

theorem encbodyBody_ranOn {o : Bool} {s : State} (h : Streams o s) : (encbodyBody s).ranOn o :=
  ranOn_bind (require_ranOn h _ _) fun _ _ ht =>
    ranOn_bind (eachByte_ranOn (fun _ _ hu => emitSymbol_ranOn _ hu) _ ht) fun _ _ hv => emitSymbol_ranOn _ hv

theorem rdmagicBody_ranOn {o : Bool} {s : State} (h : Streams o s) : (rdmagicBody s).ranOn o :=
  ranOn_bind (inRead_ranOn h 32) fun v t ht => by unfold checkMagic; split <;> exact ht

theorem readNode_ranOn {o : Bool} {s : State} (h : Streams o s) : (readNode s).ranOn o := by
  have hmarker : (takeMarker s).ranOn o := by
    refine ranOn_bind (inRead_ranOn h 1) fun m t ht => ?_
    cases m with
    | none => exact ht
    | some m => simp only; split <;> exact ⟨ht.inp, ht.out⟩
  refine ranOn_bind hmarker fun m t ht => ?_
  split
  · refine ranOn_bind (ranOn_bind (inRead_ranOn ht 9) fun f u hu => by cases f <;> exact hu) fun f u hu => ?_
    obtain ⟨-, hc⟩ | ⟨y, -, hc⟩ := checkField_cases f u <;> rw [hc] <;> exact hu
  · exact ht

theorem readTree_ranOn {o : Bool} (n : Nat) {s : State} (h : Streams o s) : (readTree n s).ranOn o := by
  induction n generalizing s with
  | zero => exact ranOn_bind (readNode_ranOn h) fun _ _ ht => ht
  | succ n ih =>
    refine ranOn_bind (readNode_ranOn h) fun k t ht => ?_
    cases k with
    | leaf y => exact ht
    | internal => exact ranOn_bind (ih ht) fun _ _ hu => ranOn_bind (ih hu) fun _ _ hv => hv

theorem rdtreeBody_ranOn {o : Bool} {s : State} (h : Streams o s) : (rdtreeBody s).ranOn o := by
  have hinit : Streams o (rdtreeInit s) := ⟨h.inp, h.out⟩
  exact ranOn_bind (readTree_ranOn _ hinit) fun _ _ ht => ⟨ht.inp, ht.out⟩

theorem decodeBit_ranOn {o : Bool} (root : CodeTree) (b : Bool) {s : State} (h : Streams o s) :
    (decodeBit root b s).ranOn o := by
  obtain ⟨l, r, -, hr⟩ | ⟨-, hr⟩ | ⟨y, -, -, ⟨-, hr⟩ | ⟨hshut, hr⟩⟩ := decodeBit_cases root b s <;> rw [hr]
  · exact ⟨h.inp, h.out⟩
  · exact ⟨h.inp, h.out⟩
  · exact ⟨h.inp, h.out⟩
  · exact ⟨h.out.symm.trans hshut, rfl⟩

theorem decodeLoop_ranOn {o : Bool} (root : CodeTree) (n : Nat) {s : State} (h : Streams o s) :
    (decodeLoop root n s).ranOn o := by
  induction n generalizing s with
  | zero => exact h
  | succ n ih =>
    refine ranOn_bind (inRead_ranOn h 1) fun b t ht => ?_
    cases b with
    | none => exact ht
    | some b =>
      refine ranOn_bind (decodeBit_ranOn root _ ht) fun fin u hu => ?_
      cases fin with
      | true => exact hu
      | false => exact ih hu

theorem decbodyBody_ranOn {o : Bool} {s : State} (h : Streams o s) : (decbodyBody s).ranOn o := by
  have hinit : (decbodyInit s).ranOn o := by
    obtain hr | hr | ⟨t, -, -, -, hr⟩ := decbodyInit_cases s <;> rw [hr]
    · exact h
    · exact h
    · exact ⟨h.inp, h.out⟩
  exact ranOn_bind hinit fun t u hu => decodeLoop_ranOn t _ hu

theorem primitiveBody_ranOn {o : Bool} {p : Cmd} (hp : p ≠ .close) {s : State} (h : Streams o s) :
    (primitiveBody p s).ranOn o := by
  cases p with
  | count => exact countBody_ranOn h
  | build => exact buildBody_ranOn h
  | gencodes => exact gencodesBody_ranOn h
  | wrmagic => exact outWrite_ranOn h _ _
  | wrtree => exact needTree_ranOn h fun t => writeTree_ranOn t h
  | encbody => exact encbodyBody_ranOn h
  | rdmagic => exact rdmagicBody_ranOn h
  | rdtree => exact rdtreeBody_ranOn h
  | decbody => exact decbodyBody_ranOn h
  | rewind => exact inRewind_ranOn h
  | close => exact absurd rfl hp
  | compress | decompress | clear => exact h

theorem runSteps_ranOn {o : Bool} (c : Cmd) {ps : List Cmd} (hps : ∀ p ∈ ps, p ≠ .close) {s : State}
    (h : Streams o s) : (runSteps c ps s).ranOn o := by
  induction ps generalizing s with
  | nil => exact h
  | cons p ps ih =>
    have hat : Streams o (atStep c p s) := ⟨h.inp, h.out⟩
    exact ranOn_bind (primitiveBody_ranOn (hps p (List.mem_cons_self ..)) hat) fun _ _ hu =>
      ih (fun q hq => hps q (List.mem_cons_of_mem _ hq)) hu

theorem runSteps_append (c : Cmd) (ps qs : List Cmd) (s : State) :
    runSteps c (ps ++ qs) s = (runSteps c ps s).bind fun _ s => runSteps c qs s := by
  induction ps generalizing s with
  | nil => rfl
  | cons p ps ih =>
    rw [List.cons_append, runSteps, runSteps, Res.bind_assoc]
    exact congrArg _ (funext fun _ => funext fun u => ih u)

/-- A composite command closes the streams in its last step, and in that one only (44_encoder.md R178, 45_decoder.md
R198). -/
theorem stepsOf_composite {c : Cmd} (hc : c.composite = true) :
    ∃ ps, stepsOf c = ps ++ [.close] ∧ ∀ p ∈ ps, p ≠ .close := by
  cases c with
  | compress => exact ⟨[.count, .build, .gencodes, .wrmagic, .wrtree, .rewind, .encbody], rfl, by decide⟩
  | decompress => exact ⟨[.rdmagic, .rdtree, .decbody], rfl, by decide⟩
  | _ => cases hc

theorem runSteps_close (c : Cmd) (s : State) : runSteps c [.close] s = closeStreams (atStep c .close s) := by
  rw [runSteps, primitiveBody]
  cases closeStreams (atStep c .close s) <;> rfl

/-! ### Every word runs to its end -/

/-- Every body ends with or without a fault when both streams are open; at a fault they still are. -/
theorem commandBody_ends (c : Cmd) {s : State} (h : Streams true s) :
    (∃ u, commandBody c s = .ok () u) ∨ ∃ e u, commandBody c s = .raised e u ∧ Streams true u := by
  have ends : ∀ r : Res Unit, r.ranOn true → (∃ u, r = .ok () u) ∨ ∃ e u, r = .raised e u ∧ Streams true u := by
    intro r hr
    cases r with
    | ok a u => exact .inl ⟨u, rfl⟩
    | raised e u => exact .inr ⟨e, u, rfl, hr⟩
    | refused r => cases hr.1
  cases hc : c.composite with
  | false =>
    rw [commandBody, hc]
    by_cases hclose : c = .close
    · subst hclose
      exact .inl ⟨_, closeStreams_open h.out⟩
    · exact ends _ (primitiveBody_ranOn hclose h)
  | true =>
    obtain ⟨ps, hsteps, hps⟩ := stepsOf_composite hc
    rw [commandBody, hc, if_pos rfl, hsteps, runSteps_append]
    have hinit : Streams true (cleardata s) := ⟨h.inp, h.out⟩
    have hrun := runSteps_ranOn c hps hinit
    cases hr : runSteps c ps (cleardata s) with
    | refused r => rw [hr] at hrun; cases hrun.1
    | raised e u => rw [hr] at hrun; exact .inr ⟨e, u, rfl, hrun⟩
    | ok a u =>
      rw [hr] at hrun
      rw [Res.bind_ok, runSteps_close, closeStreams_open (s := atStep c .close u) hrun.out]
      exact .inl ⟨_, rfl⟩

theorem exec_opcode_ends {c : Cmd} (hclear : c ≠ .clear) {s : State} (hs : s.ready) (h : Streams true s) :
    ∃ t, exec (decodeCommand c.opcode) s = .next t ∧ t.status.busy = false ∧ t.phase = .idle ∧ t.stack = [] ∧
      t.status.done = true := by
  rw [exec_opcode hclear, runCommand_ready hs]
  have ended : ∀ u, ∃ t, settle (.ok () u) = .next t ∧ t.status.busy = false ∧ t.phase = .idle ∧ t.stack = [] ∧
      t.status.done = true := fun u => ⟨_, rfl, rfl, rfl, rfl, rfl⟩
  have faulted : ∀ e u, ∃ t, settle (.raised e u) = .next t ∧ t.status.busy = false ∧ t.phase = .idle ∧ t.stack = [] ∧
      t.status.done = true := fun e u => ⟨_, rfl, rfl, rfl, rfl, rfl⟩
  obtain ⟨u, hu⟩ | ⟨e, u, hu, hopen⟩ := commandBody_ends c (s := accept c s) ⟨h.inp, h.out⟩ <;> rw [hu]
  · exact ended _
  · cases hc : c.composite with
    | false => rw [unwind_primitive hc]; exact faulted e u
    | true => rw [unwind_composite_raised hc e hopen.out]; exact faulted e _

/-! ### Refusals -/

/-- A body refused refuses the command. -/
theorem exec_opcode_refused {c : Cmd} (hclear : c ≠ .clear) {s : State} (hs : s.ready) {r : Refusal}
    (h : commandBody c (accept c s) = .refused r) : exec (decodeCommand c.opcode) s = .refused r := by
  rw [exec_opcode hclear, runCommand_ready hs, h, unwind_refused, settle_refused]

theorem eachByte_refused {s : State} (h : s.inp.isOpen = false) (body : Byte → State → Res Unit) (n : Nat) :
    eachByte body (n + 1) s = .refused .inputNotOpen := by
  rw [eachByte, inRead_refused h, Res.bind_refused]

theorem countBody_refused {s : State} (h : s.inp.isOpen = false) : countBody s = .refused .inputNotOpen := by
  rw [countBody, readFuel, eachByte_refused (s := countInit s) h, Res.bind_refused]

theorem rdmagicBody_refused {s : State} (h : s.inp.isOpen = false) : rdmagicBody s = .refused .inputNotOpen := by
  rw [rdmagicBody, inRead_refused h, Res.bind_refused]

theorem runSteps_refused {c p : Cmd} (ps : List Cmd) {s : State} {r : Refusal}
    (h : primitiveBody p (atStep c p s) = .refused r) : runSteps c (p :: ps) s = .refused r := by
  rw [runSteps, h, Res.bind_refused]

theorem encbodyBody_refused {s : State} (hi : s.inp.isOpen = false) (hv : s.status.codeValid = true) :
    encbodyBody s = .refused .inputNotOpen := by
  rw [encbodyBody, hv, require_true, Res.bind_ok, readFuel, eachByte_refused hi, Res.bind_refused]

theorem decbodyBody_refused {s : State} {t : CodeTree} (hi : s.inp.isOpen = false) (hv : s.status.treeValid = true)
    (ht : s.tree = some t) (hroot : t.isLeaf = false) : decbodyBody s = .refused .inputNotOpen := by
  rw [decbodyBody_internal hv ht hroot, readFuel, decodeLoop, inRead_refused (s := point t s) hi, Res.bind_refused]

/-- The first write of a code is refused while the output is not open (20_memory.md R69). -/
theorem emitSymbol_refused {y : Sym} {c : BitString} {s : State} (h : s.out.isOpen = false) (hc : codeAt s y = some c)
    (hne : c ≠ []) : emitSymbol y s = .refused .outputNotOpen := by
  cases c with
  | nil => exact absurd rfl hne
  | cons b bs => simp only [emitSymbol, hc, List.length_cons, writeCode, outWrite_refused h, Res.bind_refused]

theorem encbodyBody_refused_byte {s : State} {b : Byte} {after c : BitString} (h : Streams false s)
    (hv : s.status.codeValid = true) (hahead : s.ahead = bitsOf 8 b.toNat ++ after)
    (hc : codeAt s (symOfByte b) = some c) (hne : c ≠ []) : encbodyBody s = .refused .outputNotOpen := by
  rw [encbodyBody, hv, require_true, Res.bind_ok, readFuel, eachByte, inRead_bitsOf h.inp (by decide) hahead, Res.bind_ok]
  simp only
  rw [emitSymbol_refused (s := advance 8 s) h.out hc hne, Res.bind_refused, Res.bind_refused]

theorem encbodyBody_refused_eob {s : State} {c : BitString} (h : Streams false s) (hv : s.status.codeValid = true)
    (hahead : s.ahead.length < 8) (hc : codeAt s Config.eob = some c) (hne : c ≠ []) :
    encbodyBody s = .refused .outputNotOpen := by
  rw [encbodyBody, hv, require_true, Res.bind_ok, readFuel, eachByte, inRead_none h.inp hahead, Res.bind_ok]
  exact emitSymbol_refused (s := toEnd s) h.out hc hne

theorem decbodyBody_refused_byte {s : State} {t : CodeTree} {path after : BitString} {b : Byte} (h : Streams false s)
    (hv : s.status.treeValid = true) (ht : s.tree = some t) (hroot : t.isLeaf = false)
    (hcode : t.isCode path (symOfByte b)) (hahead : s.ahead = path ++ after) :
    decbodyBody s = .refused .outputNotOpen := by
  obtain ⟨n, hn⟩ : ∃ n, readFuel s = n + path.length := by
    have hlt := ahead_lt_readFuel s
    rw [hahead, List.length_append] at hlt
    exact ⟨readFuel s - path.length, by omega⟩
  rw [decbodyBody_internal hv ht hroot, hn, decodeLoop_code t n path after _ (s := point t s) h.inp hroot hcode hahead,
    if_neg (symOfByte_ne_eob b), outWrite_refused (s := point _ (advance _ (point t s))) h.out, Res.bind_refused]

/-- COMPRESS makes its first write in WRMAGIC (44_encoder.md R178). -/
theorem compress_refused {s : State} (h : Streams false s) :
    runSteps .compress (stepsOf .compress) s = .refused .outputNotOpen := by
  obtain ⟨bytes, tail, hahead, htail⟩ := exists_bytes s.ahead
  rw [stepsOf, runSteps_tables _ h.inp hahead htail]
  generalize countsOf bytes = freq
  exact runSteps_refused _ (outWrite_refused (s := atStep .compress .wrmagic (tabled freq s)) h.out)

/-- DECOMPRESS, whatever it reads, closes its streams at the end or on a fault (45_decoder.md R198, R199). -/
theorem decompress_refused {s : State} (h : Streams false s) :
    unwind .decompress (runSteps .decompress (stepsOf .decompress) s) = .refused .outputNotOpen := by
  obtain ⟨ps, hsteps, hps⟩ := stepsOf_composite (c := .decompress) rfl
  have hrun := runSteps_ranOn .decompress hps h
  rw [hsteps, runSteps_append]
  cases hr : runSteps .decompress ps s with
  | refused r => rw [hr] at hrun; rw [hrun.2, Res.bind_refused, unwind_refused]
  | raised e u =>
    rw [hr] at hrun
    rw [Res.bind_raised, unwind, Cmd.composite, if_pos rfl, closeStreams_refused hrun.out, Res.bind_refused]
  | ok a u =>
    rw [hr] at hrun
    rw [Res.bind_ok, runSteps_close, closeStreams_refused (s := atStep .decompress .close u) hrun.out, unwind_refused]

end Sys2Proof.Machine

namespace Sys2Proof.Proofs

open Sys2Proof.Machine

/-- Settles O9: with both streams open no transaction of a body is refused, and the end sets the command port. -/
theorem everyCommandRunsToItsEnd : Obligations.EveryCommandRunsToItsEnd := by
  intro s w hs hi ho
  obtain ⟨rfl, hw⟩ | ⟨hres, hw⟩ | ⟨c, hclear, rfl, -⟩ := exec_word_eq w s
  · refine ⟨clearAll s, hw.trans (gate_ready hs _), rfl, rfl, rfl, ?_⟩
    exact iff_of_false (by rw [clearAll_status]; decide) fun h => h rfl
  · refine ⟨_, hw.trans (illegalCommand_ready hs w), rfl, rfl, rfl, iff_of_true rfl ?_⟩
    rintro rfl
    obtain h | h := hres <;> cases h
  · obtain ⟨t, ht, hb, hp, hk, hd⟩ := exec_opcode_ends hclear hs ⟨hi, ho⟩
    exact ⟨t, ht, hb, hp, hk, iff_of_true hd (by revert hclear; cases c <;> decide)⟩

/-- Settles O32: the first transaction on the stream that is not open refuses the body it stands in. -/
theorem closedStreamsAreRefused : Obligations.ClosedStreamsAreRefused := by
  refine ⟨fun s hs hi => ?_, fun s hb ho => ?_, fun s hs ho => ⟨?_, fun t hv ht => ?_, fun hi => ?_⟩⟩
  · refine ⟨?_, ?_, ?_, ?_, ?_, ?_, fun hv => ?_, fun t hv ht hroot => ?_⟩
    · exact exec_opcode_refused (c := .count) (by decide) hs (countBody_refused (s := accept .count s) hi)
    · exact exec_opcode_refused (c := .rdmagic) (by decide) hs (rdmagicBody_refused (s := accept .rdmagic s) hi)
    · refine exec_opcode_refused (c := .rdtree) (by decide) hs ?_
      change rdtreeBody (accept .rdtree s) = _
      rw [rdtreeBody, readTree_refused (s := rdtreeInit (accept .rdtree s)) hi, Res.bind_refused]
    · refine exec_opcode_refused (c := .rewind) (by decide) hs ?_
      change inRewind (accept .rewind s) = _
      simp [inRewind, hi]
    · exact exec_opcode_refused (c := .compress) (by decide) hs (runSteps_refused _ (countBody_refused hi))
    · exact exec_opcode_refused (c := .decompress) (by decide) hs (runSteps_refused _ (rdmagicBody_refused hi))
    · exact exec_opcode_refused (c := .encbody) (by decide) hs (encbodyBody_refused (s := accept .encbody s) hi hv)
    · exact exec_opcode_refused (c := .decbody) (by decide) hs
        (decbodyBody_refused (s := accept .decbody s) hi hv ht hroot)
  · rw [exec_close, runCommand_acting hb rfl, closeStreams_refused (s := accept .close s) ho]
    rfl
  · exact exec_opcode_refused (c := .wrmagic) (by decide) hs (outWrite_refused (s := accept .wrmagic s) ho)
  · refine exec_opcode_refused (c := .wrtree) (by decide) hs ?_
    exact (needTree_some (s := accept .wrtree s) hv ht _).trans (writeTree_refused (s := accept .wrtree s) ho t)
  · have hstreams : ∀ c, Streams false (accept c s) := fun _ => ⟨hi, ho⟩
    refine ⟨?_, ?_, fun b after c hv hahead hc hne => ?_, fun c hv hahead hc hne => ?_,
      fun t path b after hv ht hroot hcode hahead => ?_⟩
    · exact exec_opcode_refused (c := .compress) (by decide) hs (compress_refused ⟨hi, ho⟩)
    · rw [exec_decompress, runCommand_ready hs, decompress_refused (s := cleardata (accept .decompress s)) ⟨hi, ho⟩,
        settle_refused]
    · exact exec_opcode_refused (c := .encbody) (by decide) hs
        (encbodyBody_refused_byte (hstreams .encbody) hv hahead hc hne)
    · exact exec_opcode_refused (c := .encbody) (by decide) hs
        (encbodyBody_refused_eob (hstreams .encbody) hv hahead hc hne)
    · exact exec_opcode_refused (c := .decbody) (by decide) hs
        (decbodyBody_refused_byte (hstreams .decbody) hv ht hroot hcode hahead)

end Sys2Proof.Proofs
end

section
/-! PROOFS. How the composite commands end: both streams closed, the data cleared, and a fault recorded with its step
(44_encoder.md R178, R179; 45_decoder.md R198, R199). -/

namespace Sys2Proof.Machine

variable {α β : Type}

/-! ### The end of a composite command -/

/-- Both streams closed and the data cleared. -/
def wrapped (s : State) : State := cleardata (closedStreams s)

/-- The state `t` of a composite command that has ended; `u` is where its steps had come to. -/
structure Shut (u t : State) : Prop where
  out : t.out = u.out.close u.draws
  inp : t.inp.isOpen = false
  port : t.port = u.port
  freq : ∀ b, freqAt t b = 0#32
  code : ∀ y, codeAt t y = none
  tree : t.tree = none
  status : t.status =
    { busy := false, done := true, err := t.status.err, freqValid := false, treeValid := false, codeValid := false }

theorem freqAt_wrapped (s : State) (b : Byte) : freqAt (wrapped s) b = 0#32 := Vector.getElem_replicate _

theorem codeAt_wrapped (s : State) (y : Sym) : codeAt (wrapped s) y = none := Vector.getElem_replicate _

theorem finish_wrapped_shut (u : State) : Shut u (finish (wrapped u)) :=
  ⟨rfl, rfl, rfl, freqAt_wrapped u, codeAt_wrapped u, rfl, rfl⟩

theorem faultEntry_wrapped_shut (e : FaultKind) (op : BitVec 4) (u : State) : Shut u (faultEntry e op (wrapped u)) :=
  ⟨rfl, rfl, rfl, freqAt_wrapped u, codeAt_wrapped u, rfl, rfl⟩

/-- Only the output, the port and the draws of `u` show. -/
theorem Shut.of_eq {u v t : State} (h : Shut u t) (hout : u.out = v.out) (hport : u.port = v.port)
    (hdraws : u.draws = v.draws) : Shut v t :=
  { h with out := by rw [h.out, hout, hdraws], port := by rw [h.port, hport] }

theorem Shut.closed {u t : State} (h : Shut u t) : t.out.closed = true := by rw [h.out]; rfl

theorem Shut.whole {u t : State} (h : Shut u t) : t.out.bits.length % 8 = 0 := by rw [h.out]; exact close_length _ _

/-- The output of a command that has ended is whole bytes. -/
theorem Shut.bytes {u t : State} (h : Shut u t) : ∃ bytes, t.out.bits = bitsOfBytes bytes := by
  obtain ⟨bytes, tail, hbits, htail⟩ := exists_bytes t.out.bits
  have hlen := h.whole
  rw [hbits, List.length_append, bitsOfBytes_length] at hlen
  have hnil : tail = [] := List.eq_nil_of_length_eq_zero (by omega)
  exact ⟨bytes, by rw [hbits, hnil, List.append_nil]⟩

/-- Nothing written is nothing in the output, since no bits take no pad. -/
theorem Shut.empty {u t : State} (h : Shut u t) (hu : u.out.bits = []) : t.out.bits = [] := by
  rw [h.out, close_of_whole (by rw [hu]; rfl), hu]

theorem Shut.grown {u t : State} (h : Shut u t) : u.out.bits <+: t.out.bits := by rw [h.out]; exact close_prefix _ _

theorem finish_wrapped_err (s : State) : (finish (wrapped s)).status.err = s.status.err := by
  simp only [finish, wrapped, cleardata, clearValid, closedStreams]

theorem finish_wrapped_errcode (s : State) : (finish (wrapped s)).errcode = s.errcode := by
  simp only [finish, wrapped, cleardata, clearValid, closedStreams]

theorem finish_wrapped_errcmd (s : State) : (finish (wrapped s)).errcmd = s.errcmd := by
  simp only [finish, wrapped, cleardata, clearValid, closedStreams]

/-- The steps of a composite command before CLOSE, the last one. -/
def stepsToClose (c : Cmd) : List Cmd := (stepsOf c).dropLast

theorem settle_close {c : Cmd} (hc : c.composite = true) {u : State} (ho : u.out.isOpen = true) :
    settle (unwind c (runSteps c [.close] u)) = .next (finish (wrapped u)) := by
  rw [runSteps_close, closeStreams_open (s := atStep c .close u) ho, unwind_composite_ok hc, settle_ok]
  rfl

theorem settle_wrapped {c : Cmd} (hc : c.composite = true) (e : FaultKind) {u : State} (ho : u.out.isOpen = true) :
    settle (unwind c (.raised e u)) = .next (faultEntry e u.phase.opcode (wrapped u)) := by
  rw [unwind_composite_raised hc e ho, settle_raised]
  rfl

/-! ### DECOMPRESS -/

theorem rdmagicBody_raised {s u : State} {e : FaultKind} (h : rdmagicBody s = .raised e u) : e = .badMagic := by
  obtain ⟨-, hr⟩ | ⟨-, -, v, hr⟩ | ⟨-, -, hr⟩ := inRead_cases 32 s <;> rw [rdmagicBody, hr] at h
  · cases h
  · rw [Res.bind_ok, checkMagic] at h
    split at h <;> cases h
    rfl
  · rw [Res.bind_ok, checkMagic, if_neg (Option.some_ne_none _).symm] at h
    cases h; rfl

theorem rdtreeBody_raised {s u : State} {e : FaultKind} (hi : s.inp.isOpen = true) (h : rdtreeBody s = .raised e u) :
    e.ofHeader := by
  obtain ⟨e', u', hr, he⟩ | ⟨t, rest, -, -, hr⟩ :=
    readTree_cases Config.nodeCap (s := rdtreeInit s) hi (Nat.zero_le _) <;> rw [rdtreeBody, hr] at h <;> cases h
  exact he

/-- The one fault of the decode loop (45_decoder.md R194). -/
theorem decodeLoop_raised (root : CodeTree) (n : Nat) {s u : State} {e : FaultKind}
    (h : decodeLoop root n s = .raised e u) : e = .truncatedStream := by
  induction n generalizing s with
  | zero => cases h; rfl
  | succ n ih =>
    rw [decodeLoop] at h
    obtain ⟨-, hr⟩ | ⟨-, -, v, hr⟩ | ⟨-, -, hr⟩ := inRead_cases 1 s <;> rw [hr] at h
    · cases h
    · rw [Res.bind_ok] at h
      simp only at h
      obtain ⟨l, r, -, hb⟩ | ⟨-, hb⟩ | ⟨y, -, -, ⟨-, hb⟩ | ⟨-, hb⟩⟩ := decodeBit_cases root (v == 1#1) (advance 1 s) <;>
        rw [hb] at h
      · exact ih h
      · cases h
      · exact ih h
      · cases h
    · cases h; rfl

/-- A fault of DECBODY other than a missing tree: a lone leaf, before a bit is read, or the end of the input
(45_decoder.md R194, R195). -/
theorem decbodyBody_raised {s u : State} {e : FaultKind} (h : decbodyBody s = .raised e u) (hseq : e ≠ .sequence) :
    (e = .leafRoot ∧ u = s) ∨ e = .truncatedStream := by
  obtain hr | hr | ⟨t, -, -, -, hr⟩ := decbodyInit_cases s <;> rw [decbodyBody, hr] at h
  · cases h; exact absurd rfl hseq
  · cases h; exact .inl ⟨rfl, rfl⟩
  · exact .inr (decodeLoop_raised t _ h)

/-- The faults of DECOMPRESS with the step that raises them, and whether bytes may be in the output by then
(45_decoder.md R199). -/
structure DecompressFault (s u : State) (e : FaultKind) : Prop where
  pair : (e.code, u.phase.opcode) ∈ [(1#4, 0x7#4), (2#4, 0x8#4), (5#4, 0x8#4), (4#4, 0x8#4), (6#4, 0x9#4), (3#4, 0x9#4)]
  out : e ≠ .truncatedStream → u.out = s.out

theorem FaultKind.ofHeader_pair {e : FaultKind} (h : e.ofHeader) :
    (e.code, Cmd.opcode .rdtree) ∈
      [(1#4, 0x7#4), (2#4, 0x8#4), (5#4, 0x8#4), (4#4, 0x8#4), (6#4, 0x9#4), (3#4, 0x9#4)] := by
  obtain rfl | rfl | rfl := h <;> decide

/-- A step keeps `PHASE` and what it does not list. -/
theorem primitiveBody_raised_same {c p : Cmd} {s u : State} {e : FaultKind}
    (h : primitiveBody p (atStep c p s) = .raised e u) {f : Field} (hf : f ∉ bodyChanges p) :
    f.same (atStep c p s) u := by
  have hframe := primitiveBody_frame p (atStep c p s)
  rw [h] at hframe
  exact hframe f hf

theorem primitiveBody_ok_same {c p : Cmd} {s u : State} (h : primitiveBody p (atStep c p s) = .ok () u) {f : Field}
    (hf : f ∉ bodyChanges p) : f.same (atStep c p s) u := by
  have hframe := primitiveBody_frame p (atStep c p s)
  rw [h] at hframe
  exact hframe f hf

/-- A fault inside a sequence is one of its first step, or one of the steps after it. -/
theorem runSteps_cons_raised {c p : Cmd} {ps : List Cmd} {s u : State} {e : FaultKind}
    (h : runSteps c (p :: ps) s = .raised e u) :
    primitiveBody p (atStep c p s) = .raised e u ∨
      ∃ v, primitiveBody p (atStep c p s) = .ok () v ∧ runSteps c ps v = .raised e u := by
  rw [runSteps] at h
  cases hp : primitiveBody p (atStep c p s) with
  | ok a v => rw [hp] at h; exact .inr ⟨v, rfl, h⟩
  | raised e' v => rw [hp] at h; exact .inl h
  | refused r => rw [hp] at h; cases h

theorem runSteps_decompress_raised {s u : State} {e : FaultKind} (h : Streams true s)
    (hr : runSteps .decompress (stepsToClose .decompress) s = .raised e u) : DecompressFault s u e := by
  have hseq : e ≠ .sequence := by
    have hall := runSteps_decompress_noSequence s
    rw [show stepsOf .decompress = stepsToClose .decompress ++ [.close] from rfl, runSteps_append, hr] at hall
    exact hall
  obtain hmagic | ⟨v, hmagic, hr⟩ := runSteps_cons_raised hr
  · obtain rfl := rdmagicBody_raised hmagic
    have hphase : u.phase = .run .decompress .rdmagic := primitiveBody_raised_same hmagic (f := .phase) (by decide)
    exact ⟨by rw [hphase]; decide, fun _ => primitiveBody_raised_same hmagic (f := .out) (by decide)⟩
  have hout : v.out = s.out := primitiveBody_ok_same hmagic (f := .out) (by decide)
  have hopen : v.inp.isOpen = true := by
    have hv := rdmagicBody_ranOn (s := atStep .decompress .rdmagic s) ⟨h.inp, h.out⟩
    rw [show rdmagicBody _ = _ from hmagic] at hv
    exact hv.inp
  obtain htree | ⟨w, htree, hr⟩ := runSteps_cons_raised hr
  · have hphase : u.phase = .run .decompress .rdtree := primitiveBody_raised_same htree (f := .phase) (by decide)
    have hsame : u.out = v.out := primitiveBody_raised_same htree (f := .out) (by decide)
    refine ⟨?_, fun _ => hsame.trans hout⟩
    rw [hphase]
    exact FaultKind.ofHeader_pair (rdtreeBody_raised (s := atStep .decompress .rdtree v) hopen htree)
  have hout' : w.out = s.out := (primitiveBody_ok_same htree (f := .out) (by decide) : w.out = v.out).trans hout
  obtain hbody | ⟨x, -, hr⟩ := runSteps_cons_raised hr
  · have hphase : u.phase = .run .decompress .decbody := primitiveBody_raised_same hbody (f := .phase) (by decide)
    obtain ⟨rfl, rfl⟩ | rfl := decbodyBody_raised hbody hseq
    · exact ⟨by rw [hphase]; decide, fun _ => hout'⟩
    · exact ⟨by rw [hphase]; decide, fun hne => absurd rfl hne⟩
  · cases hr

/-- DECOMPRESS ends with its streams closed: without a fault and with the error record as it was, or with the fault of a
step. -/
theorem exec_decompress_ends {s : State} (hs : s.ready) (h : Streams true s) :
    ∃ u t, exec .decompress s = .next t ∧ Shut u t ∧
      ((t.status.err = s.status.err ∧ t.errcode = s.errcode ∧ t.errcmd = s.errcmd) ∨
        ∃ e, DecompressFault s u e ∧ t.status.err = true ∧ t.errcode = e.code ∧ t.errcmd = u.phase.opcode) := by
  have hinit : Streams true (cleardata (accept .decompress s)) := ⟨h.inp, h.out⟩
  have hrun := runSteps_ranOn .decompress (ps := stepsToClose .decompress) (by decide) hinit
  have hframe := runSteps_frame .decompress (stepsToClose .decompress) (cleardata (accept .decompress s))
  rw [exec_decompress, runCommand_ready hs,
    show stepsOf .decompress = stepsToClose .decompress ++ [.close] from rfl, runSteps_append]
  cases hr : runSteps .decompress (stepsToClose .decompress) (cleardata (accept .decompress s)) with
  | refused r => rw [hr] at hrun; cases hrun.1
  | ok a u =>
    rw [hr] at hrun hframe
    refine ⟨u, _, settle_close rfl hrun.out, finish_wrapped_shut u, .inl ⟨?_, ?_, ?_⟩⟩
    · exact hframe .err (by decide)
    · exact hframe .errcode (by decide)
    · exact hframe .errcmd (by decide)
  | raised e u =>
    rw [hr] at hrun
    obtain ⟨hpair, hout⟩ := runSteps_decompress_raised hinit hr
    exact ⟨u, _, settle_wrapped rfl e hrun.out, faultEntry_wrapped_shut e _ u,
      .inr ⟨e, ⟨hpair, hout⟩, rfl, rfl, rfl⟩⟩

/-! ### The second pass of COMPRESS -/

/-- Some entry fails a decidable test, and a first one does. -/
theorem exists_first {l : List α} {p : α → Prop} [DecidablePred p] (h : ∃ x ∈ l, ¬ p x) :
    ∃ pre x more, l = pre ++ x :: more ∧ (∀ y ∈ pre, p y) ∧ ¬ p x := by
  induction l with
  | nil => simp at h
  | cons a l ih =>
    by_cases ha : p a
    · obtain ⟨x, hx, hpx⟩ := h
      have hx : x ∈ l := (List.mem_cons.mp hx).resolve_left fun heq => hpx (heq ▸ ha)
      obtain ⟨pre, y, more, rfl, hpre, hy⟩ := ih ⟨x, hx, hpx⟩
      exact ⟨a :: pre, y, more, rfl, fun z hz => (List.mem_cons.mp hz).elim (· ▸ ha) (hpre z), hy⟩
    · exact ⟨[], a, l, rfl, by simp, ha⟩

/-- A compression ready for its second pass: the codes of the tree are there, and the bytes `bytes` and a fragment stand
ahead (44_encoder.md R173). -/
structure SecondPass (t : CodeTree) (bytes : List Byte) (s : State) : Prop where
  streams : Streams true s
  valid : s.status.codeValid = true
  code : s.code = codesOf t
  ahead : ∃ tail, s.ahead = bitsOfBytes bytes ++ tail ∧ tail.length < 8

/-- How the second pass ends, with `w` the bits it has written (44_encoder.md R174, R176). -/
def SecondPass.End (t : CodeTree) (bytes : List Byte) (s u : State) (w : BitString) : Prop :=
  ((∀ b ∈ bytes, symOfByte b ∈ t.symbols) ∧ w = codesIn (codesOf t) bytes ++ codeIn (codesOf t) Config.eob ∧
      u.status.err = s.status.err ∧ u.errcode = s.errcode ∧ u.errcmd = s.errcmd) ∨
    ((∃ b ∈ bytes, symOfByte b ∉ t.symbols) ∧ u.status.err = true ∧ u.errcode = 7#4 ∧ u.errcmd = 0x6#4)

theorem codeAt_ne_none {t : CodeTree} {s : State} (h : s.code = codesOf t) (y : Sym) :
    codeAt s y ≠ none ↔ y ∈ t.symbols := by
  rw [codeAt, h]
  exact codesOf_ne_none t y

theorem encoded_eq (bytes : List Byte) (s : State) :
    encoded bytes s = append (codesIn s.code bytes ++ codeIn s.code Config.eob) (toEnd s) :=
  append_append _ _ _

/-- ENCBODY and CLOSE in the sequence of COMPRESS: every byte has a code, or the first one without ends the command. -/
theorem SecondPass.ends {t : CodeTree} {bytes : List Byte} {s : State} (h : SecondPass t bytes s)
    (heob : Config.eob ∈ t.symbols) :
    ∃ u w, settle (unwind .compress (runSteps .compress [.encbody, .close] s)) = .next u ∧ Shut (append w s) u ∧
      SecondPass.End t bytes s u w := by
  unfold SecondPass.End
  obtain ⟨⟨hi, ho⟩, hv, hcode, tail, hahead, htail⟩ := h
  have hat : ∀ y, codeAt (atStep .compress .encbody s) y ≠ none ↔ y ∈ t.symbols := codeAt_ne_none hcode
  by_cases hall : ∀ b ∈ bytes, symOfByte b ∈ t.symbols
  · have hbody : encbodyBody (atStep .compress .encbody s) = .ok () (encoded bytes (atStep .compress .encbody s)) :=
      encbodyBody_coded hi ho hv hahead htail (fun b hb => (hat _).mpr (hall b hb)) ((hat _).mpr heob)
    rw [encoded_eq, show (atStep .compress .encbody s).code = _ from hcode] at hbody
    generalize codesIn (codesOf t) bytes ++ codeIn (codesOf t) Config.eob = w at hbody
    have hend := settle_close (c := .compress) rfl (u := append w (toEnd (atStep .compress .encbody s))) ho
    rw [runSteps_cons (p := .encbody) hbody, hend]
    exact ⟨_, w, rfl, (finish_wrapped_shut _).of_eq rfl rfl rfl,
      .inl ⟨hall, rfl, finish_wrapped_err _, finish_wrapped_errcode _, finish_wrapped_errcmd _⟩⟩
  · push Not at hall
    obtain ⟨pre, b, more, rfl, hpre, hb⟩ := exists_first hall
    rw [bitsOfBytes_append, bitsOfBytes, List.append_assoc, List.append_assoc] at hahead
    have hbody : encbodyBody (atStep .compress .encbody s) = .raised .noCode
        (append (codesIn s.code pre) (advance (8 * (pre.length + 1)) (atStep .compress .encbody s))) :=
      encbodyBody_missing_byte hi ho hv (fun x hx => (hat _).mpr (hpre x hx)) (not_not.mp ((hat _).not.mpr hb)) hahead
    generalize codesIn s.code pre = w at hbody
    have hend := settle_wrapped (c := .compress) rfl .noCode
      (u := append w (advance (8 * (pre.length + 1)) (atStep .compress .encbody s))) ho
    rw [runSteps, show primitiveBody .encbody _ = _ from hbody, Res.bind_raised, hend]
    exact ⟨_, w, rfl, (faultEntry_wrapped_shut _ _ _).of_eq rfl rfl rfl, .inr ⟨hall, rfl, rfl, rfl⟩⟩

/-- A symbol of a byte is in the tree of the counts exactly when the byte was counted (41_tree_builder.md R128 b). -/
theorem symOfByte_mem_buildTree (bytes : List Byte) (b : Byte) :
    symOfByte b ∈ (buildTree (countsOf bytes)).symbols ↔ b ∈ bytes := by
  rw [← List.count_pos_iff, buildTree_count_byte, ← countsOf_pos bytes b]
  split
  · next h => exact iff_of_true Nat.one_pos h
  · next h => exact iff_of_false (Nat.lt_irrefl 0) h

/-- After the tables and the header the input is rewound for the second pass (44_encoder.md R178). -/
theorem headed_secondPass {freq : Vector Count 256} {s : State} (h : Streams true s) {all : List Byte}
    {tail : BitString} (hbits : s.inp.bits = bitsOfBytes all ++ tail) (htail : tail.length < 8) :
    SecondPass (buildTree freq) all (headed (buildTree freq) (tabled freq s)) :=
  ⟨⟨h.inp, h.out⟩, rfl, rfl, tail, hbits, htail⟩

/-- COMPRESS where `counted` stands ahead and `all` is the whole input: its bytes end the first pass, and the second one
ends as their codes let it. -/
theorem exec_compress_ends {s : State} (hs : s.ready) (h : Streams true s) {counted all : List Byte}
    {tail rest : BitString} (hahead : s.ahead = bitsOfBytes counted ++ tail) (htail : tail.length < 8)
    (hbits : s.inp.bits = bitsOfBytes all ++ rest) (hrest : rest.length < 8) :
    ∃ t w, exec .compress s = .next t ∧ Shut (append (bitsOf 32 Config.magic.toNat ++ w) s) t ∧
      (((∀ b ∈ all, b ∈ counted) ∧ t.status.err = s.status.err ∧ t.errcode = s.errcode ∧ t.errcmd = s.errcmd) ∨
        ((∃ b ∈ all, b ∉ counted) ∧ t.status.err = true ∧ t.errcode = 7#4 ∧ t.errcmd = 0x6#4)) := by
  have hinit : Streams true (cleardata (accept .compress s)) := ⟨h.inp, h.out⟩
  rw [exec_compress, runCommand_ready hs, stepsOf, runSteps_tables _ hinit.inp hahead htail]
  simp only [← symOfByte_mem_buildTree counted]
  -- as in `runSteps_tables`, only the name of the table matters from here on
  generalize countsOf counted = freq
  rw [runSteps_header _ (s := tabled freq (cleardata (accept .compress s))) hinit.inp hinit.out rfl rfl]
  have hpass := headed_secondPass (freq := freq) hinit hbits hrest
  obtain ⟨t, w, hend, hshut, hcases⟩ := hpass.ends (eob_mem_buildTree freq)
  refine ⟨t, encTree (buildTree freq) ++ w, hend, hshut.of_eq ?_ rfl rfl, ?_⟩
  · rw [← append_append, ← append_append]
    rfl
  · obtain ⟨hall, -, hkept⟩ | hfault := hcases
    · exact .inl ⟨hall, hkept⟩
    · exact .inr hfault

end Sys2Proof.Machine

namespace Sys2Proof.Proofs

open Sys2Proof.Machine

/-- Settles O48: DECOMPRESS by the fault of each of its steps; COMPRESS by its second pass, whose one fault is a byte of
the whole input that the first pass did not count. -/
theorem compositeCommandsCloseOnEveryExit : Obligations.CompositeCommandsCloseOnEveryExit := by
  refine ⟨fun s hs hi ho hout => ?_, fun s hs hi ho => ?_, fun s missed bytes hs ho hinp => ?_⟩
  · obtain ⟨u, t, hexec, hshut, hcases⟩ := exec_decompress_ends hs ⟨hi, ho⟩
    have hstatus := hshut.status
    refine ⟨t, hexec, hshut.closed, hshut.inp, hshut.bytes, hshut.freq, hshut.code, hshut.tree, by rw [hstatus],
      by rw [hstatus], by rw [hstatus], by rw [hstatus], by rw [hstatus], ?_, fun hwhich herr => ?_⟩
    · obtain ⟨herr, hkept⟩ | ⟨e, hfault, herr, hcode, hcmd⟩ := hcases
      · exact .inl ⟨herr.trans hs.2, hkept⟩
      · exact .inr ⟨herr, by rw [hcode, hcmd]; exact hfault.pair⟩
    · obtain ⟨hkept, -⟩ | ⟨e, hfault, -, hcode, hcmd⟩ := hcases
      · exact absurd (herr.symm.trans (hkept.trans hs.2)) (by decide)
      · refine hshut.empty ?_
        rw [hfault.out ?_, hout]
        rintro rfl
        have hpair := hfault.pair
        rw [hcode, hcmd] at hwhich
        generalize u.phase.opcode = op at hwhich hpair
        revert op
        decide
  · obtain ⟨counted, tail, hahead, htail⟩ := exists_bytes s.ahead
    obtain ⟨all, rest, hbits, hrest⟩ := exists_bytes s.inp.bits
    obtain ⟨t, w, hexec, hshut, hcases⟩ := exec_compress_ends hs ⟨hi, ho⟩ hahead htail hbits hrest
    have hstatus := hshut.status
    refine ⟨t, hexec, hshut.closed, hshut.inp, hshut.whole, ?_, hshut.freq, hshut.code, hshut.tree, by rw [hstatus],
      by rw [hstatus], by rw [hstatus], by rw [hstatus], by rw [hstatus], ?_⟩
    · refine List.IsPrefix.trans ⟨w, ?_⟩ hshut.grown
      rw [List.append_assoc]
      rfl
    · obtain ⟨-, herr, hkept⟩ | ⟨-, hfault⟩ := hcases
      · exact .inl ⟨herr.trans hs.2, hkept⟩
      · exact .inr hfault
  · have hi : s.inp.isOpen = true := by rw [hinp]
    have hahead : s.ahead = bitsOfBytes bytes ++ [] := by
      rw [State.ahead, hinp, bitsOfBytes_append, List.drop_left' (bitsOfBytes_length missed), List.append_nil]
    have hbits : s.inp.bits = bitsOfBytes (missed ++ bytes) ++ [] := by rw [hinp, List.append_nil]
    obtain ⟨t, w, hexec, -, hcases⟩ := exec_compress_ends hs ⟨hi, ho⟩ hahead (by decide) hbits (by decide)
    refine ⟨t, hexec, ?_⟩
    obtain ⟨hall, herr, -⟩ | ⟨⟨b, hb, hnot⟩, herr, -⟩ := hcases
    · refine iff_of_false (by rw [herr, hs.2]; decide) ?_
      rintro ⟨b, hb, hnot⟩
      exact hnot (hall b (List.mem_append_left _ hb))
    · exact iff_of_true herr ⟨b, (List.mem_append.mp hb).resolve_right hnot, hnot⟩

end Sys2Proof.Proofs
end

section
/-! PROOFS. `CUR` and the traversal stack are scratch: what they hold before a command does not show in how it ends, but in
`CUR` itself (10_state.md R31, R33, R42). -/

namespace Sys2Proof.Machine

variable {α β : Type}

/-! ### Scratch -/

/-- A value for `CUR`, or one for the traversal stack. -/
inductive Scratch where
  | cur (u : CodeTree)
  | stack (k : List Frame)

/-- The state with that value in it. -/
def Scratch.put : Scratch → State → State
  | .cur u, s => { s with cur := u }
  | .stack k, s => { s with stack := k }

/-- The same end of a piece of work, in another state. -/
def Res.mapState (f : State → State) : Res α → Res α
  | .ok a s => .ok a (f s)
  | .raised e s => .raised e (f s)
  | .refused r => .refused r

/-- Work that commutes with a change of the state, and work after it that does. -/
theorem mapState_bind {f : State → State} {r r' : Res α} {k k' : α → State → Res β} (hr : r' = r.mapState f)
    (hk : ∀ a s, k' a (f s) = (k a s).mapState f) : r'.bind k' = (r.bind k).mapState f := by
  subst hr
  cases r with
  | ok a s => exact hk a s
  | raised e s => rfl
  | refused r => rfl

variable (x : Scratch)

@[simp] theorem put_inp (s : State) : (x.put s).inp = s.inp := by cases x <;> rfl

@[simp] theorem put_out (s : State) : (x.put s).out = s.out := by cases x <;> rfl

@[simp] theorem put_status (s : State) : (x.put s).status = s.status := by cases x <;> rfl

@[simp] theorem put_tree (s : State) : (x.put s).tree = s.tree := by cases x <;> rfl

@[simp] theorem put_code (s : State) : (x.put s).code = s.code := by cases x <;> rfl

@[simp] theorem put_nnode (s : State) : (x.put s).nnode = s.nnode := by cases x <;> rfl

@[simp] theorem put_phase (s : State) : (x.put s).phase = s.phase := by cases x <;> rfl

theorem put_atStep (c p : Cmd) (s : State) : atStep c p (x.put s) = x.put (atStep c p s) := by cases x <;> rfl

/-! ### The units -/

theorem inRead_put (w : Nat) (s : State) : inRead w (x.put s) = (inRead w s).mapState x.put := by
  simp only [inRead, put_inp]
  split
  · split <;> cases x <;> rfl
  · rfl

theorem outWrite_put (w v : Nat) (s : State) : outWrite w v (x.put s) = (outWrite w v s).mapState x.put := by
  simp only [outWrite, put_out]
  split
  · cases x <;> rfl
  · rfl

theorem inRewind_put (s : State) : inRewind (x.put s) = (inRewind s).mapState x.put := by
  simp only [inRewind, put_inp]
  split
  · cases x <;> rfl
  · rfl

theorem closeStreams_put (s : State) : closeStreams (x.put s) = (closeStreams s).mapState x.put := by
  cases ho : s.out.isOpen with
  | true =>
    rw [closeStreams_open ho, closeStreams_open ((congrArg OutStream.isOpen (put_out x s)).trans ho)]
    cases x <;> rfl
  | false => rw [closeStreams_refused ho, closeStreams_refused ((congrArg OutStream.isOpen (put_out x s)).trans ho)]; rfl

theorem require_put (c : Bool) (e : FaultKind) (s : State) :
    require c e (x.put s) = (require c e s).mapState x.put := by
  cases c <;> rfl

theorem needTree_put {s : State} {k k' : CodeTree → State → Res α}
    (hk : ∀ t, k' t (x.put s) = (k t s).mapState x.put) : needTree (x.put s) k' = (needTree s k).mapState x.put := by
  simp only [needTree, validTree, put_status, put_tree]
  split
  · rfl
  · exact hk _

theorem eachByte_put {body : Byte → State → Res Unit} (hb : ∀ b s, body b (x.put s) = (body b s).mapState x.put)
    (n : Nat) (s : State) : eachByte body n (x.put s) = (eachByte body n s).mapState x.put := by
  induction n generalizing s with
  | zero => rfl
  | succ n ih =>
    refine mapState_bind (inRead_put x 8 s) fun v t => ?_
    cases v with
    | none => rfl
    | some b => exact mapState_bind (hb b t) fun _ u => ih u

theorem countBody_put (s : State) : countBody (x.put s) = (countBody s).mapState x.put := by
  have hinit : countInit (x.put s) = x.put (countInit s) := by cases x <;> rfl
  rw [countBody, countBody, hinit, readFuel, put_inp, ← readFuel]
  exact mapState_bind (eachByte_put x (fun b s => by cases x <;> rfl) _ _) fun _ t => by cases x <;> rfl

theorem buildBody_put (s : State) : buildBody (x.put s) = (buildBody s).mapState x.put := by
  rw [buildBody, put_status]
  exact mapState_bind (require_put x _ _ s) fun _ t => by cases x <;> rfl

theorem gencodesBody_put (s : State) : gencodesBody (x.put s) = (gencodesBody s).mapState x.put := by
  refine needTree_put x fun t => mapState_bind ?_ fun _ u => by cases x <;> rfl
  have hdrop : dropCode (x.put s) = x.put (dropCode s) := by cases x <;> rfl
  rw [hdrop]
  exact require_put x _ _ _

theorem writeTree_put (t : CodeTree) (s : State) : writeTree t (x.put s) = (writeTree t s).mapState x.put := by
  induction t generalizing s with
  | leaf y => exact mapState_bind (outWrite_put x 1 1 s) fun _ u => outWrite_put x 9 y.val u
  | node l r hl hr => exact mapState_bind (outWrite_put x 1 0 s) fun _ u => mapState_bind (hl u) fun _ v => hr v

theorem writeCode_put (n : Nat) (c : BitString) (s : State) :
    writeCode n c (x.put s) = (writeCode n c s).mapState x.put := by
  induction n generalizing c s with
  | zero => rfl
  | succ n ih =>
    cases c with
    | nil => rfl
    | cons b bs => exact mapState_bind (outWrite_put x _ _ s) fun _ u => ih _ u

theorem emitSymbol_put (y : Sym) (s : State) : emitSymbol y (x.put s) = (emitSymbol y s).mapState x.put := by
  have hcode : codeAt (x.put s) y = codeAt s y := by rw [codeAt, codeAt, put_code]
  rw [emitSymbol, emitSymbol, hcode]
  cases codeAt s y with
  | none => rfl
  | some c => exact writeCode_put x _ c s

theorem encbodyBody_put (s : State) : encbodyBody (x.put s) = (encbodyBody s).mapState x.put := by
  rw [encbodyBody, put_status]
  refine mapState_bind (require_put x _ _ s) fun _ t => mapState_bind ?_ fun _ u => emitSymbol_put x _ u
  rw [readFuel, put_inp, ← readFuel]
  exact eachByte_put x (fun b u => emitSymbol_put x _ u) _ t

theorem rdmagicBody_put (s : State) : rdmagicBody (x.put s) = (rdmagicBody s).mapState x.put :=
  mapState_bind (inRead_put x 32 s) fun v t => by
    unfold checkMagic
    split <;> rfl

theorem takeMarker_put (s : State) : takeMarker (x.put s) = (takeMarker s).mapState x.put := by
  refine mapState_bind (inRead_put x 1 s) fun m t => ?_
  cases m with
  | none => rfl
  | some m =>
    simp only [put_nnode]
    split
    · rfl
    · cases x <;> rfl

theorem takeField_put (s : State) : takeField (x.put s) = (takeField s).mapState x.put :=
  mapState_bind (inRead_put x 9 s) fun f t => by cases f <;> rfl

theorem checkField_put (f : BitVec 9) (s : State) : checkField f (x.put s) = (checkField f s).mapState x.put := by
  unfold checkField
  split <;> rfl

theorem readNode_put (s : State) : readNode (x.put s) = (readNode s).mapState x.put := by
  refine mapState_bind (takeMarker_put x s) fun m t => ?_
  split
  · exact mapState_bind (takeField_put x t) fun f u => mapState_bind (checkField_put x f u) fun _ _ => rfl
  · rfl

theorem readTree_put (n : Nat) (s : State) : readTree n (x.put s) = (readTree n s).mapState x.put := by
  induction n generalizing s with
  | zero => exact mapState_bind (readNode_put x s) fun _ _ => rfl
  | succ n ih =>
    refine mapState_bind (readNode_put x s) fun k t => ?_
    cases k with
    | leaf y => rfl
    | internal => exact mapState_bind (ih t) fun l u => mapState_bind (ih u) fun r v => rfl

/-- RDTREE empties the stack itself. -/
theorem rdtreeBody_put (s : State) :
    rdtreeBody (x.put s) = (rdtreeBody s).mapState x.put ∨ rdtreeBody (x.put s) = rdtreeBody s := by
  cases x with
  | stack k => exact .inr rfl
  | cur u => exact .inl (mapState_bind (readTree_put (.cur u) _ (rdtreeInit s)) fun t v => rfl)

/-- The decode loop works on `CUR`, but not on the stack. -/
theorem decodeLoop_put_stack (root : CodeTree) (k : List Frame) (n : Nat) (s : State) :
    decodeLoop root n ((Scratch.stack k).put s) = (decodeLoop root n s).mapState (Scratch.stack k).put := by
  have hbit : ∀ b s, decodeBit root b ((Scratch.stack k).put s) =
      (decodeBit root b s).mapState (Scratch.stack k).put := by
    intro b s
    rw [decodeBit, decodeBit, show ((Scratch.stack k).put s).cur = s.cur from rfl]
    cases s.cur.child b with
    | node l r => rfl
    | leaf y =>
      simp only
      split
      · rfl
      · exact mapState_bind (outWrite_put (.stack k) 8 _ { s with cur := .leaf y }) fun _ _ => rfl
  induction n generalizing s with
  | zero => rfl
  | succ n ih =>
    refine mapState_bind (inRead_put (.stack k) 1 s) fun b t => ?_
    cases b with
    | none => rfl
    | some b =>
      refine mapState_bind (hbit _ t) fun fin u => ?_
      cases fin with
      | true => rfl
      | false => exact ih u

/-- DECBODY sets `CUR` itself, once it has a tree to decode with. -/
theorem decbodyBody_put (s : State) :
    decbodyBody (x.put s) = (decbodyBody s).mapState x.put ∨ decbodyBody (x.put s) = decbodyBody s := by
  cases x with
  | stack k =>
    refine .inl (mapState_bind ?_ fun t u => decodeLoop_put_stack t k _ u)
    exact needTree_put (.stack k) fun t => mapState_bind (require_put (.stack k) _ _ s) fun _ _ => rfl
  | cur v =>
    have hvalid : validTree ((Scratch.cur v).put s) = validTree s := rfl
    rw [decbodyBody, decbodyBody, decbodyInit, decbodyInit, needTree, needTree, hvalid]
    cases validTree s with
    | none => exact .inl rfl
    | some t =>
      cases hroot : t.isLeaf with
      | true => simp only [hroot]; exact .inl rfl
      | false => simp only [hroot]; exact .inr rfl

/-! ### The steps and the end of a command -/

/-- A step ends alike whatever the scratch held; what it held is still there, or the step has set it. -/
theorem primitiveBody_put (p : Cmd) (s : State) :
    primitiveBody p (x.put s) = (primitiveBody p s).mapState x.put ∨ primitiveBody p (x.put s) = primitiveBody p s := by
  cases p with
  | count => exact .inl (countBody_put x s)
  | build => exact .inl (buildBody_put x s)
  | gencodes => exact .inl (gencodesBody_put x s)
  | wrmagic => exact .inl (outWrite_put x _ _ s)
  | wrtree => exact .inl (needTree_put x fun t => writeTree_put x t s)
  | encbody => exact .inl (encbodyBody_put x s)
  | rdmagic => exact .inl (rdmagicBody_put x s)
  | rdtree => exact rdtreeBody_put x s
  | decbody => exact decbodyBody_put x s
  | rewind => exact .inl (inRewind_put x s)
  | close => exact .inl (closeStreams_put x s)
  | compress | decompress | clear => exact .inl rfl

theorem runSteps_put (c : Cmd) (ps : List Cmd) (s : State) :
    runSteps c ps (x.put s) = (runSteps c ps s).mapState x.put ∨ runSteps c ps (x.put s) = runSteps c ps s := by
  induction ps generalizing s with
  | nil => exact .inl rfl
  | cons p ps ih =>
    rw [runSteps, runSteps, put_atStep]
    obtain h | h := primitiveBody_put x p (atStep c p s) <;> rw [h]
    · cases primitiveBody p (atStep c p s) with
      | ok a t => exact ih t
      | raised e t => exact .inl rfl
      | refused r => exact .inl rfl
    · exact .inr rfl

theorem finish_put (s : State) : finish (x.put s) = { finish s with cur := (x.put s).cur } := by cases x <;> rfl

theorem faultEntry_put (e : FaultKind) (op : BitVec 4) (s : State) :
    faultEntry e op (x.put s) = { faultEntry e op s with cur := (x.put s).cur } := by cases x <;> rfl

theorem unwind_put (c : Cmd) (r : Res Unit) : unwind c (r.mapState x.put) = (unwind c r).mapState x.put := by
  have hclear : ∀ s, cleardata (x.put s) = x.put (cleardata s) := fun s => by cases x <;> rfl
  cases hc : c.composite with
  | false => rw [unwind_primitive hc, unwind_primitive hc]
  | true =>
    cases r with
    | ok a s => rw [Res.mapState, unwind_composite_ok hc, unwind_composite_ok hc, hclear]; rfl
    | raised e s =>
      simp only [Res.mapState, unwind, hc, if_true]
      exact mapState_bind (closeStreams_put x s) fun _ t => by rw [hclear]; rfl
    | refused r => rfl

/-- At the end of a command the stack is empty, and the state is the same but for `CUR`. -/
theorem settle_put {r : Res Unit} {t : State} (h : settle r = .next t) :
    ∃ t', settle (r.mapState x.put) = .next t' ∧ t' = { t with cur := t'.cur } := by
  cases r with
  | ok a s => cases h; exact ⟨_, rfl, by rw [finish_put]⟩
  | raised e s => cases h; exact ⟨_, rfl, by rw [put_phase, faultEntry_put]⟩
  | refused r => cases h

/-- What the stack holds does not show at the end of a command. -/
theorem settle_put_stack (c : Cmd) (k : List Frame) (r : Res Unit) :
    settle (unwind c (r.mapState (Scratch.stack k).put)) = settle (unwind c r) := by
  rw [unwind_put]
  cases unwind c r <;> rfl

/-- The steps of a command end alike whatever the scratch held before them. -/
theorem settle_runSteps_put {c : Cmd} {ps : List Cmd} {s t : State} (h : settle (unwind c (runSteps c ps s)) = .next t) :
    ∃ t', settle (unwind c (runSteps c ps (x.put s))) = .next t' ∧ t' = { t with cur := t'.cur } := by
  obtain hput | hput := runSteps_put x c ps s <;> rw [hput]
  · rw [unwind_put]
    exact settle_put x h
  · exact ⟨t, h, rfl⟩

/-- Two ready states with the same streams, record, port and draws differ in scratch alone once the data is cleared for a
composite command (46_stream_control.md R215). -/
theorem cleardata_accept_eq {s t : State} (c : Cmd) (hs : s.ready) (ht : t.ready) (hinp : s.inp = t.inp)
    (hout : s.out = t.out) (hport : s.port = t.port) (hdraws : s.draws = t.draws) (hcode : s.errcode = t.errcode)
    (hcmd : s.errcmd = t.errcmd) :
    cleardata (accept c t) = (Scratch.cur t.cur).put ((Scratch.stack t.stack).put (cleardata (accept c s))) := by
  simp only [Scratch.put, cleardata, clearValid, accept, hinp, hout, hport, hdraws, hcode, hcmd, hs.2, ht.2]

end Sys2Proof.Machine

namespace Sys2Proof.Proofs

open Sys2Proof.Machine

/-- Settles O50: once the data is cleared the two states differ in `CUR` and in the stack alone. -/
theorem invocationsShareNothing : Obligations.InvocationsShareNothing := by
  intro s t s' i hi hs ht hinp hout hport hdraws hcode hcmd h
  obtain ⟨c, hc, rfl⟩ : ∃ c : Cmd, c.composite = true ∧ decodeCommand c.opcode = i := by
    obtain rfl | rfl := hi
    · exact ⟨.compress, rfl, rfl⟩
    · exact ⟨.decompress, rfl, rfl⟩
  rw [exec_composite hc, runCommand_ready hs] at h
  rw [exec_composite hc, runCommand_ready ht, cleardata_accept_eq c hs ht hinp hout hport hdraws hcode hcmd]
  obtain ⟨u, hu, hsame⟩ := settle_runSteps_put (.stack t.stack) h
  obtain ⟨v, hv, hsame'⟩ := settle_runSteps_put (.cur t.cur) hu
  refine ⟨v, hv, ?_⟩
  rw [hsame', hsame]

end Sys2Proof.Proofs
end

section
/-! PROOFS. A command watched piece by piece ends as the command run in one step (10_state.md R34, 43_tree_codec.md R154,
44_encoder.md R173, 45_decoder.md R193; log 1). -/

namespace Sys2Proof.Machine

variable {α β : Type}

/-! ### The bounds of the loops are never used up (log 20) -/

theorem ahead_advance_lt {w : Nat} {s : State} (hw : 1 ≤ w) (h : s.inp.pos + w ≤ s.inp.bits.length) :
    (advance w s).ahead.length < s.ahead.length := by
  rw [ahead_length, ahead_length, advance_bits, advance_pos]
  omega

theorem ahead_of_inp {s t : State} (h : t.inp = s.inp) : t.ahead = s.ahead := by rw [State.ahead, State.ahead, h]

/-- Any two numbers of passes above the bits ahead do alike. -/
theorem eachByte_fuel {body : Byte → State → Res Unit} (hb : ∀ b s t, body b s = .ok () t → t.inp = s.inp) (m n : Nat)
    {s : State} (hm : s.ahead.length < m) (hn : s.ahead.length < n) : eachByte body m s = eachByte body n s := by
  induction m generalizing n s with
  | zero => omega
  | succ m ih =>
    obtain ⟨n, rfl⟩ : ∃ k, n = k + 1 := ⟨n - 1, by omega⟩
    obtain ⟨-, hr⟩ | ⟨-, hpos, v, hr⟩ | ⟨-, -, hr⟩ := inRead_cases 8 s <;> simp only [eachByte, hr, Res.bind_ok]
    · rfl
    · cases hbody : body v (advance 8 s) with
      | ok a t =>
        have hless := ahead_advance_lt (by decide) hpos
        rw [← ahead_of_inp (hb v _ t hbody)] at hless
        exact ih n (by omega) (by omega)
      | raised e t => rfl
      | refused r => rfl

theorem decodeBit_inp {root : CodeTree} {b fin : Bool} {s t : State} (h : decodeBit root b s = .ok fin t) :
    t.inp = s.inp := by
  have hframe := decodeBit_frame root b s
  rw [h] at hframe
  exact hframe .inp (by decide)

theorem decodeLoop_fuel (root : CodeTree) (m n : Nat) {s : State} (hm : s.ahead.length < m) (hn : s.ahead.length < n) :
    decodeLoop root m s = decodeLoop root n s := by
  induction m generalizing n s with
  | zero => omega
  | succ m ih =>
    obtain ⟨n, rfl⟩ : ∃ k, n = k + 1 := ⟨n - 1, by omega⟩
    obtain ⟨-, hr⟩ | ⟨-, hpos, v, hr⟩ | ⟨-, -, hr⟩ := inRead_cases 1 s <;> simp only [decodeLoop, hr, Res.bind_ok]
    · rfl
    · cases hbit : decodeBit root (v == 1#1) (advance 1 s) with
      | ok fin t =>
        have hless := ahead_advance_lt le_rfl hpos
        rw [← ahead_of_inp (decodeBit_inp hbit)] at hless
        cases fin with
        | true => rfl
        | false => exact ih n (by omega) (by omega)
      | raised e t => rfl
      | refused r => rfl

theorem readNode_refused {s : State} (h : s.inp.isOpen = false) : readNode s = .refused .inputNotOpen := by
  rw [readNode, takeMarker, inRead_refused h, Res.bind_refused, Res.bind_refused]

theorem readTree_of_raised {s u : State} {e : FaultKind} (h : readNode s = .raised e u) (n : Nat) :
    readTree n s = .raised e u := by
  cases n <;> rw [readTree, h, Res.bind_raised]

theorem tally_one_nnode {k : Nat} {s : State} (h : s.nnode.toNat < Config.nodeCap) :
    (tally 1 (advance k s)).nnode.toNat = s.nnode.toNat + 1 :=
  tally_nnode (s := advance k s) h

/-- Any two depths that the node count cannot pass do alike. -/
theorem readTree_fuel (m n : Nat) {s : State} (hs : s.nnode.toNat ≤ Config.nodeCap)
    (hm : Config.nodeCap ≤ m + s.nnode.toNat) (hn : Config.nodeCap ≤ n + s.nnode.toNat) :
    readTree m s = readTree n s := by
  induction m generalizing n s with
  | zero =>
    cases ho : s.inp.isOpen with
    | false => rw [readTree_refused ho, readTree_refused ho]
    | true =>
      obtain ⟨e, u, hr, -⟩ | ⟨hcap, -⟩ := readNode_cases ho
      · rw [readTree_of_raised hr, readTree_of_raised hr]
      · omega
  | succ m ih =>
    cases ho : s.inp.isOpen with
    | false => rw [readTree_refused ho, readTree_refused ho]
    | true =>
      obtain ⟨e, u, hr, -⟩ | ⟨hcap, hr⟩ := readNode_cases ho
      · rw [readTree_of_raised hr, readTree_of_raised hr]
      · obtain ⟨n, rfl⟩ : ∃ k, n = k + 1 := ⟨n - 1, by omega⟩
        obtain ⟨rest, -, hr⟩ | ⟨y, rest, -, hr⟩ := hr
        · have hcount := tally_one_nnode (k := 1) (lt_of_le_of_ne hs hcap)
          rw [readTree, readTree, hr, Res.bind_ok, Res.bind_ok]
          simp only
          rw [ih n (s := tally 1 (advance 1 s)) (by omega) (by omega) (by omega)]
          obtain ⟨e, u, hl, -⟩ | ⟨l, after, -, hfit, hl⟩ :=
            readTree_cases n (s := tally 1 (advance 1 s)) ho (by omega) <;> rw [hl]
          · rfl
          · have hnodes := tally_nnode (n := l.nodes) (s := advance (encTree l).length (tally 1 (advance 1 s))) hfit
            change _ = (tally 1 (advance 1 s)).nnode.toNat + _ at hnodes
            rw [Res.bind_ok, Res.bind_ok, ih n (by omega) (by omega) (by omega)]
        · rw [readTree, readTree, hr]
          rfl

/-- Below an internal node the reader may again go as deep as the cap. -/
theorem readTree_internal {s u : State} (h : readNode s = .ok .internal u) (hu : u.nnode.toNat ≤ Config.nodeCap)
    (hpos : 1 ≤ u.nnode.toNat) : readTree Config.nodeCap s =
      (readTree Config.nodeCap u).bind fun l v => (readTree Config.nodeCap v).bind fun r w => .ok (.node l r) w := by
  obtain ⟨n, hcap⟩ : ∃ n, Config.nodeCap = n + 1 := ⟨512, rfl⟩
  have hread : readTree Config.nodeCap s =
      (readTree n u).bind fun l v => (readTree n v).bind fun r w => .ok (.node l r) w := by
    rw [hcap, readTree, h]
    rfl
  rw [hread, readTree_fuel n Config.nodeCap hu (by omega) (by omega)]
  cases ho : u.inp.isOpen with
  | false => rw [readTree_refused ho]; rfl
  | true =>
    obtain ⟨e, v, hl, -⟩ | ⟨l, after, -, hfit, hl⟩ := readTree_cases Config.nodeCap ho hu <;> rw [hl]
    · rfl
    · have hnodes := tally_nnode (n := l.nodes) (s := advance (encTree l).length u) hfit
      change _ = u.nnode.toNat + _ at hnodes
      rw [Res.bind_ok, Res.bind_ok, readTree_fuel n Config.nodeCap (by omega) (by omega) (by omega)]

/-! ### What is left of a step -/

/-- The reader goes on above a finished subtree: a pending node takes it as its left subtree and reads its right one, or is
closed by it (10_state.md R33). -/
def growTree : List Frame → CodeTree → State → Res CodeTree
  | [], t, s => .ok t s
  | .left :: k, t, s => (readTree Config.nodeCap s).bind fun r u => growTree k (.node t r) u
  | .right l :: k, t, s => growTree k (.node l t) s

/-- What RDTREE does from the next node on, with its pending nodes on the stack. -/
def restTree (s : State) : Res Unit :=
  ((readTree Config.nodeCap ((Scratch.stack []).put s)).bind fun t u => growTree s.stack t u).bind fun t u =>
    .ok () (putTree t u)

/-- What a running step does up to its end, from where it is. -/
def rest (p : Cmd) (s : State) : Res Unit :=
  match p with
  | .rdtree => restTree s
  | .decbody => needTree s fun t s => decodeLoop t (readFuel s) s
  | .count | .build | .gencodes | .wrmagic | .wrtree | .encbody | .rdmagic | .rewind | .close | .compress | .decompress
  | .clear => primitiveBody p s

theorem rest_whole {p : Cmd} (hp : p ∉ [Cmd.rdtree, .decbody]) (s : State) : rest p s = primitiveBody p s := by
  cases p with
  | rdtree | decbody => exact absurd hp (by decide)
  | _ => rfl

/-- A step is its first assignments and what is then left of it. -/
theorem primitiveBody_enter (c p : Cmd) (s : State) :
    primitiveBody p (atStep c p s) = (enterStep c p s).bind fun _ t => rest p t := by
  cases p with
  | rdtree =>
    have hunit : ∀ r : Res CodeTree, (r.bind fun t u => growTree [] t u) = r := fun r => by cases r <;> rfl
    change rdtreeBody _ = restTree (rdtreeInit _)
    rw [restTree, rdtreeBody]
    exact congrArg (Res.bind · _) (hunit _).symm
  | decbody =>
    change decbodyBody _ = ((decbodyInit _).bind _).bind _
    obtain h | h | ⟨t, hv, ht, -, h⟩ := decbodyInit_cases (atStep c .decbody s) <;> rw [decbodyBody, h]
    · rfl
    · rfl
    · rw [Res.bind_ok, Res.bind_ok, Res.bind_ok]
      exact (needTree_some (s := point t (atStep c .decbody s)) hv ht fun t s => decodeLoop t (readFuel s) s).symm
  | _ => rfl

/-- The steps after `p` in a sequence. -/
def after (p : Cmd) : List Cmd → List Cmd
  | [] => []
  | q :: qs => if q = p then qs else after p qs

theorem stepAfter_eq (p : Cmd) (l : List Cmd) : stepAfter p l = (after p l).head? := by
  induction l with
  | nil => rfl
  | cons q qs ih =>
    rw [stepAfter, after]
    split
    · rfl
    · exact ih

theorem after_subset (p : Cmd) (l : List Cmd) : after p l ⊆ l := by
  induction l with
  | nil => exact List.Subset.refl _
  | cons q qs ih =>
    rw [after]
    split
    · exact List.subset_cons_self q qs
    · exact List.subset_cons_of_subset q ih

/-- Where no step stands twice, the steps after the next one are the others. -/
theorem after_of_nodup {p q : Cmd} {l qs : List Cmd} (hl : l.Nodup) (h : after p l = q :: qs) : after q l = qs := by
  induction l with
  | nil => cases h
  | cons a l ih =>
    obtain ⟨ha, hl⟩ := List.nodup_cons.mp hl
    have hq : q ∈ l := by
      rw [after] at h
      split at h
      · rw [h]; exact List.mem_cons_self ..
      · exact after_subset p l (h ▸ List.mem_cons_self ..)
    have hne : a ≠ q := fun heq => ha (heq ▸ hq)
    rw [after, if_neg hne]
    rw [after] at h
    split at h
    · rw [h, after, if_pos rfl]
    · exact ih hl h

theorem stepsOf_nodup (c : Cmd) : (stepsOf c).Nodup := by cases c <;> decide

/-- The rest of a command whose step `p` runs, and its end. -/
def ending (c p : Cmd) (s : State) : Host.Outcome State Fault Refusal :=
  settle (unwind c ((rest p s).bind fun _ u => runSteps c (after p (stepsOf c)) u))

theorem runSteps_enter (c p : Cmd) (ps : List Cmd) (s : State) : runSteps c (p :: ps) s =
    (enterStep c p s).bind fun _ t => (rest p t).bind fun _ u => runSteps c ps u := by
  rw [runSteps, primitiveBody_enter, Res.bind_assoc]

/-! ### One piece at a time -/

/-- A watched command at step `p`, with no more to come from the host. -/
structure Live (c p : Cmd) (s : State) : Prop where
  phase : s.phase = .run c p
  busy : s.status.busy = true
  port : s.port = []
  nodes : p = .rdtree → s.nnode.toNat ≤ Config.nodeCap

/-- A bound on the pieces a watched command has left: its steps, then the bits ahead. -/
def left (c p : Cmd) (s : State) : Nat :=
  (after p (stepsOf c)).length * (s.inp.bits.length + 1) + s.ahead.length

/-- The next piece is the last, or leads to a state with the same end that is nearer to it. -/
def Advances (c p : Cmd) (s : State) : Prop :=
  runOn s = ending c p s ∨
    ∃ q t, runOn s = .next t ∧ Live c q t ∧ ending c q t = ending c p s ∧ left c q t < left c p s

/-- The elements a step may change. -/
def stepChanges : List Field :=
  [.freq, .tree, .code, .pq, .seq, .cur, .nnode, .stack, .freqValid, .treeValid, .codeValid, .inp, .out, .draws]

theorem enterStep_frame (c p : Cmd) (s : State) : (enterStep c p s).within (OnlyChanges (.phase :: stepChanges)) s := by
  have hat : OnlyChanges (.phase :: stepChanges) s (atStep c p s) := (atStep_frame c p s).mono (by decide)
  cases p with
  | rdtree => exact hat.trans _ _ _ ((rdtreeInit_frame _).mono (by decide))
  | decbody => exact within_answer () (frame_after hat (frame_widen (by decide) (decbodyInit_frame _)))
  | _ => exact hat

theorem enterStep_live {c p : Cmd} {s t : State} {a : Unit} (hbusy : s.status.busy = true) (hport : s.port = [])
    (h : enterStep c p s = .ok a t) : Live c p t := by
  have hframe := enterStep_frame c p s
  rw [h] at hframe
  refine ⟨?_, (hframe .busy (by decide)).trans hbusy, (hframe .port (by decide)).trans hport, ?_⟩
  · cases p with
    | decbody =>
      change ((decbodyInit _).bind _) = _ at h
      obtain hr | hr | ⟨u, -, -, -, hr⟩ := decbodyInit_cases (atStep c .decbody s) <;> rw [hr] at h <;> cases h
      rfl
    | _ => cases h; rfl
  · rintro rfl
    cases h
    exact Nat.zero_le _

/-- What is left of a step once a piece of it is done. -/
def goesOn (p : Cmd) (work : Res Bool) : Res Unit := work.bind fun fin u => if fin then .ok () u else rest p u

/-- A piece of work that is followed by what is left of its step brings the command nearer to its end. -/
theorem turn_advances {c p : Cmd} {s : State} {work : Res Bool} (hs : Live c p s) (hrun : runOn s = turn c p work)
    (hend : ending c p s = settle (unwind c ((goesOn p work).bind fun _ u => runSteps c (after p (stepsOf c)) u)))
    (hframe : work.within (OnlyChanges stepChanges) s)
    (hfalse : ∀ u, work = .ok false u →
      (p = .rdtree → u.nnode.toNat ≤ Config.nodeCap) ∧ u.ahead.length < s.ahead.length) : Advances c p s := by
  have hbits : ∀ t, runOn s = .next t → t.inp.bits = s.inp.bits := fun t ht => (runOn_streamStep ht).bits
  unfold Advances
  rw [hend]
  cases work with
  | refused r => exact .inl hrun
  | raised e u => exact .inl hrun
  | ok fin u =>
    have hbusy : u.status.busy = true := (hframe .busy (by decide)).trans hs.busy
    have hport : u.port = [] := (hframe .port (by decide)).trans hs.port
    cases fin with
    | false =>
      obtain ⟨hnodes, hless⟩ := hfalse u rfl
      refine .inr ⟨p, u, hrun, ⟨(hframe .phase (by decide)).trans hs.phase, hbusy, hport, hnodes⟩, rfl, ?_⟩
      rw [left, left, hbits u hrun]
      omega
    | true =>
      have hgoes : (goesOn p (.ok true u)).bind (fun _ u => runSteps c (after p (stepsOf c)) u) =
          runSteps c (after p (stepsOf c)) u := rfl
      rw [hgoes]
      cases hafter : after p (stepsOf c) with
      | nil =>
        have hnext : stepAfter p (stepsOf c) = none := by rw [stepAfter_eq, hafter]; rfl
        exact .inl (hrun.trans (turn_last hnext u))
      | cons q qs =>
        have hnext : stepAfter p (stepsOf c) = some q := by rw [stepAfter_eq, hafter]; rfl
        have hrest : after q (stepsOf c) = qs := after_of_nodup (stepsOf_nodup c) hafter
        rw [runSteps_enter]
        cases henter : enterStep c q u with
        | ok a t =>
          have ht : runOn s = .next t := hrun.trans (turn_enter hnext henter)
          refine .inr ⟨q, t, ht, enterStep_live hbusy hport henter, by rw [ending, hrest]; rfl, ?_⟩
          have hlen : t.ahead.length ≤ s.inp.bits.length := by rw [ahead_length, hbits t ht]; omega
          rw [left, left, hbits t ht, hrest, hafter, List.length_cons, Nat.add_mul]
          omega
        | raised e t => exact .inl (hrun.trans (turn_enter_raised hnext henter))
        | refused r => exact .inl (hrun.trans (by simp only [turn, hnext, henter]; rfl))

theorem goesOn_whole (p : Cmd) (r : Res Unit) : goesOn p (r.bind fun _ u => .ok true u) = r := by cases r <;> rfl

theorem ending_of_goesOn {c p : Cmd} {s : State} {work : Res Bool} (h : rest p s = goesOn p work) :
    ending c p s = settle (unwind c ((goesOn p work).bind fun _ u => runSteps c (after p (stepsOf c)) u)) := by
  rw [ending, h]

theorem bind_true_ne_false {r : Res Unit} {u : State} : (r.bind fun _ u => .ok true u) ≠ .ok false u := by
  cases r <;> rintro ⟨⟩

/-- A step that runs as a whole. -/
theorem advances_whole {c p : Cmd} {s : State} (hs : Live c p s) (hp : p ∉ [Cmd.rdtree, .decbody, .encbody]) :
    Advances c p s := by
  have hrun : runOn s = turn c p ((primitiveBody p s).bind fun _ u => .ok true u) := by
    rw [← stepWork_whole hp]
    exact runOn_run hs.phase (by rintro rfl; exact hp (by decide))
  refine turn_advances hs hrun (ending_of_goesOn ?_) (within_answer true ?_) fun u hu => absurd hu bind_true_ne_false
  · rw [goesOn_whole, rest_whole fun hmem => hp (by revert hmem; cases p <;> decide)]
  · exact frame_widen (by cases p <;> decide) (primitiveBody_frame p s)

/-- ENCBODY takes a byte, or comes to the end of the input. -/
theorem advances_encbody {c : Cmd} {s : State} (hs : Live c .encbody s) : Advances c .encbody s := by
  have hrun := runOn_run hs.phase (by decide)
  rw [stepWork_encbody] at hrun
  have hemit : ∀ y t, (emitSymbol y t).within (OnlyChanges [.out]) t := emitSymbol_frame
  cases hv : s.status.codeValid with
  | false =>
    have hraised : require false .sequence s = .raised .sequence s := rfl
    rw [hv, hraised, Res.bind_raised] at hrun
    refine turn_advances hs hrun (ending_of_goesOn ?_) (.refl _ s) fun u hu => by cases hu
    change encbodyBody s = _
    rw [encbodyBody, hv, hraised]
    rfl
  | true =>
    rw [hv, require_true, Res.bind_ok] at hrun
    refine turn_advances hs hrun (ending_of_goesOn ?_) (frame_widen (by decide) (encodeNext_frame s)) fun u hu => ?_
    · change encbodyBody s = _
      rw [encbodyBody, hv, require_true, Res.bind_ok, readFuel, eachByte, encodeNext, goesOn, Res.bind_assoc,
        Res.bind_assoc]
      obtain ⟨-, hr⟩ | ⟨-, hpos, b, hr⟩ | ⟨-, -, hr⟩ := inRead_cases 8 s <;> rw [hr]
      · rfl
      · simp only [Res.bind_ok]
        cases hbyte : emitSymbol (symOfByte b) (advance 8 s) with
        | raised e t => rfl
        | refused r => rfl
        | ok a t =>
          have hinp : t.inp = (advance 8 s).inp := emitSymbol_inp _ _ _ hbyte
          have hcode : t.status.codeValid = true := by
            have hframe := hemit (symOfByte b) (advance 8 s)
            rw [hbyte] at hframe
            exact (hframe .codeValid (by decide)).trans hv
          have hless := ahead_advance_lt (by decide) hpos
          rw [← ahead_of_inp hinp, ahead_length s] at hless
          have hfuel := eachByte_fuel (fun b => emitSymbol_inp (symOfByte b)) s.inp.bits.length (readFuel t)
            (s := t) (by omega) (ahead_lt_readFuel t)
          simp only [Res.bind_ok, Bool.false_eq_true, if_false]
          rw [hfuel]
          change _ = encbodyBody t
          rw [encbodyBody, hcode, require_true, Res.bind_ok]
      · simp only [Res.bind_ok]
        cases emitSymbol Config.eob (toEnd s) <;> rfl
    · refine ⟨nofun, ?_⟩
      obtain ⟨-, hr⟩ | ⟨-, hpos, b, hr⟩ | ⟨-, -, hr⟩ := inRead_cases 8 s <;> rw [encodeNext, hr] at hu
      · cases hu
      · simp only [Res.bind_ok] at hu
        obtain ⟨_, t, hbyte, heq⟩ := Res.bind_eq_ok hu
        cases heq
        rw [ahead_of_inp (emitSymbol_inp _ _ _ hbyte)]
        exact ahead_advance_lt (by decide) hpos
      · simp only [Res.bind_ok] at hu
        exact absurd hu bind_true_ne_false

/-- The decode loop takes the bits of one token as the token does (45_decoder.md R193). -/
theorem decodeLoop_token (root : CodeTree) (n : Nat) (path after : BitString) {s : State} (ho : s.inp.isOpen = true)
    (h : s.ahead = path ++ after) : decodeLoop root (n + path.length) s =
      (decodeToken root path s).bind fun fin u => if fin then .ok () u else decodeLoop root n u := by
  induction path generalizing s with
  | nil => rfl
  | cons b bs ih =>
    have hread : inRead 1 s = .ok (some (BitVec.ofNat 1 (valOf [b]))) (advance 1 s) := inRead_one ho h
    rw [List.length_cons, ← Nat.add_assoc, decodeLoop, decodeToken, hread]
    simp only [Res.bind_ok, ofNat_one_toNat]
    cases hbit : decodeBit root b (advance 1 s) with
    | raised e t => rfl
    | refused r => rfl
    | ok fin t =>
      cases fin with
      | true => rfl
      | false =>
        have hinp : t.inp = (advance 1 s).inp := decodeBit_inp hbit
        exact ih (hinp ▸ ho) (by rw [ahead_of_inp hinp, ahead_advance, h]; rfl)

/-- A token that does not end the block is taken whole. -/
theorem decodeToken_inp {root : CodeTree} {path : BitString} {s u : State} (h : decodeToken root path s = .ok false u) :
    u.inp = (advance path.length s).inp := by
  induction path generalizing s with
  | nil => cases h; rfl
  | cons b bs ih =>
    rw [decodeToken] at h
    obtain ⟨-, hr⟩ | ⟨-, -, v, hr⟩ | ⟨-, -, hr⟩ := inRead_cases 1 s <;> rw [hr] at h
    · cases h
    · simp only [Res.bind_ok] at h
      obtain ⟨fin, t, hbit, hnext⟩ := Res.bind_eq_ok h
      cases fin with
      | true => cases hnext
      | false =>
        rw [ih hnext, List.length_cons, Nat.add_comm, ← advance_advance]
        simp only [advance, decodeBit_inp hbit]
    · cases h

theorem needTree_congr {s : State} {k l : CodeTree → State → Res α} (h : ∀ t, validTree s = some t → k t s = l t s) :
    needTree s k = needTree s l := by
  rw [needTree, needTree]
  cases ht : validTree s with
  | none => rfl
  | some t => exact h t ht

/-- The decode loop is a token, and then what is left of DECBODY. -/
theorem decodeLoop_rest {t : CodeTree} {path after : BitString} {s : State} (ht : validTree s = some t)
    (ho : s.inp.isOpen = true) (h : s.ahead = path ++ after) :
    decodeLoop t (readFuel s) s = goesOn .decbody (decodeToken t path s) := by
  have hlen : s.ahead.length = path.length + after.length := by rw [h, List.length_append]
  obtain ⟨n, hn⟩ : ∃ n, readFuel s = n + path.length := by
    have hlt := ahead_lt_readFuel s
    exact ⟨readFuel s - path.length, by omega⟩
  have hframe := decodeToken_frame t path s
  rw [hn, decodeLoop_token t n path after ho h]
  cases htoken : decodeToken t path s with
  | raised e u => rfl
  | refused r => rfl
  | ok fin u =>
    cases fin with
    | true => rfl
    | false =>
      rw [htoken] at hframe
      have htree : validTree u = some t := by
        rw [validTree, hframe .treeValid (by decide), hframe .tree (by decide)]
        exact ht
      have hahead : u.ahead.length = s.ahead.length - path.length := by
        rw [ahead_of_inp (decodeToken_inp htoken), ahead_advance, List.length_drop]
      have hfuel := decodeLoop_fuel t n (readFuel u) (s := u) (by have := ahead_lt_readFuel s; omega) (ahead_lt_readFuel u)
      change decodeLoop t n u = needTree u _
      rw [needTree, htree, hfuel]

/-- DECBODY takes a code, or the bits that are left (45_decoder.md R193). -/
theorem advances_decbody {c : Cmd} {s : State} (hs : Live c .decbody s) : Advances c .decbody s := by
  have hbind : ∀ (k : CodeTree → State → Res Bool), goesOn .decbody (needTree s k) =
      needTree s fun t u => goesOn .decbody (k t u) := fun k => by
    rw [needTree, needTree]
    cases validTree s <;> rfl
  obtain ⟨-, hrun⟩ | ⟨path, after, y, ho, hcur, hahead, hcode, hrun⟩ := runOn_decbody hs.phase
  · rw [stepWork_decbody] at hrun
    refine turn_advances hs hrun (ending_of_goesOn ?_) ?_ fun u hu => ?_
    · simp only [hbind, goesOn_whole]
      rfl
    · exact needTree_frame fun t => within_answer true (frame_widen (by decide) (decodeLoop_frame t _ s))
    · unfold needTree at hu
      split at hu
      · cases hu
      · exact absurd hu bind_true_ne_false
  · have hpath : 1 ≤ path.length := CodeTree.isCode_pos hcur hcode
    have hlen : s.ahead.length = path.length + after.length := by rw [hahead, List.length_append]
    have htake : ∀ t u, decodeToken t path s = .ok false u → u.ahead.length < s.ahead.length := by
      intro t u hu
      rw [ahead_of_inp (decodeToken_inp hu), ahead_advance, List.length_drop]
      omega
    refine turn_advances hs hrun (ending_of_goesOn ?_) ?_ fun u hu => ?_
    · rw [hbind]
      exact needTree_congr fun t ht => decodeLoop_rest ht ho hahead
    · exact needTree_frame fun t => frame_widen (by decide) (decodeToken_frame t path s)
    · refine ⟨nofun, ?_⟩
      unfold needTree at hu
      split at hu
      · cases hu
      · exact htake _ u hu

/-! ### RDTREE with its stack -/

theorem growTree_of_complete {t t' : CodeTree} {k : List Frame} (h : plug t k = (some t', [])) (s : State) :
    growTree k t s = .ok t' s := by
  induction k generalizing t with
  | nil => cases h; rfl
  | cons f k ih =>
    cases f with
    | left => cases h
    | right l => exact ih h

theorem growTree_of_pending {t l : CodeTree} {k k' : List Frame} (h : plug t k = (none, .right l :: k')) (s : State) :
    growTree k t s = (readTree Config.nodeCap s).bind fun r u => growTree (.right l :: k') r u := by
  induction k generalizing t with
  | nil => cases h
  | cons f k ih =>
    cases f with
    | left => cases h; rfl
    | right l' => exact ih h

/-- Two subtrees read and put together are one read for a pending node. -/
theorem growTree_left (k : List Frame) (read : Res CodeTree) :
    ((read.bind fun l v => (readTree Config.nodeCap v).bind fun r w => .ok (.node l r) w).bind fun t u =>
      growTree k t u) = read.bind fun t u => growTree (.left :: k) t u := by
  rw [Res.bind_assoc]
  refine congrArg (Res.bind read) (funext fun l => funext fun v => ?_)
  rw [Res.bind_assoc]
  rfl

/-- At a node that ends RDTREE with a fault nothing is left of it, up to the stack, which a fault empties. -/
theorem restTree_raised {s u : State} {e : FaultKind} (h : readNode s = .raised e u) :
    restTree s = (Res.raised e u).mapState (Scratch.stack []).put := by
  have hread : readNode ((Scratch.stack []).put s) = .raised e ((Scratch.stack []).put u) := by
    rw [readNode_put, h]; rfl
  rw [restTree, readTree_of_raised hread, Res.bind_raised, Res.bind_raised]
  rfl

/-- At an internal node the header goes on under it. -/
theorem restTree_internal {s u : State} (h : readNode s = .ok .internal u) (hu : u.nnode.toNat ≤ Config.nodeCap)
    (hpos : 1 ≤ u.nnode.toNat) (hstack : u.stack = s.stack) :
    restTree s = goesOn .rdtree (acceptNode .internal u) := by
  have hread : readNode ((Scratch.stack []).put s) = .ok .internal ((Scratch.stack []).put u) := by
    rw [readNode_put, h]; rfl
  change restTree s = restTree { u with stack := .left :: u.stack }
  rw [restTree, restTree, readTree_internal hread hu hpos, growTree_left, hstack]
  rfl

/-- At a leaf the pending nodes take it, and the header is read on or is whole. -/
theorem restTree_leaf {s u : State} {y : Sym} (h : readNode s = .ok (.leaf y) u) (hstack : u.stack = s.stack) :
    restTree s = goesOn .rdtree (acceptNode (.leaf y) u) := by
  have hread : readTree Config.nodeCap ((Scratch.stack []).put s) = .ok (.leaf y) ((Scratch.stack []).put u) := by
    obtain ⟨n, hcap⟩ : ∃ n, Config.nodeCap = n + 1 := ⟨512, rfl⟩
    rw [hcap, readTree, readNode_put, h]
    rfl
  rw [restTree, hread, Res.bind_ok, acceptNode, hstack]
  obtain ⟨t, hplug, -⟩ | ⟨l, k, hplug, -⟩ := plug_cases (.leaf y) s.stack
  · rw [growTree_of_complete hplug, hplug]
    rfl
  · rw [growTree_of_pending hplug, hplug]
    rfl

theorem acceptNode_false {k : NodeToken} {s u : State} (h : acceptNode k s = .ok false u) :
    u.nnode = s.nnode ∧ u.inp = s.inp := by
  have hframe := acceptNode_frame k s
  rw [h] at hframe
  exact ⟨hframe .nnode (by decide), hframe .inp (by decide)⟩

/-- RDTREE takes a node. -/
theorem advances_rdtree {c : Cmd} {s : State} (hs : Live c .rdtree s) : Advances c .rdtree s := by
  have hrun := runOn_run hs.phase (by decide)
  have hframe : (stepWork .rdtree s).within (OnlyChanges stepChanges) s :=
    frame_bind (frame_widen (by decide) (readNode_frame s)) fun k t _ => frame_widen (by decide) (acceptNode_frame k t)
  rw [stepWork_rdtree] at hrun hframe
  cases ho : s.inp.isOpen with
  | false =>
    rw [readNode_refused ho, Res.bind_refused] at hrun hframe
    refine turn_advances hs hrun (ending_of_goesOn ?_) hframe fun u hu => by cases hu
    change restTree s = _
    rw [restTree, readTree_refused (s := (Scratch.stack []).put s) ho]
    rfl
  | true =>
    obtain ⟨e, u, hr, -⟩ | ⟨hcap, hr⟩ := readNode_cases ho
    · rw [hr, Res.bind_raised] at hrun hframe
      refine turn_advances hs hrun ?_ hframe fun u hu => by cases hu
      rw [ending, show rest .rdtree s = _ from restTree_raised hr]
      exact settle_put_stack c [] (.raised e u)
    · have hless : s.nnode.toNat < Config.nodeCap := lt_of_le_of_ne (hs.nodes rfl) hcap
      have hcount : ∀ k, (tally 1 (advance k s)).nnode.toNat = s.nnode.toNat + 1 := fun k => tally_one_nnode hless
      obtain ⟨after, hahead, hr⟩ | ⟨y, after, hahead, hr⟩ := hr <;> rw [hr, Res.bind_ok] at hrun hframe
      · have hnow := hcount 1
        refine turn_advances hs hrun (ending_of_goesOn (restTree_internal hr (by omega) (by omega) rfl)) hframe
          fun u hu => ?_
        obtain ⟨hnode, hinp⟩ := acceptNode_false hu
        refine ⟨fun _ => by rw [hnode]; omega, ?_⟩
        rw [ahead_of_inp hinp]
        exact (congrArg List.length (ahead_advance 1 s)).trans_lt (by rw [hahead]; simp)
      · have hnow := hcount 10
        refine turn_advances hs hrun (ending_of_goesOn (restTree_leaf hr rfl)) hframe fun u hu => ?_
        obtain ⟨hnode, hinp⟩ := acceptNode_false hu
        refine ⟨fun _ => by rw [hnode]; omega, ?_⟩
        rw [ahead_of_inp hinp]
        exact (congrArg List.length (ahead_advance 10 s)).trans_lt (by rw [hahead]; simp)

/-! ### The whole command -/

theorem advances {c p : Cmd} {s : State} (hs : Live c p s) : Advances c p s := by
  cases p with
  | rdtree => exact advances_rdtree hs
  | decbody => exact advances_decbody hs
  | encbody => exact advances_encbody hs
  | _ => exact advances_whole hs (by decide)

theorem core_step_eq : Sys2Proof.core.step = step := rfl

theorem run_one (s : State) : Host.Core.run Sys2Proof.core 1 s = step s := by
  simp only [Host.Core.run, core_step_eq]
  cases step s with
  | next t => rfl
  | fault e => cases e
  | refused r => rfl

theorem run_next {s t : State} (h : step s = .next t) (n : Nat) :
    Host.Core.run Sys2Proof.core (n + 1) s = Host.Core.run Sys2Proof.core n t := by
  simp only [Host.Core.run, core_step_eq, h]

/-- A watched command comes to the end that is ahead of it. -/
theorem Live.ends {c p : Cmd} {s : State} (hs : Live c p s) : ∃ n, Host.Core.run Sys2Proof.core n s = ending c p s := by
  induction hn : left c p s using Nat.strong_induction_on generalizing p s with
  | _ n ih =>
    have hstep : step s = runOn s := step_of_running hs.port hs.busy
    obtain hlast | ⟨q, t, hrun, ht, hend, hless⟩ := advances hs
    · exact ⟨1, (run_one s).trans (hstep.trans hlast)⟩
    · obtain ⟨m, hm⟩ := ih (left c q t) (hn ▸ hless) ht rfl
      exact ⟨m + 1, by rw [run_next (hstep.trans hrun), hm, hend]⟩

theorem commandBody_accept {c : Cmd} (hclear : c ≠ .clear) (s : State) :
    commandBody c (accept c s) = runSteps c (stepsOf c) (started c s) := by
  have hunit : ∀ r : Res Unit, (r.bind fun _ u => .ok () u) = r := fun r => by cases r <;> rfl
  rw [commandBody, started]
  cases hc : c.composite with
  | true => rfl
  | false =>
    cases c with
    | clear => exact absurd rfl hclear
    | compress | decompress => cases hc
    | _ => exact (hunit _).symm

/-- The first step entered leaves the end of the whole command ahead. -/
theorem ending_of_entered {c p : Cmd} {ps : List Cmd} {s t : State} {a : Unit} (hsteps : stepsOf c = p :: ps)
    (h : enterStep c p s = .ok a t) : ending c p t = settle (unwind c (runSteps c (stepsOf c) s)) := by
  have hafter : after p (stepsOf c) = ps := by rw [hsteps, after, if_pos rfl]
  rw [ending, hafter, hsteps, runSteps_enter, h, Res.bind_ok]

/-- A command started by a ready or acting block runs to the end of its body. -/
theorem watched_ends {c : Cmd} (hclear : c ≠ .clear) {s : State} (hport : s.port = []) :
    (∃ n t, startCommand c s = .next t ∧
        Host.Core.run Sys2Proof.core n t = exec (decodeCommand c.opcode) s) ∨
      startCommand c s = exec (decodeCommand c.opcode) s := by
  obtain ⟨p, ps, hsteps, hstart⟩ := startCommand_eq hclear s
  rw [hstart, exec_opcode hclear, runCommand, gate, gate]
  split
  · exact .inr rfl
  · split
    · exact .inr rfl
    · rw [commandBody_accept hclear]
      cases henter : enterStep c p (started c s) with
      | ok a t =>
        have hbusy : (started c s).status.busy = true := by rw [started]; split <;> rfl
        have hnone : (started c s).port = [] := by rw [started]; split <;> exact hport
        obtain ⟨n, hn⟩ := (enterStep_live hbusy hnone henter).ends
        exact .inl ⟨n, t, rfl, hn.trans (ending_of_entered hsteps henter)⟩
      | raised e t => exact .inr (by rw [hsteps, runSteps_enter, henter, Res.bind_raised])
      | refused r => exact .inr (by rw [hsteps, runSteps_enter, henter, Res.bind_refused]; rfl)

end Sys2Proof.Machine

namespace Sys2Proof.Proofs

open Sys2Proof.Machine

/-- Settles O8: each piece of a watched command leaves the same end ahead and brings it nearer. -/
theorem watchedCommandEndsAlike : Obligations.WatchedCommandEndsAlike := by
  intro s w _ hbusy
  have hstep : step { s with port := [.start w] } = startWord w { s with port := [] } :=
    step_of_event (s := { s with port := [.start w] }) rfl hbusy
  obtain ⟨c, rfl, hword⟩ | ⟨-, hword⟩ := startWord_cases w { s with port := [] }
  · by_cases hclear : c = .clear
    · subst hclear
      exact ⟨1, (run_one _).trans (hstep.trans (hword.trans (startCommand_clear _)))⟩
    · obtain ⟨n, t, hstart, hn⟩ | hstart := watched_ends hclear (s := { s with port := [] }) rfl
      · exact ⟨n + 1, (run_next (hstep.trans (hword.trans hstart)) n).trans hn⟩
      · exact ⟨1, (run_one _).trans (hstep.trans (hword.trans hstart))⟩
  · exact ⟨1, (run_one _).trans (hstep.trans hword)⟩

end Sys2Proof.Proofs
end

section
/-! PROOFS. A compression watched through its first pass, whose input the host then changes (20_memory.md R70,
44_encoder.md R176, 70_reset_and_hazards.md R271; log 1, log 23). -/

namespace Sys2Proof.Machine

/-! ### Between the two passes of COMPRESS -/

/-- The steps in which the input may change, in their order (70_reset_and_hazards.md R271). -/
def passes : List Cmd := [.build, .gencodes, .wrmagic, .wrtree, .rewind, .encbody]

/-- What COMPRESS has written when it comes to step `p` under the table `freq`. -/
def written (freq : Vector Count 256) : Cmd → BitString
  | .wrtree => bitsOf 32 Config.magic.toNat
  | .rewind | .encbody => bitsOf 32 Config.magic.toNat ++ encTree (buildTree freq)
  | .count | .build | .gencodes | .wrmagic | .rdmagic | .rdtree | .decbody | .close | .compress | .decompress | .clear => []

/-- A compression at step `p` that started with `out` written and has counted the table `freq`. The steps to come read
nothing of the input before they rewind it. -/
structure Passing (freq : Vector Count 256) (out : BitString) (p : Cmd) (s : State) : Prop where
  streams : Streams true s
  phase : s.phase = .run .compress p
  busy : s.status.busy = true
  noError : s.status.err = false
  counted : s.status.freqValid = true ∧ s.freq = freq
  tree : p ≠ .build → s.status.treeValid = true ∧ s.tree = some (buildTree freq)
  code : p ∉ [Cmd.build, .gencodes] → s.status.codeValid = true ∧ s.code = codesOf (buildTree freq)
  grown : s.out.bits = out ++ written freq p
  rewound : p = .encbody → s.inp.pos = 0

variable {freq : Vector Count 256} {out : BitString} {p q : Cmd} {s : State}

/-- Every step between the passes ends without a fault at the next one. -/
theorem Passing.next (h : Passing freq out p s) {qs : List Cmd} (hp : after p passes = q :: qs) :
    ∃ u, primitiveBody p s = .ok () u ∧ Passing freq out q (atStep .compress q u) := by
  have hgrown : ∀ b, (append b s).out.bits = out ++ (written freq p ++ b) := fun b => by
    rw [← List.append_assoc, ← h.grown]; rfl
  cases p with
  | build =>
    cases hp
    refine ⟨built s, buildBody_valid h.counted.1, ⟨⟨h.streams.inp, h.streams.out⟩, rfl, h.busy, h.noError, h.counted,
      fun _ => ⟨rfl, ?_⟩, fun hno => absurd (by decide) hno, h.grown, nofun⟩⟩
    exact congrArg (fun f => some (buildTree f)) h.counted.2
  | gencodes =>
    cases hp
    obtain ⟨hv, ht⟩ := h.tree (by decide)
    exact ⟨_, gencodesBody_internal hv ht (buildTree_isLeaf freq), ⟨⟨h.streams.inp, h.streams.out⟩, rfl, h.busy,
      h.noError, h.counted, fun _ => ⟨hv, ht⟩, fun _ => ⟨rfl, rfl⟩, h.grown, nofun⟩⟩
  | wrmagic =>
    cases hp
    exact ⟨_, wrmagicBody_open h.streams.out, ⟨⟨h.streams.inp, h.streams.out⟩, rfl, h.busy, h.noError, h.counted,
      fun _ => h.tree (by decide), fun _ => h.code (by decide), hgrown _, nofun⟩⟩
  | wrtree =>
    cases hp
    obtain ⟨hv, ht⟩ := h.tree (by decide)
    exact ⟨_, wrtreeBody_valid h.streams.out hv ht, ⟨⟨h.streams.inp, h.streams.out⟩, rfl, h.busy, h.noError, h.counted,
      fun _ => ⟨hv, ht⟩, fun _ => h.code (by decide), hgrown _, nofun⟩⟩
  | rewind =>
    cases hp
    exact ⟨_, inRewind_open h.streams.inp, ⟨⟨h.streams.inp, h.streams.out⟩, rfl, h.busy, h.noError, h.counted,
      fun _ => h.tree (by decide), fun _ => h.code (by decide), h.grown, fun _ => rfl⟩⟩
  | _ => cases hp

theorem passes_nodup : passes.Nodup := by decide

/-- The host's list does not show in where a compression is. -/
theorem Passing.offer (h : Passing freq out p s) (port : List HostEvent) : Passing freq out p { s with port := port } :=
  ⟨⟨h.streams.inp, h.streams.out⟩, h.phase, h.busy, h.noError, h.counted, h.tree, h.code, h.grown, h.rewound⟩

/-- Nor does what its input holds: at ENCBODY the changed input is still at its start. -/
theorem Passing.change (h : Passing freq out p s) (bytes : List Byte) : Passing freq out p (changeInput bytes s) :=
  ⟨⟨h.streams.inp, h.streams.out⟩, h.phase, h.busy, h.noError, h.counted, h.tree, h.code, h.grown, fun hp => by
    rw [changeInput, h.rewound hp, Nat.zero_min]⟩

theorem mem_passes_of_after {l qs : List Cmd} (h : after p l = q :: qs) : p ∈ l := by
  induction l with
  | nil => cases h
  | cons a l ih =>
    rw [after] at h
    split at h
    · next heq => exact heq ▸ List.mem_cons_self ..
    · exact List.mem_cons_of_mem a (ih h)

theorem passes_whole {qs : List Cmd} (h : after p passes = q :: qs) :
    p ∉ [Cmd.rdtree, .decbody, .encbody] ∧ stepAfter p (stepsOf .compress) = some q := by
  cases p <;> cases h <;> exact ⟨by decide, rfl⟩

/-- A step watched between the passes. -/
theorem Passing.runOn (h : Passing freq out p s) {qs : List Cmd} (hp : after p passes = q :: qs) :
    ∃ t, Machine.runOn s = .next t ∧ Passing freq out q t := by
  obtain ⟨hwhole, hnext⟩ := passes_whole hp
  obtain ⟨u, hbody, hu⟩ := h.next hp
  refine ⟨_, ?_, hu⟩
  rw [runOn_run h.phase (by rintro rfl; exact hwhole (by decide)), stepWork_whole hwhole, hbody, Res.bind_ok]
  refine turn_enter hnext (a := ()) ?_
  cases p <;> cases hp <;> rfl

theorem run_add {m n : Nat} {s t : State} (h : Host.Core.run Sys2Proof.core m s = .next t) :
    Host.Core.run Sys2Proof.core (m + n) s = Host.Core.run Sys2Proof.core n t := by
  induction m generalizing s with
  | zero => cases h; rw [Nat.zero_add]
  | succ m ih =>
    rw [Nat.add_right_comm]
    simp only [Host.Core.run, core_step_eq] at h ⊢
    cases hstep : step s with
    | next u => rw [hstep] at h; exact ih h
    | fault e => cases e
    | refused r => rw [hstep] at h; cases h

/-- The host waits while the steps between the passes go by. -/
theorem Passing.waits (h : Passing freq out p s) {j : Nat} (hj : j ≤ (after p passes).length) {rest : List HostEvent}
    (hport : s.port = List.replicate j .wait ++ rest) (hp : p ∈ passes) :
    ∃ q t, Host.Core.run Sys2Proof.core j s = .next t ∧ Passing freq out q t ∧ q ∈ passes ∧ t.port = rest := by
  induction j generalizing p s with
  | zero => exact ⟨p, s, rfl, h, hp, hport⟩
  | succ j ih =>
    cases hafter : after p passes with
    | nil => rw [hafter] at hj; exact absurd hj (Nat.not_succ_le_zero j)
    | cons q qs =>
      obtain ⟨t, hrun, ht⟩ := (h.offer (List.replicate j .wait ++ rest)).runOn hafter
      have hstep : step s = .next t := by
        rw [step_of_event_busy hport h.busy]
        exact hrun
      have hless : j ≤ (after q passes).length := by
        rw [after_of_nodup passes_nodup hafter]
        rw [hafter] at hj
        exact Nat.le_of_succ_le_succ hj
      have hq : q ∈ passes := after_subset p passes (hafter ▸ List.mem_cons_self ..)
      obtain ⟨r, u, hend, hr⟩ := ih ht hless (runOn_streamStep hrun).port hq
      exact ⟨r, u, (run_next hstep j).trans hend, hr⟩

/-- Up to the second pass nothing of the input is read, and its bits stay as they are. -/
theorem Passing.toEncbody (h : Passing freq out p s) (hp : p ∈ passes) :
    ∃ u, Passing freq out .encbody u ∧ u.inp.bits = s.inp.bits ∧ u.port = s.port ∧
      runSteps .compress (p :: after p (stepsOf .compress)) s = runSteps .compress [.encbody, .close] u := by
  induction hl : after p passes generalizing p s with
  | nil =>
    obtain rfl : p = .encbody := by
      revert hl hp
      cases p <;> decide
    exact ⟨s, h, rfl, rfl, rfl⟩
  | cons q qs ih =>
    obtain ⟨u, hbody, hu⟩ := h.next hl
    have hstream := primitiveBody_streamStep p s
    rw [hbody] at hstream
    have hself : atStep .compress p s = s := by rw [atStep, ← h.phase]
    have hafter : after p (stepsOf .compress) = q :: after q (stepsOf .compress) := by
      cases p <;> cases hl <;> rfl
    obtain ⟨v, hv, hbits, hport, hsteps⟩ := ih hu (after_subset p passes (hl ▸ List.mem_cons_self ..))
      (after_of_nodup passes_nodup hl)
    refine ⟨v, hv, hbits.trans hstream.bits, hport.trans hstream.port, ?_⟩
    rw [runSteps_cons (hself.symm ▸ hbody), hafter, ← hsteps, runSteps, runSteps]
    rfl

theorem Passing.secondPass (h : Passing freq out .encbody s) {bytes : List Byte}
    (hbits : s.inp.bits = bitsOfBytes bytes) : SecondPass (buildTree freq) bytes s :=
  ⟨h.streams, (h.code (by decide)).1, (h.code (by decide)).2, [], by
    rw [State.ahead, h.rewound rfl, hbits, List.drop_zero, List.append_nil], by decide⟩

/-- A compression watched to the end of its first pass. -/
theorem runOn_count (hphase : s.phase = .run .compress .count) (hbusy : s.status.busy = true)
    (herr : s.status.err = false) (h : Streams true s) {bytes : List Byte} (hahead : s.ahead = bitsOfBytes bytes ++ []) :
    ∃ t, Machine.runOn s = .next t ∧ Passing (countsOf bytes) s.out.bits .build t := by
  have hcount := countBody_eq h.inp hahead (by decide)
  rw [countInto_zero] at hcount
  generalize countsOf bytes = freq at hcount ⊢
  have hrun : Machine.runOn s =
      .next (atStep .compress .build (markFreq { toEnd (countInit s) with freq := freq })) := by
    rw [runOn_run hphase (by decide), stepWork_whole (by decide), show primitiveBody .count s = _ from hcount,
      Res.bind_ok]
    exact turn_enter (q := .build) rfl (a := ()) rfl
  exact ⟨_, hrun, ⟨⟨h.inp, h.out⟩, rfl, hbusy, herr, ⟨rfl, rfl⟩, fun hno => absurd rfl hno,
    fun hno => absurd (by decide) hno, (List.append_nil _).symm, nofun⟩⟩

theorem startCommand_compress (hs : s.ready) :
    startCommand .compress s = .next (atStep .compress .count (cleardata (accept .compress s))) := gate_ready hs _

/-- COMPRESS started to be watched (44_encoder.md R178). -/
theorem step_start_compress (hs : s.ready) {events : List HostEvent} (hport : s.port = .start 0xC#4 :: events) :
    step s = .next (atStep .compress .count (cleardata (accept .compress { s with port := events }))) := by
  rw [step_of_event hport hs.1]
  exact startCommand_compress (s := { s with port := events }) hs

/-- The start of a compression and its first pass. -/
theorem run_count {old : List Byte} {events : List HostEvent} (hs : s.ready)
    (hport : s.port = .start 0xC#4 :: .wait :: events) (ho : s.out.isOpen = true)
    (hinp : s.inp = { bits := bitsOfBytes old, pos := 0, isOpen := true }) :
    ∃ t, Host.Core.run Sys2Proof.core 2 s = .next t ∧ Passing (countsOf old) s.out.bits .build t ∧ t.port = events := by
  have hi : s.inp.isOpen = true := by rw [hinp]
  have hahead : s.ahead = bitsOfBytes old ++ [] := by rw [State.ahead, hinp, List.drop_zero, List.append_nil]
  obtain ⟨t, hrun, ht⟩ :=
    runOn_count (s := atStep .compress .count (cleardata (accept .compress { s with port := events }))) rfl rfl hs.2
      ⟨hi, ho⟩ hahead
  have hwait : step (atStep .compress .count (cleardata (accept .compress { s with port := .wait :: events }))) =
      .next t := (step_of_event_busy (ev := .wait) (rest := events) rfl rfl).trans hrun
  exact ⟨t, (run_next (step_start_compress hs hport) 1).trans ((run_one _).trans hwait), ht, (runOn_streamStep hrun).port⟩

/-- The change of the input between the passes, and the end of the command after it. -/
theorem Passing.changedEnds (h : Passing freq out p s) (hp : p ∈ passes) {new : List Byte}
    (hport : s.port = [.changeIn new]) :
    ∃ n t w u, Host.Core.run Sys2Proof.core n s = .next t ∧ Passing freq out .encbody u ∧ u.port = [] ∧
      Shut (append w u) t ∧ SecondPass.End (buildTree freq) new u t w := by
  have hbetween : s.phase.betweenPasses = true := by
    rw [h.phase, Phase.betweenPasses]
    revert hp
    cases p <;> decide
  have hstep : step s = .next (changeInput new { s with port := [] }) := by
    rw [step_of_event_busy hport h.busy, hostActsBusy, if_pos hbetween]
  have hchanged := (h.offer []).change new
  obtain ⟨u, hu, hbits, hnone, hsteps⟩ := hchanged.toEncbody hp
  obtain ⟨t, w, hend, hshut, hcases⟩ := (hu.secondPass (bytes := new) hbits).ends (eob_mem_buildTree freq)
  have hlive : Live .compress p (changeInput new { s with port := [] }) :=
    ⟨hchanged.phase, hchanged.busy, rfl, by rintro rfl; exact absurd hp (by decide)⟩
  obtain ⟨n, hn⟩ := hlive.ends
  have hself : atStep .compress p (changeInput new { s with port := [] }) = changeInput new { s with port := [] } := by
    rw [atStep, ← hchanged.phase]
  have hwhole : rest p (changeInput new { s with port := [] }) = primitiveBody p (changeInput new { s with port := [] }) :=
    rest_whole (by rintro hmem; revert hp hmem; cases p <;> decide) _
  have hlast : ending .compress p (changeInput new { s with port := [] }) = .next t := by
    rw [ending, hwhole, ← hend, ← hsteps, runSteps, hself]
  exact ⟨n + 1, t, w, u, (run_next hstep n).trans (hn.trans hlast), hu, hnone, hshut, hcases⟩

end Sys2Proof.Machine

namespace Sys2Proof.Proofs

open Sys2Proof.Machine

/-- Settles O11: the change finds the command between its passes, where nothing of the input is read until it is rewound;
the second pass then ends as the codes of the old tree let it. -/
theorem inputChangedBetweenPasses : Obligations.InputChangedBetweenPasses := by
  intro s old new k hs ho hinp hk₁ hk₆
  obtain ⟨j, rfl⟩ : ∃ j, k = j + 1 := ⟨k - 1, by omega⟩
  have hmem := symOfByte_mem_buildTree old
  obtain ⟨s₁, hrun₁, h₁, hport₁⟩ :=
    run_count (s := { s with port := .start 0xC#4 :: (List.replicate (j + 1) .wait ++ [.changeIn new]) }) hs rfl ho hinp
  generalize countsOf old = freq at hmem h₁ ⊢
  obtain ⟨p, s₂, hrun₂, h₂, hp, hport₂⟩ := h₁.waits (j := j) (Nat.le_of_succ_le_succ hk₆) hport₁ (by decide)
  obtain ⟨n, t, w, u, hrun₃, hu, hnone, hshut, hend⟩ := h₂.changedEnds hp hport₂
  have hstatus := hshut.status
  refine ⟨2 + (j + n), t, (run_add hrun₁).trans ((run_add hrun₂).trans hrun₃), hshut.port.trans hnone, by rw [hstatus],
    by rw [hstatus], hshut.closed, hshut.inp, fun hall => ?_, fun ⟨b, hb, hnot⟩ => ?_⟩
  · obtain ⟨-, hw, herr, -⟩ | ⟨⟨b, hb, hnot⟩, -⟩ := hend
    · refine ⟨herr.trans hu.noError, padBits u.draws (padLength (u.out.bits ++ w).length), ?_, hshut.whole, ?_⟩
      · rw [padBits_length]; exact padLength_lt _
      · have hout : t.out.bits = u.out.bits ++ w ++ padBits u.draws (padLength (u.out.bits ++ w).length) := by
          rw [hshut.out]; rfl
        rw [hout, hu.grown, hw, written]
        simp only [List.append_assoc]
    · exact absurd (hall b hb) fun hold => hnot ((hmem b).mpr hold)
  · obtain ⟨hall, -⟩ | ⟨-, hfault⟩ := hend
    · exact absurd ((hmem b).mp (hall b hb)) hnot
    · exact hfault

end Sys2Proof.Proofs
end
